-- ==== Sys2Proof/Word.lean ====
section
/-! DEFINITION. The widths of the block's values (00_scope.md R8: every value is unsigned) and the one-bit frame
kind. -/

namespace Sys2Proof

/-- A byte: an unsigned 8-bit value (R8). -/
abbrev Byte := BitVec 8

/-- A 16-bit value: a device id, a raw payload word, the checksum accumulator (R5 `ACC_W`). -/
abbrev Half := BitVec 16

/-- A `CLOCK_W`-bit value: a clock read, the timeout register, a deadline (R6). -/
abbrev Word := BitVec 32

/-- The one-bit `kind` operand of 30_encoding.md R88: 0 is `CMD`, 1 is `RESP`. -/
inductive Kind where
  | cmd
  | resp
  deriving DecidableEq, Repr, Inhabited

end Sys2Proof
end

