-- ==== Sys2Proof/Interface.lean ====
section
/-! DEFINITION. What reaches the block from outside: a request as the host presents it (30_encoding.md R89, before any
check), the reasons a request is refused (R92), and the turns in which the agents of 60_exceptions.md R214 move. -/

namespace Sys2Proof

/-- A request (30_encoding.md R89): the 8-bit OP selector and the typed operand fields beside it. A field is `none` when
the host leaves it out. Integer fields are naturals so that one too wide for its operand can be presented and refused
(R92 (d)). -/
structure Request where
  op : Byte
  t : Option Nat := none
  dl : Option Nat := none
  cid : Option Nat := none
  dev : Option Nat := none
  kind : Option Nat := none
  span : Option (List Byte) := none
  payload : Option (List Byte) := none
  f : Option (List Byte) := none
  buf : Option (List Byte) := none
  deriving DecidableEq, Repr, Inhabited

/-- The operand fields of R89, to name the one a refusal is about. -/
inductive OperandName where
  | t | dl | cid | dev | kind | span | payload | f | buf
  deriving DecidableEq, Repr, Inhabited

/-- Why a request is refused at the interface (60_exceptions.md R204): the failed check of 30_encoding.md R92. -/
inductive RejectReason where
  /-- check (b): a non-optional operand is absent -/
  | missing (operand : OperandName)
  /-- check (c): a byte list has not the length its row gives -/
  | wrongLength (operand : OperandName)
  /-- check (d): an integer does not fit its width -/
  | tooWide (operand : OperandName)
  deriving DecidableEq, Repr, Inhabited

/-- Who moves in one step of the machine. Block steps and the steps of the other agents alternate in any order
(20_memory.md R60, R61; 60_exceptions.md R213, R214). -/
inductive Turn where
  /-- the block makes its next atomic step, if an operation is in progress -/
  | block
  /-- the environment appends received bytes to the tail of RXQ (R61) -/
  | arrive (bytes : List Byte)
  /-- a host task presents a request (R89) -/
  | issue (request : Request)
  /-- block reset (70_reset_and_hazards.md R240, R241) -/
  | reset
  /-- an agent other than the block consumes bytes from the front of RXQ (R68, R244) -/
  | foreignRead (count : Nat)
  /-- an agent other than the block writes bytes to the transport (R68, R244) -/
  | foreignWrite (bytes : List Byte)
  deriving DecidableEq, Repr, Inhabited

end Sys2Proof
end

