-- ==== Sys2Proof/Config.lean ====
section
/-! DEFINITION. The constants of 00_scope.md R5 and R6, and the free values: opaque constants applied to the counter
`State.draws`, of which nothing can be proved. -/

namespace Sys2Proof.Config

/-- R5 `CMD_LEN`. -/
def cmdLen : Nat := 19
/-- R5 `RESP_LEN`. -/
def respLen : Nat := 10
/-- R5 `CMD_PAYLOAD_LEN`. -/
def cmdPayloadLen : Nat := 13
/-- R5 `RESP_PAYLOAD_LEN`. -/
def respPayloadLen : Nat := 4
/-- R5 `HEAD`. -/
def head : Byte := 0xAA
/-- R5 `TAIL`. -/
def tail : Byte := 0xAB
/-- R5 `HOST_CMD_ID`. -/
def hostCmdId : Byte := 0xB4
/-- R5 `BROADCAST_ID`. -/
def broadcastId : Half := 0xFFFF
/-- R5 `TIMEOUT_DEFAULT`, in milliseconds. -/
def timeoutDefault : Word := 1000
/-- R6 `MAX_SEND_LEN`; the bound of CSUM's `span` is the same number (30_encoding.md R89). -/
def maxSendLen : Nat := 255

/-- The length of a frame of the given kind (30_encoding.md R82, R88). -/
def frameLen : Kind → Nat
  | .cmd => cmdLen
  | .resp => respLen

/-- Whose turn it is once the schedule is used up: any turn (20_memory.md R61, 60_exceptions.md R213; log 2). -/
opaque freeTurn : Nat → Turn

/-- WriteOracle's draw once the listed draws are used up (00_scope.md R7; log 12); the caller keeps it within 0..n. -/
opaque freeWriteCount : Nat → Nat

/-- ClockOracle's draw once the listed draws are used up (00_scope.md R7; log 10). -/
opaque freeClockStep : Nat → Nat

/-- What the transport has accepted in a `Write` that broke its contract (log 13). -/
opaque breachAccepted : Nat → List Byte

/-- How many bytes a `ReadExactly` delivers when its precondition is broken (log 14). -/
opaque breachCount : Nat → Nat

/-- A byte the transport answers in breach of its contract: draw number, index (log 14). -/
opaque breachByte : Nat → Nat → Byte

/-- What RXQ holds after a `ReadExactly` that fell short (log 14). -/
opaque breachRxq : Nat → List Byte

end Sys2Proof.Config
end

