-- ==== Sys2Proof/Syntax.lean ====
section
/-! DEFINITION. The operations of 30_encoding.md R89, one constructor per row of spec/opcode_table.json, with their
operands. An optional operand that is absent is `none`; its default is applied by the operation (Machine/Operands.lean). -/

namespace Sys2Proof

/-- One request the block can execute (R89). -/
inductive Instr where
  /-- SET_TIMEOUT (41_transport.md R160) -/
  | setTimeout (t : Word)
  /-- GET_TIMEOUT (R161) -/
  | getTimeout
  /-- MK_DEADLINE (R162); an absent `t` means TIMEOUT_MS -/
  | mkDeadline (t : Option Word)
  /-- CSUM (40_codec.md R121) -/
  | csum (span : List Byte)
  /-- BUILD_COMMAND (R122); an absent `cid` means 0xB4, an absent `dev` means 0xFFFF -/
  | buildCommand (cid : Option Byte) (payload : List Byte) (dev : Option Half)
  /-- DECODE_COMMAND (R123) -/
  | decodeCommand (f : List Byte)
  /-- VALIDATE_CHECKSUM (R124) -/
  | validateChecksum (kind : Kind) (f : List Byte)
  /-- CHECK_FRAME (R125) -/
  | checkFrame (kind : Kind) (f : List Byte)
  /-- DECODE_RESPONSE (R126) -/
  | decodeResponse (f : List Byte)
  /-- SEND_FRAME (41_transport.md R164) -/
  | sendFrame (buf : List Byte) (dl : Word)
  /-- SEEK_FRAME_START (R165) -/
  | seekFrameStart
  /-- RECEIVE_FRAME (R166) -/
  | receiveFrame (dl : Word)
  deriving DecidableEq, Repr, Inhabited

end Sys2Proof
end

