-- ==== Sys2Proof/WellFormed.lean ====
section
/-! DEFINITION. Operand well-formedness, check (c) of 30_encoding.md R92: every byte-list operand has the length its row
gives. Checks (b) and (d) are made where a request is read (Decode.lean): an `Instr` cannot miss an operand or hold an
integer wider than its operand. -/

namespace Sys2Proof

/-- `none` if a byte list of this length passes, otherwise the name of the failed check. -/
def checkLen (operand : OperandName) (ok : Bool) : Option RejectReason :=
  if ok then none else some (.wrongLength operand)

/-- The length check of each row of R89: `none` if the operation is well-formed. -/
def Instr.check : Instr → Option RejectReason
  | .setTimeout _ => none
  | .getTimeout => none
  | .mkDeadline _ => none
  | .csum span => checkLen .span (span.length ≤ Config.maxSendLen)
  | .buildCommand _ payload _ => checkLen .payload (payload.length = Config.cmdPayloadLen)
  | .decodeCommand f => checkLen .f (f.length = Config.cmdLen)
  | .validateChecksum kind f => checkLen .f (f.length = Config.frameLen kind)
  | .checkFrame kind f => checkLen .f (f.length = Config.frameLen kind)
  | .decodeResponse f => checkLen .f (f.length = Config.respLen)
  | .sendFrame buf _ => checkLen .buf (buf.length ≤ Config.maxSendLen)
  | .seekFrameStart => none
  | .receiveFrame _ => none

/-- The operation is well-formed (R92). -/
abbrev Instr.WellFormed (i : Instr) : Prop := i.check = none

end Sys2Proof
end

