-- ==== Sys2Proof/Decode.lean ====
section
/-! DEFINITION. Reading a request (30_encoding.md R89, R90, R92): total on every request, with a name for every refusal,
and the encoder beside it. R89 packs no operand into OP ("Operands are typed fields of the request"), so a request is its
OP byte and its fields, and there is no byte form of the operands to invent (log 3). -/

namespace Sys2Proof

/-- What a request turns out to be. -/
inductive Decoded where
  /-- one of the twelve operations, well-formed -/
  | instr (i : Instr)
  /-- a reserved OP (R90): executed, with status IllegalOperation -/
  | reserved (op : Byte)
  /-- refused at the interface (R92, R204) -/
  | rejected (why : RejectReason)
  deriving DecidableEq, Repr

/-- Checks (b) and (d) of R92 on a non-optional integer operand of width `w`. -/
def needInt (name : OperandName) (w : Nat) : Option Nat → Except RejectReason (BitVec w)
  | none => .error (.missing name)
  | some v => if v < 2 ^ w then .ok (BitVec.ofNat w v) else .error (.tooWide name)

/-- Check (d) of R92 on an optional integer operand of width `w`. -/
def optInt (name : OperandName) (w : Nat) : Option Nat → Except RejectReason (Option (BitVec w))
  | none => .ok none
  | some v => if v < 2 ^ w then .ok (some (BitVec.ofNat w v)) else .error (.tooWide name)

/-- Check (b) of R92 on a byte-list operand. -/
def needBytes (name : OperandName) : Option (List Byte) → Except RejectReason (List Byte)
  | none => .error (.missing name)
  | some l => .ok l

/-- The one-bit `kind` operand (R88): 0 is CMD, 1 is RESP, anything else is too wide. -/
def needKind : Option Nat → Except RejectReason Kind
  | none => .error (.missing .kind)
  | some 0 => .ok .cmd
  | some 1 => .ok .resp
  | some _ => .error (.tooWide .kind)

/-- The value of the `kind` field for each kind (R88). -/
def Kind.toNat : Kind → Nat
  | .cmd => 0
  | .resp => 1

/-- OP from its family and function (R89): `OP[7:4]` and `OP[3:0]`. -/
def opByte (family function : BitVec 4) : Byte := family ++ function

/-- The OP value of each operation (R89's map). -/
def Instr.opcode : Instr → Byte
  | .setTimeout _ => opByte 0 1
  | .getTimeout => opByte 0 2
  | .mkDeadline _ => opByte 0 3
  | .csum _ => opByte 1 0
  | .buildCommand _ _ _ => opByte 1 1
  | .decodeCommand _ => opByte 1 2
  | .validateChecksum _ _ => opByte 1 3
  | .checkFrame _ _ => opByte 1 4
  | .decodeResponse _ => opByte 1 5
  | .sendFrame _ _ => opByte 2 0
  | .seekFrameStart => opByte 2 1
  | .receiveFrame _ => opByte 2 2

/-- The operand fields that the row of this OP names, read with checks (b) and (d) of R92; `none` for a reserved OP
(R90: 0x00, 0x04 to 0x0F, 0x16 to 0x1F, 0x23 to 0xFF). Fields the row does not name are not looked at (log 4). -/
def readOperands (r : Request) : Option (Except RejectReason Instr) :=
  match r.op.toNat with
  | 0x01 => some do return .setTimeout (← needInt .t 32 r.t)
  | 0x02 => some (.ok .getTimeout)
  | 0x03 => some do return .mkDeadline (← optInt .t 32 r.t)
  | 0x10 => some do return .csum (← needBytes .span r.span)
  | 0x11 => some do
      return .buildCommand (← optInt .cid 8 r.cid) (← needBytes .payload r.payload) (← optInt .dev 16 r.dev)
  | 0x12 => some do return .decodeCommand (← needBytes .f r.f)
  | 0x13 => some do return .validateChecksum (← needKind r.kind) (← needBytes .f r.f)
  | 0x14 => some do return .checkFrame (← needKind r.kind) (← needBytes .f r.f)
  | 0x15 => some do return .decodeResponse (← needBytes .f r.f)
  | 0x20 => some do return .sendFrame (← needBytes .buf r.buf) (← needInt .dl 32 r.dl)
  | 0x21 => some (.ok .seekFrameStart)
  | 0x22 => some do return .receiveFrame (← needInt .dl 32 r.dl)
  | _ => none

/-- Reading a request: operands first (checks (b) and (d)), then lengths (check (c)). -/
def decode (r : Request) : Decoded :=
  match readOperands r with
  | none => .reserved r.op
  | some (.error why) => .rejected why
  | some (.ok i) =>
    match i.check with
    | none => .instr i
    | some why => .rejected why

/-- The request that presents an operation: OP from R89's map, each operand in its own field. -/
def encode (i : Instr) : Request :=
  match i with
  | .setTimeout t => { op := i.opcode, t := some t.toNat }
  | .getTimeout => { op := i.opcode }
  | .mkDeadline t => { op := i.opcode, t := t.map (·.toNat) }
  | .csum span => { op := i.opcode, span := some span }
  | .buildCommand cid payload dev =>
      { op := i.opcode, cid := cid.map (·.toNat), payload := some payload, dev := dev.map (·.toNat) }
  | .decodeCommand f => { op := i.opcode, f := some f }
  | .validateChecksum kind f => { op := i.opcode, kind := some kind.toNat, f := some f }
  | .checkFrame kind f => { op := i.opcode, kind := some kind.toNat, f := some f }
  | .decodeResponse f => { op := i.opcode, f := some f }
  | .sendFrame buf dl => { op := i.opcode, buf := some buf, dl := some dl.toNat }
  | .seekFrameStart => { op := i.opcode }
  | .receiveFrame dl => { op := i.opcode, dl := some dl.toNat }

/-- The request of a table word: its OP byte, with every operand the row requires all zeros (log 3): integers 0, lists of
fixed length filled with zeros, lists of free length empty, optional operands absent. -/
def tableRequest (op : Byte) : Request :=
  let frame := List.replicate (if op = 0x15 then Config.respLen else Config.cmdLen) (0 : Byte)
  { op := op, t := if op = 0x01 then some 0 else none, dl := some 0, kind := some 0, span := some [],
    payload := some (List.replicate Config.cmdPayloadLen 0), f := some frame, buf := some [] }

/-- The host's question: the instruction the decoder reads from a table word (8 bits in every row of the table). -/
def decodeTableWord (nbits w : Nat) : Option Instr :=
  if nbits = 8 ∧ w < 2 ^ 8 then
    match decode (tableRequest (BitVec.ofNat 8 w)) with
    | .instr i => some i
    | .reserved _ => none
    | .rejected _ => none
  else none

end Sys2Proof
end

