-- ==== Sys2Proof/Machine/State.lean ====
section
/-! DEFINITION. Every piece of state 10_state.md gives the block or lets it touch, as plain data, its reset value
(70_reset_and_hazards.md R240, R241), and the reasons a step of the model can stop. -/

namespace Sys2Proof.Machine

/-- The status codes of 30_encoding.md R91; their numbers are `Status.code` (Flags.lean). -/
inductive Status where
  | ok
  | transportWriteTimeout
  | transportReadTimeout
  | checksumMismatch
  /-- reserved for the Command API, never produced (60_exceptions.md R217) -/
  | responseCorrelationMismatch
  /-- reserved for the Command API, never produced (R217) -/
  | invalidArgument
  | delimiterMismatch
  | illegalOperation
  deriving DecidableEq, Repr, Inhabited

/-- The typed outputs of an operation (10_state.md R24; 30_encoding.md R89, column "outputs"). -/
inductive Outputs where
  /-- no output beyond the status -/
  | none
  /-- GET_TIMEOUT -/
  | timeout (t : Word)
  /-- MK_DEADLINE -/
  | deadline (dl : Word)
  /-- CSUM -/
  | checksum (c : Byte)
  /-- BUILD_COMMAND: a 19-byte frame -/
  | command (f : List Byte)
  /-- DECODE_COMMAND -/
  | commandFields (cid : Byte) (payload : List Byte) (dev : Half) (cs : Byte)
  /-- VALIDATE_CHECKSUM -/
  | verdict (ok : Bool)
  /-- DECODE_RESPONSE -/
  | responseFields (rid : Byte) (payload : List Byte) (dev w0 w1 : Half) (cs : Byte)
  /-- SEND_FRAME -/
  | sent (k : Byte)
  /-- SEEK_FRAME_START -/
  | found (found : Bool)
  /-- RECEIVE_FRAME, status OK: a 10-byte frame -/
  | received (f : List Byte)
  deriving DecidableEq, Repr, Inhabited

/-- The result record (10_state.md R24). -/
structure ResultRecord where
  status : Status
  outputs : Outputs
  deriving DecidableEq, Repr, Inhabited

/-- One entry of the event history (10_state.md R29): an issue, a result record, or a primitive call of 00_scope.md R9
with its arguments and results. -/
inductive Event where
  | issue (i : Instr)
  /-- the issue of a reserved OP (30_encoding.md R90) -/
  | issueReserved (op : Byte)
  | result (r : ResultRecord)
  | avail (n : Nat)
  | peek (b : Byte)
  | readByte (b : Byte)
  | readExactly (n : Nat) (bytes : List Byte)
  | write (buf : List Byte) (n : Nat) (k : Nat)
  | now (t : Word)
  | yield
  deriving DecidableEq, Repr, Inhabited

/-- The point reached in the pseudocode of a blocking operation (10_state.md R26): the primitive call to be made next, or
the return to be made next. -/
inductive Phase where
  /-- SEND_FRAME: `Write(buf, n)` -/
  | write
  /-- SEND_FRAME and RECEIVE_FRAME: `Yield()` after a failed attempt (41_transport.md R163) -/
  | yield
  /-- SEND_FRAME and RECEIVE_FRAME: `Now()` and the deadline test (R163) -/
  | clock
  /-- `seek_body`: `Avail()` (R165) -/
  | seekAvail
  /-- `seek_body`: `Peek()` -/
  | seekPeek
  /-- `seek_body`: `ReadByte()`, the byte is discarded -/
  | seekDrop
  /-- RECEIVE_FRAME: `Avail()` after a head was found (R166) -/
  | countAvail
  /-- RECEIVE_FRAME: `ReadExactly(10)` -/
  | take
  /-- SEND_FRAME: `return (OK, k)` -/
  | retSent
  /-- SEND_FRAME: `return (TransportWriteTimeout, 0)` -/
  | retWriteTimeout
  /-- SEEK_FRAME_START: `return (OK, found)` -/
  | retFound (found : Bool)
  /-- RECEIVE_FRAME: `return (OK, f)` -/
  | retFrame
  /-- RECEIVE_FRAME: `return (TransportReadTimeout)` -/
  | retReadTimeout
  deriving DecidableEq, Repr, Inhabited

/-- The hidden state of a blocking operation in progress (10_state.md R26). -/
structure Transient where
  /-- `op`, with its operands -/
  op : Instr
  /-- `dl`, the latched deadline; SEEK_FRAME_START has none -/
  dl : Option Word
  /-- `phase` -/
  phase : Phase
  /-- `buf`, RECEIVE_FRAME's 10 bytes once read -/
  buf : List Byte
  /-- `k`, SEND_FRAME's last write count -/
  k : Nat
  deriving DecidableEq, Repr, Inhabited

/-- The reason held by the fault mark (10_state.md R30; 60_exceptions.md R202, R205). -/
inductive FaultReason where
  | reentrantIssue
  | transportContract
  deriving DecidableEq, Repr, Inhabited

/-- The parameter CLOCK_WRAP (60_exceptions.md R211). -/
inductive ClockWrap where
  | forbidden
  | allowed
  deriving DecidableEq, Repr, Inhabited

/-- The machine: the block, the external state it touches, and the inputs of the run (INVENTORY.md, "State"). -/
structure State where
  /-- TIMEOUT_MS (10_state.md R22) -/
  timeoutMs : Word
  /-- BUSY (R23) -/
  busy : Bool
  /-- the operation in progress (R26) -/
  transient : Option Transient
  /-- the result record delivered by the last step, if it was a return (R24; log 17) -/
  result : Option ResultRecord
  /-- the event history, oldest first (R29) -/
  history : List Event
  /-- the fault mark (R30) -/
  faultMark : Option FaultReason
  /-- RXQ, oldest byte first (R27) -/
  rxq : List Byte
  /-- TXLOG, oldest byte first (R27) -/
  txlog : List Byte
  /-- the last value the clock returned (R28; 60_exceptions.md R211 `t_prev`) -/
  clock : Word
  /-- CLOCK_WRAP, a parameter of the run (R211; log 11) -/
  clockWrap : ClockWrap
  /-- whose turn it is, next turn first; an input (20_memory.md R61; log 1) -/
  schedule : List Turn
  /-- ClockOracle's next draws; an input (00_scope.md R7; log 10) -/
  clockSteps : List Nat
  /-- WriteOracle's next draws; an input (R7; log 12) -/
  writeCounts : List Nat
  /-- how many bytes the next `ReadExactly` calls deliver, for a transport weaker than 20_memory.md R58; an input (log 14) -/
  deliveries : List Nat
  /-- how many free values were drawn; the model's own counter (log 15) -/
  draws : Nat
  /-- a foreign agent touched the transport while an operation ran, so that every later result of the run is unconstrained;
  the model's own mark (20_memory.md R68, 93_implementation_defined.md I5; log 16) -/
  ownershipBroken : Bool
  deriving DecidableEq, Repr, Inhabited

/-- The machine right after reset (70_reset_and_hazards.md R240). The spec gives no value for `rxq`, `txlog` and `clock`
(R241): log 9 names the ones taken here. -/
def State.reset : State where
  timeoutMs := Config.timeoutDefault
  busy := false
  transient := none
  result := none
  history := []
  faultMark := none
  rxq := []
  txlog := []
  clock := 0
  clockWrap := .forbidden
  schedule := []
  clockSteps := []
  writeCounts := []
  deliveries := []
  draws := 0
  ownershipBroken := false

end Sys2Proof.Machine

namespace Sys2Proof.Config

/-- What the machine holds after a step of which the spec constrains nothing (93_implementation_defined.md I5; log 16). It
stands here, and not in Config.lean, because its type is State. -/
opaque anyState : Nat → Sys2Proof.Machine.State

end Sys2Proof.Config

namespace Sys2Proof.Machine

/-- Why a step of the model stops for good. The faults of the spec (60_exceptions.md R200) are not here: they set
`State.faultMark` in a next state. -/
inductive Fault where
  /-- Raised by a block turn in a state with BUSY = 1 and no operation in progress, which no run reaches (log 19). Safe. -/
  | noOperationInProgress
  /-- Raised by a blocking operation whose transient state holds a point that is not in its pseudocode, or lacks its
  deadline, which no run reaches (log 19). Safe. -/
  | pointOutsideOperation
  deriving DecidableEq, Repr

/-- Why the model gives a request no step. -/
inductive Refusal where
  /-- an instruction that has no meaning yet: no arm of Dispatch.lean raises it. Safe. -/
  | notModelled (mnemonic : String)
  /-- Raised by Machine/Turn.lean for a malformed request, and by every meaning for an ill-formed operation: refused at the
  interface, before the block sees it, with no trace (60_exceptions.md R204; log 5). Safe. -/
  | malformed (why : RejectReason)
  deriving DecidableEq, Repr

/-- The outcomes of one step of this machine. -/
abbrev Outcome := Host.Outcome State Fault Refusal

end Sys2Proof.Machine
end

