-- ==== Sys2Proof/Machine/Operands.lean ====
section
/-! DEFINITION. Operand forms: bytes of 16-bit values (00_scope.md R8), the fields of a frame by byte offset
(30_encoding.md R80 to R83), the defaults of optional operands (R89), and the checksum function (40_codec.md R120). -/

namespace Sys2Proof.Machine

/-- `lo8(v) = v[7:0]` (00_scope.md R8). -/
def lo8 (v : Half) : Byte := v.extractLsb' 0 8

/-- `hi8(v) = v[15:8]` (R8). -/
def hi8 (v : Half) : Byte := v.extractLsb' 8 8

/-- `le16(lo, hi) = zext_16(lo) + 256 * zext_16(hi)` (R8). -/
def le16 (lo hi : Byte) : Half := lo.setWidth 16 + 256#16 * hi.setWidth 16

/-- `f[i]` (R8). Every offset used lies inside a well-formed frame. -/
def byteAt (f : List Byte) (i : Nat) : Byte := f.getD i 0

/-- `f[a..b]`, both ends included (R8). -/
def slice (f : List Byte) (a b : Nat) : List Byte := (f.drop a).take (b + 1 - a)

/-- `csum(span)`: a 16-bit accumulator, truncated to the low 8 bits (40_codec.md R120). -/
def csum (span : List Byte) : Byte :=
  (span.foldl (fun (acc : Half) b => acc + b.setWidth 16) 0).extractLsb' 0 8

/-- The checksum span of a frame of length `L`: offsets 2 to `L-3` (30_encoding.md R82). -/
def checksumSpan (L : Nat) (f : List Byte) : List Byte := slice f 2 (L - 3)

/-- The device id of a frame of length `L`: `le16(f[L-4], f[L-3])` (R83). -/
def deviceId (L : Nat) (f : List Byte) : Half := le16 (byteAt f (L - 4)) (byteAt f (L - 3))

/-- The payload of a frame of length `L`: offsets 2 to `L-5` (R82). -/
def framePayload (L : Nat) (f : List Byte) : List Byte := slice f 2 (L - 5)

/-- BUILD_COMMAND's `cid`: absent means 0xB4 (R89). -/
def cidOrDefault (cid : Option Byte) : Byte := cid.getD Config.hostCmdId

/-- BUILD_COMMAND's `dev`: absent means 0xFFFF (R89). -/
def devOrDefault (dev : Option Half) : Half := dev.getD Config.broadcastId

/-- MK_DEADLINE's `t`: absent means TIMEOUT_MS (R89). -/
def timeoutOrRegister (t : Option Word) (timeoutMs : Word) : Word := t.getD timeoutMs

/-- The 19 bytes of a command frame (30_encoding.md R80, 40_codec.md R122). -/
def commandFrame (cid : Byte) (payload : List Byte) (dev : Half) : List Byte :=
  [Config.head, cid] ++ payload ++ [lo8 dev, hi8 dev] ++ [csum (payload ++ [lo8 dev, hi8 dev]), Config.tail]

end Sys2Proof.Machine
end

