-- ==== Sys2Proof/Machine/Flags.lean ====
section
/-! DEFINITION. The block has no flags (10_state.md R24: "No flag is set as a side effect of any operation"). Its analogue
of condition codes is the status of the result record; this file computes the statuses and verdicts. -/

namespace Sys2Proof.Machine

/-- The number of each status (30_encoding.md R91). -/
def Status.code : Status → Byte
  | .ok => 0x00
  | .transportWriteTimeout => 0x01
  | .transportReadTimeout => 0x02
  | .checksumMismatch => 0x03
  | .responseCorrelationMismatch => 0x04
  | .invalidArgument => 0x05
  | .delimiterMismatch => 0x06
  | .illegalOperation => 0x07

/-- `csum(f[2..L-3]) == f[L-2]` (40_codec.md R124). -/
def checksumMatches (kind : Kind) (f : List Byte) : Bool :=
  csum (checksumSpan (Config.frameLen kind) f) == byteAt f (Config.frameLen kind - 2)

/-- `f[0] == 0xAA and f[L-1] == 0xAB` (R125). -/
def delimitersMatch (kind : Kind) (f : List Byte) : Bool :=
  byteAt f 0 == Config.head && byteAt f (Config.frameLen kind - 1) == Config.tail

/-- CHECK_FRAME's status: the delimiters are tested first (R125; 60_exceptions.md R207 (d)). -/
def frameStatus (kind : Kind) (f : List Byte) : Status :=
  if !delimitersMatch kind f then .delimiterMismatch
  else if !checksumMatches kind f then .checksumMismatch
  else .ok

/-- The deadline test `t <u dl`: unsigned and strict (41_transport.md R163). -/
def beforeDeadline (t dl : Word) : Bool := t.ult dl

/-- A clock read `t_prev +_32 δ` (60_exceptions.md R211). Under `forbidden` only draws that do not wrap are admitted: a
larger draw is taken as the largest admitted one (log 10). -/
def clockAfter (wrap : ClockWrap) (prev : Word) (delta : Nat) : Word :=
  match wrap with
  | .forbidden => BitVec.ofNat 32 (min (prev.toNat + delta) (2 ^ 32 - 1))
  | .allowed => prev + BitVec.ofNat 32 delta

end Sys2Proof.Machine
end

