-- ==== Sys2Proof/Machine/Ops.lean ====
section
/-! DEFINITION. The shared operations: the primitives of 00_scope.md R9 over the transport and the clock, raising a fault
(60_exceptions.md R200, R202, R205), the BUSY bracket of an operation (10_state.md R23), and block reset
(70_reset_and_hazards.md R240, R241). -/

namespace Sys2Proof.Machine

/-! ## History, fault mark, result -/

/-- Append one event to the history (10_state.md R29). -/
def State.log (e : Event) (s : State) : State := { s with history := s.history ++ [e] }

/-- The fault mark is set (R30). -/
def State.faulted (s : State) : Bool := s.faultMark.isSome

/-- Raise a fault: the mark records the first fault and its reason (R30; 60_exceptions.md R200). The operation returns
nothing; BUSY and the transient state stay as they are (log 7). -/
def State.raise (reason : FaultReason) (s : State) : State :=
  { s with faultMark := s.faultMark.or (some reason) }

/-- Return from an operation: the result record is delivered and recorded, BUSY returns to 0, and the transient state is
discarded (R23, R24, R26, R29). -/
def State.finish (r : ResultRecord) (s : State) : State :=
  { s with busy := false, transient := none, result := some r, history := s.history ++ [.result r] }

/-- The result record is not kept (R24): the next step no longer shows it (log 17). -/
def State.dropResult (s : State) : State := { s with result := none }

/-! ## Primitives of the transport and the clock -/

/-- `Avail() -> n`: the number of bytes in RXQ (20_memory.md R55). -/
def State.primAvail (s : State) : Nat × State := (s.rxq.length, s.log (.avail s.rxq.length))

/-- What a primitive did: answered within its contract, or broke it. -/
inductive Answer (α : Type) where
  | kept (value : α) (s : State)
  | broken (s : State)

/-- `Peek() -> b`: the front byte, without a side effect (R56). On an empty stream the contract is broken (60_exceptions.md
R205), and the byte answered is a free value (log 14). -/
def State.primPeek (s : State) : Answer Byte :=
  match s.rxq with
  | b :: _ => .kept b (s.log (.peek b))
  | [] => .broken { s.log (.peek (Config.breachByte s.draws 0)) with draws := s.draws + 1 }

/-- `ReadByte() -> b`: the front byte, which is consumed (R57). On an empty stream the contract is broken (R205). -/
def State.primReadByte (s : State) : Answer Byte :=
  match s.rxq with
  | b :: rest => .kept b { s.log (.readByte b) with rxq := rest }
  | [] => .broken { s.log (.readByte (Config.breachByte s.draws 0)) with draws := s.draws + 1 }

/-- How many bytes the transport delivers for a `ReadExactly(n)`: the listed number, or all (R58; log 14). -/
def State.drawDelivery (n : Nat) (s : State) : Nat × State :=
  match s.deliveries with
  | d :: ds => (d, { s with deliveries := ds })
  | [] => (n, s)

/-- `ReadExactly(n)`: the first `n` bytes, in stream order, which are consumed (R58). If the transport delivers fewer, or
RXQ no longer holds `n` bytes, the contract is broken (60_exceptions.md R205): the bytes delivered and what is left in RXQ
are free values (log 14). -/
def State.primReadExactly (n : Nat) (s : State) : Answer (List Byte) :=
  match s.drawDelivery n with
  | (d, s1) =>
    if n ≤ d ∧ n ≤ s1.rxq.length then
      .kept (s1.rxq.take n) { s1.log (.readExactly n (s1.rxq.take n)) with rxq := s1.rxq.drop n }
    else
      let count := if d < n then d else Config.breachCount s1.draws % n
      .broken { s1.log (.readExactly n ((List.range count).map (Config.breachByte s1.draws))) with
        rxq := Config.breachRxq s1.draws, draws := s1.draws + 1 }

/-- WriteOracle: the listed draw, or a free one within `0..n` (00_scope.md R7; log 12). -/
def State.drawWriteCount (n : Nat) (s : State) : Nat × State :=
  match s.writeCounts with
  | k :: ks => (k, { s with writeCounts := ks })
  | [] => (Config.freeWriteCount s.draws % (n + 1), { s with draws := s.draws + 1 })

/-- `Write(buf, n) -> k` with `n = len(buf)`: the transport accepts the prefix `buf[0..k-1]` (20_memory.md R59). If it
answers `k > n` the contract is broken (60_exceptions.md R205), and what it has accepted is a free value (log 13). -/
def State.primWrite (buf : List Byte) (s : State) : Nat × Answer Nat :=
  match s.drawWriteCount buf.length with
  | (k, s1) =>
    let s2 := s1.log (.write buf buf.length k)
    if k ≤ buf.length then (k, .kept k { s2 with txlog := s2.txlog ++ buf.take k })
    else (k, .broken { s2 with txlog := s2.txlog ++ Config.breachAccepted s2.draws, draws := s2.draws + 1 })

/-- ClockOracle: the listed draw, or a free one (00_scope.md R7; log 10). -/
def State.drawClockStep (s : State) : Nat × State :=
  match s.clockSteps with
  | d :: ds => (d, { s with clockSteps := ds })
  | [] => (Config.freeClockStep s.draws, { s with draws := s.draws + 1 })

/-- `Now() -> t`: a read of the clock (60_exceptions.md R211). -/
def State.primNow (s : State) : Word × State :=
  match s.drawClockStep with
  | (delta, s1) =>
    let t := clockAfter s1.clockWrap s1.clock delta
    (t, { s1.log (.now t) with clock := t })

/-- `Yield()`: recorded, and no block state changes (R213). -/
def State.primYield (s : State) : State := s.log .yield

/-! ## The bracket of an operation -/

/-- The beginning of an operation: BUSY becomes 1 and the issue is recorded (10_state.md R23, R29). -/
def State.start (i : Instr) (s : State) : State := { s with busy := true, history := s.history ++ [.issue i] }

/-- An operation that returns in the step that accepts it: its body computes the result record from the state in which
BUSY is 1 and the issue is recorded. -/
def runAtomic (i : Instr) (body : State → ResultRecord × State) (s : State) : Outcome :=
  match i.check with
  | some why => .refused (.malformed why)
  | none =>
    if s.faulted then .next s
    else if s.busy then .next (s.raise .reentrantIssue)
    else
      match body (s.start i) with
      | (r, s1) => .next (s1.finish r)

/-- Accept a blocking operation: BUSY becomes 1, the issue is recorded, and the deadline is latched (10_state.md R23, R26,
R29; 41_transport.md R170). No bytes have been read and no count has been answered yet: the model holds `buf` empty and
`k` 0 until then, where the spec says nothing (log 27). -/
def State.accept (i : Instr) (dl : Option Word) (first : Phase) (s : State) : State :=
  { s.start i with transient := some { op := i, dl := dl, phase := first, buf := [], k := 0 } }

/-- One step of a blocking operation `i`: accepted if the block is idle; advanced by one point of its pseudocode if it is
the operation in progress; a request while another operation runs otherwise (60_exceptions.md R202; log 20). -/
def runBlocking (i : Instr) (dl : Option Word) (first : Phase) (advance : Transient → State → Outcome) (s : State) :
    Outcome :=
  match i.check with
  | some why => .refused (.malformed why)
  | none =>
    if s.faulted then .next s
    else if s.busy then
      match s.transient with
      | some tr => if tr.op = i then advance tr s else .next (s.raise .reentrantIssue)
      | none => .next (s.raise .reentrantIssue)
    else .next (s.accept i dl first)

/-- Move the operation in progress to another point of its pseudocode. -/
def State.goto (tr : Transient) (p : Phase) (s : State) : State := { s with transient := some { tr with phase := p } }

/-! ## Parts shared by the blocking operations -/

/-- The `Yield()` after a failed attempt; the clock read is next (41_transport.md R163). -/
def advanceYield (tr : Transient) (s : State) : Outcome := .next (s.primYield.goto tr .clock)

/-- The clock read after a failed attempt, and the deadline test: another attempt, or the timeout (R163). -/
def advanceClock (retry expired : Phase) (tr : Transient) (s : State) : Outcome :=
  match tr.dl with
  | none => .fault .pointOutsideOperation
  | some dl =>
    match s.primNow with
    | (t, s1) => .next (s1.goto tr (if beforeDeadline t dl then retry else expired))

/-- `seek_body`, first call: `Avail()`; an empty stream ends the seek without a head (R165). -/
def advanceSeekAvail (atEnd : Bool → Phase) (tr : Transient) (s : State) : Outcome :=
  match s.primAvail with
  | (n, s1) => .next (s1.goto tr (if n = 0 then atEnd false else .seekPeek))

/-- `seek_body`, second call: `Peek()`; a head ends the seek (R165). -/
def advanceSeekPeek (atEnd : Bool → Phase) (tr : Transient) (s : State) : Outcome :=
  match s.primPeek with
  | .kept b s1 => .next (s1.goto tr (if b = Config.head then atEnd true else .seekDrop))
  | .broken s1 => .next (s1.raise .transportContract)

/-- `seek_body`, third call: `ReadByte()`; the byte is discarded and the loop begins again (R165). -/
def advanceSeekDrop (tr : Transient) (s : State) : Outcome :=
  match s.primReadByte with
  | .kept _ s1 => .next (s1.goto tr .seekAvail)
  | .broken s1 => .next (s1.raise .transportContract)

/-! ## Block reset -/

/-- Block reset: every piece of block state takes its reset value (70_reset_and_hazards.md R240); RXQ, TXLOG and the clock
stay as they are (R241). The inputs of the run go on. -/
def State.blockReset (s : State) : State :=
  { s with
    timeoutMs := Config.timeoutDefault, busy := false, transient := none, result := none, history := [],
    faultMark := none, ownershipBroken := false }

end Sys2Proof.Machine
end

