-- ==== Sys2Proof/Machine/Codec.lean ====
section
/-! DEFINITION. The codec family (OP 0x10 to 0x15): 40_codec.md R121 to R126. Every operation is pure (R129): its body
leaves the state as it is, and its result depends only on its operands. -/

namespace Sys2Proof.Machine

/-- CSUM `span` (R121): the checksum of a list of bytes. -/
def execCsum (span : List Byte) (s : State) : Outcome :=
  runAtomic (.csum span) (fun s1 => (⟨.ok, .checksum (csum span)⟩, s1)) s

/-- BUILD_COMMAND `cid, payload, dev` (R122): the 19-byte command frame. -/
def execBuildCommand (cid : Option Byte) (payload : List Byte) (dev : Option Half) (s : State) : Outcome :=
  runAtomic (.buildCommand cid payload dev)
    (fun s1 => (⟨.ok, .command (commandFrame (cidOrDefault cid) payload (devOrDefault dev))⟩, s1)) s

/-- DECODE_COMMAND `f` (R123): the fields of any 19 bytes, without validation. -/
def execDecodeCommand (f : List Byte) (s : State) : Outcome :=
  runAtomic (.decodeCommand f)
    (fun s1 =>
      (⟨.ok, .commandFields (byteAt f 1) (framePayload Config.cmdLen f) (deviceId Config.cmdLen f) (byteAt f 17)⟩, s1)) s

/-- VALIDATE_CHECKSUM `kind, f` (R124): the verdict is `ok`, the status is always OK. -/
def execValidateChecksum (kind : Kind) (f : List Byte) (s : State) : Outcome :=
  runAtomic (.validateChecksum kind f) (fun s1 => (⟨.ok, .verdict (checksumMatches kind f)⟩, s1)) s

/-- CHECK_FRAME `kind, f` (R125): delimiters, then checksum. -/
def execCheckFrame (kind : Kind) (f : List Byte) (s : State) : Outcome :=
  runAtomic (.checkFrame kind f) (fun s1 => (⟨frameStatus kind f, .none⟩, s1)) s

/-- DECODE_RESPONSE `f` (R126): the fields of any 10 bytes and the two payload words, without validation. -/
def execDecodeResponse (f : List Byte) (s : State) : Outcome :=
  runAtomic (.decodeResponse f)
    (fun s1 =>
      (⟨.ok, .responseFields (byteAt f 1) (framePayload Config.respLen f) (deviceId Config.respLen f)
        (le16 (byteAt f 2) (byteAt f 3)) (le16 (byteAt f 4) (byteAt f 5)) (byteAt f 8)⟩, s1)) s

end Sys2Proof.Machine
end

