-- ==== Sys2Proof/Machine/Timeout.lean ====
section
/-! DEFINITION. The configuration and time family (OP 0x01 to 0x03): 41_transport.md R160 to R162. Each operation is one
step (log 18). -/

namespace Sys2Proof.Machine

/-- SET_TIMEOUT `t` (R160): TIMEOUT_MS takes the value `t`. -/
def execSetTimeout (t : Word) (s : State) : Outcome :=
  runAtomic (.setTimeout t) (fun s1 => (⟨.ok, .none⟩, { s1 with timeoutMs := t })) s

/-- GET_TIMEOUT (R161): returns TIMEOUT_MS. -/
def execGetTimeout (s : State) : Outcome :=
  runAtomic .getTimeout (fun s1 => (⟨.ok, .timeout s1.timeoutMs⟩, s1)) s

/-- MK_DEADLINE `[t]` (R162): one clock read, and `dl = start +_32 T`. -/
def execMkDeadline (t : Option Word) (s : State) : Outcome :=
  runAtomic (.mkDeadline t)
    (fun s1 =>
      match s1.primNow with
      | (start, s2) => (⟨.ok, .deadline (start + timeoutOrRegister t s2.timeoutMs)⟩, s2)) s

end Sys2Proof.Machine
end

