-- ==== Sys2Proof/Machine/Transport.lean ====
section
/-! DEFINITION. The transport family (OP 0x20 to 0x22): 41_transport.md R164 to R166. Each of these operations runs over
several steps (10_state.md R26, 20_memory.md R60): the first `exec` of the operation accepts it, every further one makes the
primitive call or the return at the point its transient state holds. -/

namespace Sys2Proof.Machine

/-- SEND_FRAME's `Write(buf, n)` (R164): any `k > 0` is success; `k = 0` is a failed attempt, followed by a yield. -/
def advanceWrite (buf : List Byte) (tr : Transient) (s : State) : Outcome :=
  match s.primWrite buf with
  | (_, .kept k s1) => .next (s1.goto { tr with k := k } (if 0 < k then .retSent else .yield))
  | (k, .broken s1) => .next ((s1.goto { tr with k := k } .write).raise .transportContract)

/-- One point of SEND_FRAME's pseudocode (R164). -/
def advanceSendFrame (buf : List Byte) (tr : Transient) (s : State) : Outcome :=
  match tr.phase with
  | .write => advanceWrite buf tr s
  | .yield => advanceYield tr s
  | .clock => advanceClock .write .retWriteTimeout tr s
  | .retSent => .next (s.finish ⟨.ok, .sent (BitVec.ofNat 8 tr.k)⟩)
  | .retWriteTimeout => .next (s.finish ⟨.transportWriteTimeout, .sent 0⟩)
  | .seekAvail | .seekPeek | .seekDrop | .countAvail | .take | .retFound _ | .retFrame | .retReadTimeout =>
    .fault .pointOutsideOperation

/-- SEND_FRAME `buf, dl` (R164): send bytes under a deadline. -/
def execSendFrame (buf : List Byte) (dl : Word) (s : State) : Outcome :=
  runBlocking (.sendFrame buf dl) (some dl) .write (advanceSendFrame buf) s

/-- One point of SEEK_FRAME_START's pseudocode (R165). -/
def advanceSeekFrameStart (tr : Transient) (s : State) : Outcome :=
  match tr.phase with
  | .seekAvail => advanceSeekAvail .retFound tr s
  | .seekPeek => advanceSeekPeek .retFound tr s
  | .seekDrop => advanceSeekDrop tr s
  | .retFound found => .next (s.finish ⟨.ok, .found found⟩)
  | .write | .yield | .clock | .countAvail | .take | .retSent | .retWriteTimeout | .retFrame | .retReadTimeout =>
    .fault .pointOutsideOperation

/-- SEEK_FRAME_START (R165): discard bytes up to the next head. It has no deadline and no yield. -/
def execSeekFrameStart (s : State) : Outcome :=
  runBlocking .seekFrameStart none .seekAvail advanceSeekFrameStart s

/-- Where RECEIVE_FRAME goes on after `seek_body` (R166): with a head it counts the bytes, without one the attempt failed. -/
def afterSeek (found : Bool) : Phase := if found then .countAvail else .yield

/-- RECEIVE_FRAME's `Avail()` behind a found head (R166): 10 bytes are read, fewer are a failed attempt. -/
def advanceCountAvail (tr : Transient) (s : State) : Outcome :=
  match s.primAvail with
  | (n, s1) => .next (s1.goto tr (if Config.respLen ≤ n then .take else .yield))

/-- RECEIVE_FRAME's `ReadExactly(10)` (R166): the bytes are held in `buf` until the return (10_state.md R25). -/
def advanceTake (tr : Transient) (s : State) : Outcome :=
  match s.primReadExactly Config.respLen with
  | .kept bytes s1 => .next (s1.goto { tr with buf := bytes } .retFrame)
  | .broken s1 => .next (s1.raise .transportContract)

/-- One point of RECEIVE_FRAME's pseudocode (R166). -/
def advanceReceiveFrame (tr : Transient) (s : State) : Outcome :=
  match tr.phase with
  | .seekAvail => advanceSeekAvail afterSeek tr s
  | .seekPeek => advanceSeekPeek afterSeek tr s
  | .seekDrop => advanceSeekDrop tr s
  | .countAvail => advanceCountAvail tr s
  | .take => advanceTake tr s
  | .yield => advanceYield tr s
  | .clock => advanceClock .seekAvail .retReadTimeout tr s
  | .retFrame => .next (s.finish ⟨.ok, .received tr.buf⟩)
  | .retReadTimeout => .next (s.finish ⟨.transportReadTimeout, .none⟩)
  | .write | .retSent | .retWriteTimeout | .retFound _ => .fault .pointOutsideOperation

/-- RECEIVE_FRAME `dl` (R166): receive one response frame under a deadline. -/
def execReceiveFrame (dl : Word) (s : State) : Outcome :=
  runBlocking (.receiveFrame dl) (some dl) .seekAvail advanceReceiveFrame s

end Sys2Proof.Machine
end

