-- ==== Sys2Proof/Machine/Dispatch.lean ====
section
/-! DEFINITION. Each operation's meaning. -/

namespace Sys2Proof.Machine

def exec (i : Instr) (s : State) : Host.Outcome State Fault Refusal :=
  match i with
  | .setTimeout t => Sys2Proof.Machine.execSetTimeout t s
  | .getTimeout => Sys2Proof.Machine.execGetTimeout s
  | .mkDeadline t => Sys2Proof.Machine.execMkDeadline t s
  | .csum span => Sys2Proof.Machine.execCsum span s
  | .buildCommand cid payload dev => Sys2Proof.Machine.execBuildCommand cid payload dev s
  | .decodeCommand f => Sys2Proof.Machine.execDecodeCommand f s
  | .validateChecksum kind f => Sys2Proof.Machine.execValidateChecksum kind f s
  | .checkFrame kind f => Sys2Proof.Machine.execCheckFrame kind f s
  | .decodeResponse f => Sys2Proof.Machine.execDecodeResponse f s
  | .sendFrame buf dl => Sys2Proof.Machine.execSendFrame buf dl s
  | .seekFrameStart => Sys2Proof.Machine.execSeekFrameStart s
  | .receiveFrame dl => Sys2Proof.Machine.execReceiveFrame dl s

end Sys2Proof.Machine
end

