-- ==== Sys2Proof/Machine/Reserved.lean ====
section
/-! DEFINITION. A request with a reserved OP (30_encoding.md R90, 60_exceptions.md R203). It has no row in the opcode table
and so no constructor of `Instr`. -/

namespace Sys2Proof.Machine

/-- A reserved OP returns IllegalOperation: no primitive call, and no state change but its issue and result in the history
(R90). It is a request like any other: ignored by a faulted block, and ReentrantIssue comes first (R207). -/
def execReserved (op : Byte) (s : State) : Outcome :=
  if s.faulted then .next s
  else if s.busy then .next (s.raise .reentrantIssue)
  else .next ((s.log (.issueReserved op)).finish ⟨.illegalOperation, .none⟩)

end Sys2Proof.Machine
end

