-- ==== Sys2Proof/Machine/Turn.lean ====
section
/-! DEFINITION. What each agent's turn does to the machine (60_exceptions.md R214, 20_memory.md R60 and R61): the host's
requests, the block's steps, the environment, block reset, and a foreign agent on the transport. -/

namespace Sys2Proof.Machine

/-- A step of a run in which a foreign agent touched the transport while an operation ran: "every later result is
unconstrained" (93_implementation_defined.md I5), so the block, its history and the transport hold free values. The
parameter and the inputs of the run, and the mark, go on (log 16). -/
def State.unconstrained (s : State) : State :=
  { Config.anyState s.draws with
    clockWrap := s.clockWrap, schedule := s.schedule, clockSteps := s.clockSteps, writeCounts := s.writeCounts,
    deliveries := s.deliveries, draws := s.draws + 1, ownershipBroken := true }

/-- A request that is not refused: a faulted block ignores it (10_state.md R30); while BUSY is 1 it raises ReentrantIssue
(60_exceptions.md R202, R207 (b)); otherwise it runs, and its result is unconstrained in a run that a foreign agent has
touched (93 I5; log 16). -/
def State.serve (run : State → Outcome) (s : State) : Outcome :=
  if s.faulted then .next s
  else if s.busy then .next (s.raise .reentrantIssue)
  else if s.ownershipBroken then .next s.unconstrained
  else run s

/-- A request arrives (R89). A malformed one is refused at the interface (R204), before anything else is looked at (R207
(a)). -/
def offer (r : Request) (s : State) : Outcome :=
  match decode r with
  | .rejected why => .refused (.malformed why)
  | .reserved op => s.serve (execReserved op)
  | .instr i => s.serve (exec i)

/-- The state in which the block has observed a broken contract of the transport, if its next call observes one: that call
raises TransportContract (60_exceptions.md R205). -/
def observeBreach (tr : Transient) (s : State) : Option State :=
  match exec tr.op s with
  | .next s1 => if s1.faultMark = some .transportContract then some s1 else none
  | .fault _ => none
  | .refused _ => none

/-- The block's turn: the operation in progress advances by one atomic step (20_memory.md R60). An idle or faulted block
does nothing (log 23). After a foreign agent touched the transport, a breach that the block observes is TransportContract
(70_reset_and_hazards.md R244), and otherwise everything is unconstrained (93 I5; log 16). -/
def blockTurn (s : State) : Outcome :=
  if s.faulted then .next s
  else if s.busy then
    if s.ownershipBroken then .next ((s.transient.bind (observeBreach · s)).getD s.unconstrained)
    else
      match s.transient with
      | none => .fault .noOperationInProgress
      | some tr => exec tr.op s
  else .next s

/-- A foreign agent leaves its mark only while an operation runs: the transport is the block's "for the duration of one
operation" (20_memory.md R68; log 16). -/
def State.markForeign (s : State) : State := { s with ownershipBroken := s.ownershipBroken || s.busy }

/-- One turn of the agent named. The bytes of a foreign writer enter TXLOG, as bytes the transport has accepted, whether an
operation runs or not: 10_state.md R27 says both that TXLOG lists every byte accepted and that only `Write` appends to it,
so this is the model's choice (log 26). -/
def takeTurn (turn : Turn) (s : State) : Outcome :=
  match turn with
  | .block => blockTurn s
  | .arrive bytes => .next { s with rxq := s.rxq ++ bytes }
  | .issue request => offer request s
  | .reset => .next s.blockReset
  | .foreignRead count => .next { s.markForeign with rxq := s.rxq.drop count }
  | .foreignWrite bytes => .next { s.markForeign with txlog := s.txlog ++ bytes }

/-- Whose turn it is: the next one listed, or a free one (log 1, log 2). -/
def State.nextTurn (s : State) : Turn × State :=
  match s.schedule with
  | turn :: rest => (turn, { s with schedule := rest })
  | [] => (Config.freeTurn s.draws, { s with draws := s.draws + 1 })

/-- The next turn of the run is this one. -/
def State.withTurn (turn : Turn) (s : State) : State := { s with schedule := turn :: s.schedule }

end Sys2Proof.Machine
end

