-- ==== Sys2Proof/Machine/Step.lean ====
section
/-! DEFINITION. One step of the machine: one turn of one agent. The result record of an earlier step is no longer shown
(10_state.md R24). -/

namespace Sys2Proof.Machine

/-- One step. -/
def step (s : State) : Host.Outcome State Fault Refusal :=
  match s.nextTurn with
  | (turn, s1) => takeTurn turn s1.dropResult

/-- The host presents, as the very next turn, the request of a table word (log 3, log 21). -/
def State.withFetchWord (s : State) (_nbits w : Nat) : State :=
  s.withTurn (.issue (tableRequest (BitVec.ofNat 8 w)))

end Sys2Proof.Machine
end

