-- ==== Sys2Proof/Safety.lean ====
section
/-! DEFINITION. What counts as a safe run, and the words the statements use: a block that is ready for a request, the
state a return leaves, an operation that runs alone, a host that respects R243, the invariant of the machine, and the
premises under which operations end (70_reset_and_hazards.md R251, R253). -/

namespace Sys2Proof.Machine

/-- The block is idle and its fault mark is clear: it accepts any request (70_reset_and_hazards.md R240). -/
def State.Ready (s : State) : Prop := s.faultMark = none ∧ s.busy = false

/-- A safe state: no fault of 60_exceptions.md R200 has been raised. -/
def State.Safe (s : State) : Prop := s.faultMark = none

/-- The host respects R243 in the next turn: no request is presented while an operation runs. -/
def State.Serialised (s : State) : Prop := ∀ r, s.nextTurn.1 = .issue r → s.busy = false

/-- No foreign agent touches the transport in the next turn (20_memory.md R68). -/
def State.Exclusive (s : State) : Prop :=
  (∀ n, s.nextTurn.1 ≠ .foreignRead n) ∧ (∀ bytes, s.nextTurn.1 ≠ .foreignWrite bytes)

/-- The state after operation `i` was issued in `s`, made the primitive calls `calls` and returned `r`, if it changed
nothing else. -/
def State.returned (s : State) (i : Instr) (calls : List Event) (r : ResultRecord) : State :=
  { s with busy := false, transient := none, result := some r, history := s.history ++ .issue i :: calls ++ [.result r] }

/-- Operation `i` makes `n` steps with no other agent's turn in between. -/
def execTimes (i : Instr) : Nat → State → Outcome
  | 0, s => .next s
  | n + 1, s =>
    match exec i s with
    | .next s1 => execTimes i n s1
    | .fault r => .fault r
    | .refused r => .refused r

/-- The successive values of clock reads that draw these advances (60_exceptions.md R211). -/
def clockReads (wrap : ClockWrap) : Word → List Nat → List Word
  | _, [] => []
  | prev, d :: ds => clockAfter wrap prev d :: clockReads wrap (clockAfter wrap prev d) ds

/-- `t` is the value of a clock read that draws `d` after a read of `prev` (R211). The last clause, a draw that R211 does not
serve, is the model's choice (log 10). -/
structure ClockValue (wrap : ClockWrap) (prev : Word) (d : Nat) (t : Word) : Prop where
  allowed : wrap = .allowed → t.toNat = (prev.toNat + d) % 2 ^ 32
  forbidden : wrap = .forbidden → prev.toNat + d < 2 ^ 32 → t.toNat = prev.toNat + d
  clamped : wrap = .forbidden → 2 ^ 32 ≤ prev.toNat + d → t.toNat = 2 ^ 32 - 1

/-- The bytes that arrive during these turns, in order. -/
def arrivedBytes : List Turn → List Byte
  | [] => []
  | .arrive bytes :: rest => bytes ++ arrivedBytes rest
  | _ :: rest => arrivedBytes rest

/-- The primitive calls by which `seek_body` discards these bytes, with `n` more bytes behind them (R165). -/
def discardCalls (n : Nat) : List Byte → List Event
  | [] => []
  | b :: junk => [.avail (junk.length + 1 + n), .peek b, .readByte b] ++ discardCalls n junk

/-- An event that is a primitive call (00_scope.md R9). -/
def Event.isCall : Event → Bool
  | .issue _ | .issueReserved _ | .result _ => false
  | .avail _ | .peek _ | .readByte _ | .readExactly _ _ | .write _ _ _ | .now _ | .yield => true

/-- A request that fails check (b), (c) or (d) of 30_encoding.md R92 for the row of its OP in R89, written from those two
rules and not from the decoder. -/
def MalformedRequest (r : Request) : Prop :=
  let badInt (w : Nat) (x : Option Nat) : Prop := ∃ v, x = some v ∧ 2 ^ w ≤ v
  let noInt (w : Nat) (x : Option Nat) : Prop := x = none ∨ badInt w x
  let notLen (n : Nat) (x : Option (List Byte)) : Prop := ∀ l, x = some l → l.length ≠ n
  let notUpTo (n : Nat) (x : Option (List Byte)) : Prop := ∀ l, x = some l → n < l.length
  let badFrame : Prop :=
    noInt 1 r.kind ∨ r.f = none ∨ (r.kind = some 0 ∧ notLen 19 r.f) ∨ (r.kind = some 1 ∧ notLen 10 r.f)
  (r.op = 0x01 ∧ noInt 32 r.t) ∨ (r.op = 0x03 ∧ badInt 32 r.t) ∨ (r.op = 0x10 ∧ notUpTo 255 r.span) ∨
  (r.op = 0x11 ∧ (badInt 8 r.cid ∨ notLen 13 r.payload ∨ badInt 16 r.dev)) ∨ (r.op = 0x12 ∧ notLen 19 r.f) ∨
  (r.op = 0x13 ∧ badFrame) ∨ (r.op = 0x14 ∧ badFrame) ∨ (r.op = 0x15 ∧ notLen 10 r.f) ∨
  (r.op = 0x20 ∧ (notUpTo 255 r.buf ∨ noInt 32 r.dl)) ∨ (r.op = 0x22 ∧ noInt 32 r.dl)

/-- An OP value that is reserved (R90's list). -/
def ReservedOp (op : Byte) : Prop :=
  op.toNat = 0 ∨ (0x04 ≤ op.toNat ∧ op.toNat ≤ 0x0F) ∨ (0x16 ≤ op.toNat ∧ op.toNat ≤ 0x1F) ∨ 0x23 ≤ op.toNat

/-- A codec operation: family 1 of R89. -/
def IsCodec (i : Instr) : Prop := i.opcode.toNat / 16 = 1

/-- The operations that run over several steps (10_state.md R26). -/
def IsBlocking (i : Instr) : Prop := i.opcode.toNat / 16 = 2

/-- Operation `i` is in progress, unfaulted, with this transient state. -/
def State.Running (s : State) (tr : Transient) : Prop := s.faultMark = none ∧ s.busy = true ∧ s.transient = some tr

/-- Operation `i`, issued in this state, completes: it returns the result and changes nothing but its issue and its result
in the history. -/
def Returns (i : Instr) (r : ResultRecord) : Prop := ∀ s : State, s.Ready → exec i s = .next (s.returned i [] r)

/-- The deadline operand of an operation (41_transport.md R164, R166). -/
def deadlineOf : Instr → Option Word
  | .sendFrame _ dl => some dl
  | .receiveFrame dl => some dl
  | .setTimeout _ | .getTimeout | .mkDeadline _ | .csum _ | .buildCommand _ _ _ | .decodeCommand _
  | .validateChecksum _ _ | .checkFrame _ _ | .decodeResponse _ | .seekFrameStart => none

/-- The points of an operation's pseudocode (R164 to R166). -/
def pointOf : Instr → Phase → Bool
  | .sendFrame _ _, p => (p matches .write | .yield | .clock | .retSent | .retWriteTimeout)
  | .seekFrameStart, p => (p matches .seekAvail | .seekPeek | .seekDrop | .retFound _)
  | .receiveFrame _, p =>
    (p matches .seekAvail | .seekPeek | .seekDrop | .countAvail | .take | .yield | .clock | .retFrame | .retReadTimeout)
  | .setTimeout _, _ | .getTimeout, _ | .mkDeadline _, _ | .csum _, _ | .buildCommand _ _ _, _ | .decodeCommand _, _
  | .validateChecksum _ _, _ | .checkFrame _ _, _ | .decodeResponse _, _ => false

/-- The transient state belongs to its operation: a well-formed blocking operation at a point of its own pseudocode, with
its own deadline latched (10_state.md R26; 41_transport.md R170), holding what its next return delivers. -/
structure Transient.Sound (tr : Transient) : Prop where
  wellFormed : tr.op.WellFormed
  point : pointOf tr.op tr.phase = true
  deadline : tr.dl = deadlineOf tr.op
  sent : tr.phase = .retSent → ∃ buf dl, tr.op = .sendFrame buf dl ∧ 0 < tr.k ∧ tr.k ≤ buf.length
  frame : tr.phase = .retFrame → tr.buf.length = Config.respLen ∧ tr.buf.head? = some Config.head

/-- The next call of the operation in progress breaks a contract of the transport (60_exceptions.md R205): a `Write` whose
listed count is more than the buffer, a `Peek` or `ReadByte` on an empty stream, a `ReadExactly(10)` that delivers fewer than
ten bytes because the stream holds fewer or because a short delivery is listed. -/
def BreachAt (tr : Transient) (s : State) : Prop :=
  match tr.phase with
  | .write => ∃ buf dl k ks, tr.op = .sendFrame buf dl ∧ s.writeCounts = k :: ks ∧ buf.length < k
  | .seekPeek | .seekDrop => s.rxq = []
  | .take => s.rxq.length < 10 ∨ ∃ d ds, s.deliveries = d :: ds ∧ d < 10
  | .yield | .clock | .seekAvail | .countAvail | .retSent | .retWriteTimeout | .retFound _ | .retFrame | .retReadTimeout =>
    False

/-- What the receive stream holds at a point of the pseudocode, so that the preconditions of 20_memory.md R56 to R58 hold
at every call (R56: "the precondition always holds when the block calls it"). -/
def StreamAt : Phase → List Byte → Prop
  | .seekPeek, rxq => rxq ≠ []
  | .seekDrop, rxq => ∃ b rest, rxq = b :: rest ∧ b ≠ Config.head
  | .countAvail, rxq => rxq.head? = some Config.head
  | .take, rxq => rxq.head? = some Config.head ∧ Config.respLen ≤ rxq.length
  | .retFound true, rxq => rxq.head? = some Config.head
  | _, _ => True

/-- The invariant of the machine. Unless a foreign agent has touched the transport while an operation ran, after which nothing
is constrained (93_implementation_defined.md I5): BUSY is 1 exactly while an operation is in progress (10_state.md R23, R26),
the transient state is sound, and in a run without fault the receive stream meets the precondition of the next call. -/
structure State.Inv (s : State) : Prop where
  bracket : s.ownershipBroken = false → s.busy = s.transient.isSome
  sound : s.ownershipBroken = false → ∀ tr, s.transient = some tr → tr.Sound
  stream : s.ownershipBroken = false → ∀ tr, s.transient = some tr → s.faultMark = none → StreamAt tr.phase s.rxq

/-! ## Runs, and the premises under which operations end (70_reset_and_hazards.md R251, R253) -/

/-- The state without the inputs of the run, which the environment may supply at any step boundary. -/
def State.withoutInputs (s : State) : State :=
  { s with schedule := [], clockSteps := [], writeCounts := [], deliveries := [], draws := 0 }

/-- An observation: the states of an endless run, each the next state of the one before it, with inputs supplied in
between. A turn that presents a malformed request has no next state (60_exceptions.md R204), so none of the turns does. -/
def IsRun (σ : Nat → State) : Prop := ∀ n, ∃ t, step (σ n) = .next t ∧ (σ (n + 1)).withoutInputs = t.withoutInputs

/-- Step `n` of the observation reads the clock and the read returns `t`. -/
def ReadsClock (σ : Nat → State) (n : Nat) (t : Word) : Prop :=
  ∃ events, (σ (n + 1)).history = (σ n).history ++ events ∧ .now t ∈ events

/-- P1, clock progress (R251): if the block keeps reading the clock, then for every `d` and from every point on some read
returns a value that is not below `d`. -/
def ClockProgress (σ : Nat → State) : Prop :=
  (∀ n, ∃ m t, n ≤ m ∧ ReadsClock σ m t) → ∀ (d : Word) (n : Nat), ∃ m t, n ≤ m ∧ ReadsClock σ m t ∧ d.toNat ≤ t.toNat

/-- `seek_body` is running (41_transport.md R165). -/
def State.Seeking (s : State) : Prop :=
  ∃ tr, s.transient = some tr ∧ (tr.phase = .seekAvail ∨ tr.phase = .seekPeek ∨ tr.phase = .seekDrop)

/-- P2, finite bursts (R251): a `seek_body` that never ends sees only finitely many arrivals. -/
def FiniteBursts (σ : Nat → State) : Prop :=
  ∀ n, (∀ m, n ≤ m → (σ m).Seeking) → ∃ last, ∀ m bytes, last ≤ m → (σ m).nextTurn.1 = .arrive bytes → bytes = []

/-- P3, yields return (R251): after finitely many turns of other agents the block moves again. The model asks it at every
point, because other agents may move at every step boundary (log 1, log 25). -/
def YieldsReturn (σ : Nat → State) : Prop := ∀ n, ∃ m, n ≤ m ∧ (σ m).nextTurn.1 = .block

/-- By state `m`, the operation issued or in progress at state `n` has ended (R253): BUSY stayed 1 until a step returned the
result record and BUSY was 0, or until the fault mark was set. A block reset returns no result record and ends nothing. -/
def OperationEnded (σ : Nat → State) (n m : Nat) : Prop :=
  ∃ k, n < k ∧ k ≤ m ∧ (∀ j, n < j → j < k → (σ j).busy = true) ∧
    (((σ k).busy = false ∧ ∃ r, (σ k).result = some r) ∨ (σ k).faultMark ≠ none)

/-- By state `m`, the run of a host program has ended (R253): its last request, presented at turn `n`, has ended. -/
def ProgramEnded (σ : Nat → State) (n m : Nat) : Prop :=
  (∃ r, (σ n).nextTurn.1 = .issue r) ∧ (∀ k r, n < k → (σ k).nextTurn.1 ≠ .issue r) ∧ OperationEnded σ n m

end Sys2Proof.Machine
end

