-- ==== Sys2Proof/Certificates/Slice0/Obligations.lean ====
section
/-! DEFINITION. The statements for the provers. Each docstring names the rule of spec/ it formalises; OBLIGATIONS.json
gives the same in words. -/

open Sys2Proof Sys2Proof.Machine

/-! ## Reset, steps and requests -/

/-- R240, R241: block reset, as a turn of its own and from any state, gives every piece of block state its reset value, and
leaves RXQ, TXLOG and the clock as they are; the block is then idle and executes any request that is not refused. -/
def Obligations.BlockResetValues : Prop :=
  ∀ s : State, ∃ t : State, step (s.withTurn .reset) = .next t ∧
    t.timeoutMs = 1000 ∧ t.busy = false ∧ t.transient = none ∧ t.result = none ∧ t.history = [] ∧ t.faultMark = none ∧
    t.rxq = s.rxq ∧ t.txlog = s.txlog ∧ t.clock = s.clock ∧
    (∀ r i, decode r = .instr i → step (t.withTurn (.issue r)) = exec i t) ∧
    (∀ r op, decode r = .reserved op → step (t.withTurn (.issue r)) = execReserved op t)

/-- R240: the machine right after reset is ready, has the values of the table, and meets the invariant of the machine. -/
def Obligations.ResetMeetsInvariant : Prop :=
  State.reset.Inv ∧ State.reset.Ready ∧ State.reset.timeoutMs = 1000 ∧ State.reset.transient = none ∧
    State.reset.history = [] ∧ State.reset.result = none

/-- The step of a request turn is `exec` of the decoded operation at that state, with no result record shown, on a block
that is ready, in a run that no foreign agent has touched. -/
def Obligations.StepRunsDecodedRequest : Prop :=
  ∀ (s : State) (r : Request) (i : Instr), s.Ready → s.ownershipBroken = false → decode r = .instr i →
    step (s.withTurn (.issue r)) = exec i s.dropResult

/-- The step of a block turn is `exec` of the operation in progress, in a run that no foreign agent has touched. -/
def Obligations.StepAdvancesOperationInProgress : Prop :=
  ∀ (s : State) (tr : Transient), s.Running tr → s.ownershipBroken = false →
    step (s.withTurn .block) = exec tr.op s.dropResult

/-- A block turn of an idle block, and of a faulted one, changes nothing but the result record, which is not kept. -/
def Obligations.BlockTurnWithoutOperation : Prop :=
  ∀ s : State, (s.busy = false ∨ s.faultMark ≠ none) → step (s.withTurn .block) = .next s.dropResult

/-- R61: bytes that arrive go to the tail of RXQ, at any step boundary, and nothing else changes. -/
def Obligations.ArrivalAppendsToReceiveStream : Prop :=
  ∀ (s : State) (bytes : List Byte),
    step (s.withTurn (.arrive bytes)) = .next { s.dropResult with rxq := s.rxq ++ bytes }

/-- R89: for every row of the opcode map, a request written out from the row, its OP bit by bit, reads as the operation it
stands for. -/
def Obligations.WrittenRequestsDecode : Prop :=
  decode { op := 0b00000001, t := some 0xFFFFFFFF } = .instr (.setTimeout 0xFFFFFFFF) ∧
  decode { op := 0b00000010 } = .instr .getTimeout ∧
  decode { op := 0b00000011 } = .instr (.mkDeadline none) ∧
  decode { op := 0b00010000, span := some [1, 2, 255] } = .instr (.csum [1, 2, 255]) ∧
  decode { op := 0b00010001, payload := some (4 :: List.replicate 12 0), dev := some 0xA160 } =
    .instr (.buildCommand none (4 :: List.replicate 12 0) (some 0xA160)) ∧
  decode { op := 0b00010010, f := some (0xAA :: List.replicate 17 7 ++ [0xAB]) } =
    .instr (.decodeCommand (0xAA :: List.replicate 17 7 ++ [0xAB])) ∧
  decode { op := 0b00010011, kind := some 0, f := some (0xAA :: List.replicate 17 7 ++ [0xAB]) } =
    .instr (.validateChecksum .cmd (0xAA :: List.replicate 17 7 ++ [0xAB])) ∧
  decode { op := 0b00010100, kind := some 1, f := some [0xAA, 0xC0, 0x7D, 0, 0x54, 1, 0x60, 0xA1, 0xD3, 0xAB] } =
    .instr (.checkFrame .resp [0xAA, 0xC0, 0x7D, 0, 0x54, 1, 0x60, 0xA1, 0xD3, 0xAB]) ∧
  decode { op := 0b00010101, f := some [0xAA, 0xC5, 2, 1, 1, 0, 0x60, 0xA1, 5, 0xAB] } =
    .instr (.decodeResponse [0xAA, 0xC5, 2, 1, 1, 0, 0x60, 0xA1, 5, 0xAB]) ∧
  decode { op := 0b00100000, buf := some [0xAA, 0xAB], dl := some 5000 } = .instr (.sendFrame [0xAA, 0xAB] 5000) ∧
  decode { op := 0b00100001 } = .instr .seekFrameStart ∧
  decode { op := 0b00100010, dl := some 6000 } = .instr (.receiveFrame 6000)

/-- Decoding the request that presents a well-formed operation gives the operation back, every operand at every value. -/
def Obligations.DecodeOfEncode : Prop :=
  ∀ i : Instr, i.WellFormed → decode (encode i) = .instr i

/-- Reading is sound: an operation that comes out of the decoder is well-formed, its OP is the one of the map, and the
request that presents it reads the same. -/
def Obligations.DecodedIsWellFormed : Prop :=
  ∀ (r : Request) (i : Instr), decode r = .instr i →
    i.WellFormed ∧ r.op = i.opcode ∧ decode (encode i) = decode r

/-- R92, R204: a request is refused, in every state, exactly when it misses an operand, has a byte list of the wrong length,
or an integer that does not fit. That a field which the row of its OP does not name never refuses a request, however wide
it is (the "only when" half), is the model's reading of R92 (log 4). -/
def Obligations.RefusedExactlyWhenMalformed : Prop :=
  ∀ (s : State) (r : Request), (∃ why, step (s.withTurn (.issue r)) = .refused (.malformed why)) ↔ MalformedRequest r

/-- `exec` of an operation that fails its length check is refused, with the name of the check, in every state. This is the
model's choice (log 5): R92 and R204 refuse at the interface, and such an operation never comes out of the decoder. -/
def Obligations.IllFormedOperationIsRefused : Prop :=
  ∀ (i : Instr) (why : RejectReason) (s : State), i.check = some why → exec i s = .refused (.malformed why)

/-- R90, R203: a reserved OP, whatever operand fields come with it, is executed and returns IllegalOperation; only the
history gains its issue and its result, no primitive call is made, and no other OP is reserved. That the issue records the OP
alone, whatever came with it, is the model's choice (log 6). -/
def Obligations.ReservedOpIsIllegalOperation : Prop :=
  ∀ (s : State) (r : Request), s.Ready → s.ownershipBroken = false →
    (ReservedOp r.op →
      step (s.withTurn (.issue r)) =
        .next { s.dropResult with
          result := some ⟨.illegalOperation, .none⟩, busy := false, transient := none,
          history := s.history ++ [.issueReserved r.op, .result ⟨.illegalOperation, .none⟩] }) ∧
    (¬ ReservedOp r.op → ∀ op, decode r ≠ .reserved op)

/-! ## Faults -/

/-- R202, R207 (b), (c): a request that is not refused and arrives while BUSY is 1 raises ReentrantIssue: the mark is set,
and nothing else of the block, the transport or the history changes. That BUSY and the transient state stay (log 7), and that
the request leaves no issue in the history (log 8), is the model's choice. -/
def Obligations.ReentrantRequestFaults : Prop :=
  ∀ (s : State) (r : Request), s.faultMark = none → s.busy = true → (∀ why, decode r ≠ .rejected why) →
    step (s.withTurn (.issue r)) = .next { s.dropResult with faultMark := some .reentrantIssue }

/-- R30, R200 (2): the fault mark is kept by every step but block reset, with its first reason, and the faulted block does
nothing more: its registers, its transient state and its history stay, and it returns no result. That BUSY and the transient
state stay as they are is the model's choice (log 7). -/
def Obligations.FaultMarkIsSticky : Prop :=
  ∀ (s s' : State) (reason : FaultReason), s.faultMark = some reason → step s = .next s' → s.nextTurn.1 ≠ .reset →
    s'.faultMark = some reason ∧ s'.result = none ∧ s'.timeoutMs = s.timeoutMs ∧ s'.busy = s.busy ∧
    s'.transient = s.transient ∧ s'.history = s.history ∧ s'.clock = s.clock

/-- R30: a faulted block ignores every request that is not refused. -/
def Obligations.FaultedBlockIgnoresRequests : Prop :=
  ∀ (s : State) (r : Request), s.faultMark ≠ none → (∀ why, decode r ≠ .rejected why) →
    step (s.withTurn (.issue r)) = .next s.dropResult

/-- R202, R205: what can raise a fault, in a run that no foreign agent has touched. ReentrantIssue comes only from a request
while BUSY is 1; TransportContract comes only from a block turn whose call breaks a contract: a listed count above the
buffer's length at `Write`, an empty stream at `Peek` or `ReadByte`, fewer than ten bytes or a short listed delivery at
`ReadExactly`. -/
def Obligations.FaultCauses : Prop :=
  ∀ (s s' : State) (reason : FaultReason), s.Inv → s.faultMark = none → s.ownershipBroken = false → step s = .next s' →
    s'.faultMark = some reason →
    (reason = .reentrantIssue ∧ s.busy = true ∧ ∃ r, s.nextTurn.1 = .issue r) ∨
    (reason = .transportContract ∧ s.busy = true ∧ s.nextTurn.1 = .block ∧
      ∃ tr, s.transient = some tr ∧ BreachAt tr s)

/-- Nothing stops that the spec lets run: in every state that meets the invariant, the next turn answers a next state, unless
it presents a malformed request. -/
def Obligations.EveryTurnProceeds : Prop :=
  ∀ s : State, s.Inv → (∃ s', step s = .next s') ∨ ∃ r, s.nextTurn.1 = .issue r ∧ MalformedRequest r

/-- R205: each breach of a transport contract raises TransportContract at that call. -/
def Obligations.ContractBreachesFault : Prop :=
  ∀ (s : State) (tr : Transient), s.Running tr → tr.op.WellFormed →
    (∀ buf dl k ks, tr.op = .sendFrame buf dl → tr.phase = .write → s.writeCounts = k :: ks → buf.length < k →
      ∃ s', exec tr.op s = .next s' ∧ s'.faultMark = some .transportContract ∧ s'.result = s.result ∧
        s'.history = s.history ++ [.write buf buf.length k]) ∧
    (∀ dl d ds, tr.op = .receiveFrame dl → tr.phase = .take → s.deliveries = d :: ds → d < 10 →
      ∃ s' bytes, exec tr.op s = .next s' ∧ s'.faultMark = some .transportContract ∧ s'.result = s.result ∧
        s'.history = s.history ++ [.readExactly 10 bytes] ∧ bytes.length = d) ∧
    (∀ dl, tr.op = .receiveFrame dl → tr.phase = .take → s.rxq.length < 10 →
      ∃ s', exec tr.op s = .next s' ∧ s'.faultMark = some .transportContract ∧ s'.result = s.result) ∧
    (∀ dl, (tr.op = .receiveFrame dl ∨ tr.op = .seekFrameStart) → tr.phase = .seekPeek → s.rxq = [] →
      ∃ s' b, exec tr.op s = .next s' ∧ s'.faultMark = some .transportContract ∧ s'.history = s.history ++ [.peek b]) ∧
    (∀ dl, (tr.op = .receiveFrame dl ∨ tr.op = .seekFrameStart) → tr.phase = .seekDrop → s.rxq = [] →
      ∃ s' b, exec tr.op s = .next s' ∧ s'.faultMark = some .transportContract ∧ s'.history = s.history ++ [.readByte b])

/-- R205, R56: in a run whose environment obeys the contracts, TransportContract cannot be raised: the preconditions hold at
every call. The premises are the invariant, no foreign agent, no short delivery listed next, and a write count within the
buffer. -/
def Obligations.ConformingEnvironmentNeverBreaksContract : Prop :=
  ∀ s s' : State, s.Inv → s.faultMark = none → s.ownershipBroken = false → (∀ d ∈ s.deliveries.head?, 10 ≤ d) →
    (∀ k ks tr buf dl, s.writeCounts = k :: ks → s.transient = some tr → tr.op = .sendFrame buf dl → k ≤ buf.length) →
    step s = .next s' → s'.faultMark ≠ some .transportContract

/-- 93 I5, R244: a foreign agent's read or write while an operation runs takes bytes from RXQ or adds bytes to TXLOG and marks
the run. After that, a block turn raises TransportContract exactly where its call observes a broken contract; every other
block turn, and every request to the idle block, leaves the model's free state, of which nothing can be proved ("any value",
read as log 16 says; that foreign bytes enter TXLOG is log 26). -/
def Obligations.ForeignAccessFaultsOrIsUnconstrained : Prop :=
  (∀ (s : State) (n : Nat), s.busy = true →
    step (s.withTurn (.foreignRead n)) =
      .next { s.dropResult with rxq := s.rxq.drop n, ownershipBroken := true }) ∧
  (∀ (s : State) (bytes : List Byte), s.busy = true →
    step (s.withTurn (.foreignWrite bytes)) =
      .next { s.dropResult with txlog := s.txlog ++ bytes, ownershipBroken := true }) ∧
  (∀ (s : State) (tr : Transient), s.Running tr → tr.Sound → s.ownershipBroken = true →
    (BreachAt tr s →
      step (s.withTurn .block) = exec tr.op s.dropResult ∧
        ∃ t, exec tr.op s.dropResult = .next t ∧ t.faultMark = some .transportContract) ∧
    (¬ BreachAt tr s → step (s.withTurn .block) = .next s.dropResult.unconstrained)) ∧
  (∀ (s : State) (r : Request), s.Ready → s.ownershipBroken = true → (∀ why, decode r ≠ .rejected why) →
    step (s.withTurn (.issue r)) = .next s.dropResult.unconstrained)

/-! ## Configuration and time -/

/-- R160: SET_TIMEOUT on a block that is ready; while BUSY is 1 it raises ReentrantIssue. That the fault changes nothing but
the mark (log 7), records no issue (log 8), and that `exec` while BUSY is 1 is a request (log 20), is the model's choice. -/
def Obligations.SetTimeoutWritesRegister : Prop :=
  ∀ t : Word, (encode (.setTimeout t)).op = 0x01 ∧
    (∀ s : State, s.Ready →
      exec (.setTimeout t) s = .next { s.returned (.setTimeout t) [] ⟨.ok, .none⟩ with timeoutMs := t }) ∧
    (∀ s : State, s.faultMark = none → s.busy = true →
      exec (.setTimeout t) s = .next { s with faultMark := some .reentrantIssue })

/-- R161: GET_TIMEOUT; after a block reset it returns 1000; while BUSY is 1 it raises ReentrantIssue. That the fault changes
nothing but the mark (log 7), records no issue (log 8), and that `exec` while BUSY is 1 is a request (log 20), is the model's
choice. -/
def Obligations.GetTimeoutReadsRegister : Prop :=
  (encode .getTimeout).op = 0x02 ∧
    (∀ s : State, s.Ready → exec .getTimeout s = .next (s.returned .getTimeout [] ⟨.ok, .timeout s.timeoutMs⟩)) ∧
    (∀ s : State, exec .getTimeout s.blockReset = .next (s.blockReset.returned .getTimeout [] ⟨.ok, .timeout 1000⟩)) ∧
    (∀ s : State, s.faultMark = none → s.busy = true →
      exec .getTimeout s = .next { s with faultMark := some .reentrantIssue })

/-- R162: MK_DEADLINE makes exactly one clock read and returns `start + T` modulo 2^32, with the register's value for an
absent operand. The clock draw is the listed one, or a free value. -/
def Obligations.MkDeadlineAddsTimeout : Prop :=
  ∀ (t : Option Word) (s : State), s.Ready →
    ∃ delta rest n, (∀ d ds, s.clockSteps = d :: ds → delta = d ∧ rest = ds ∧ n = s.draws) ∧
      let start := clockAfter s.clockWrap s.clock delta
      let timeout := t.getD s.timeoutMs
      exec (.mkDeadline t) s =
        .next { s.returned (.mkDeadline t) [.now start]
                  ⟨.ok, .deadline (BitVec.ofNat 32 (start.toNat + timeout.toNat))⟩ with
          clock := start, clockSteps := rest, draws := n }

/-- R22: TIMEOUT_MS is written only by SET_TIMEOUT, with its operand, and by block reset, in a run that no foreign agent has
touched. -/
def Obligations.OnlySetTimeoutWritesRegister : Prop :=
  ∀ s s' : State, s.ownershipBroken = false → step s = .next s' →
    s'.timeoutMs = s.timeoutMs ∨ (s.nextTurn.1 = .reset ∧ s'.timeoutMs = 1000) ∨
    (∃ r t, s.nextTurn.1 = .issue r ∧ decode r = .instr (.setTimeout t) ∧ s'.timeoutMs = t)

/-- R211: under CLOCK_WRAP = forbidden every clock read is at least the one before it, in a run that no foreign agent has
touched, and no step changes CLOCK_WRAP. -/
def Obligations.ClockNeverGoesBackward : Prop :=
  ∀ s s' : State, step s = .next s' →
    s'.clockWrap = s.clockWrap ∧
      (s.ownershipBroken = false → s.clockWrap = .forbidden → s.clock.toNat ≤ s'.clock.toNat)

/-- R211: the value of a clock read with a listed draw `d`. Under `allowed` it is the value before it plus `d`, modulo 2^32;
under `forbidden` it is that sum where the sum fits 32 bits. A draw that R211 does not serve under `forbidden` gives 2^32 - 1,
which is the model's choice (log 10). It holds of the function the other statements name, and of the reads of MK_DEADLINE,
SEND_FRAME and RECEIVE_FRAME. -/
def Obligations.ClockReadAddsDraw : Prop :=
  (∀ (wrap : ClockWrap) (prev : Word) (d : Nat), ClockValue wrap prev d (clockAfter wrap prev d)) ∧
  (∀ (s : State) (t : Option Word) (d : Nat) (ds : List Nat), s.Ready → s.clockSteps = d :: ds →
    ∃ s' r, exec (.mkDeadline t) s = .next s' ∧ ClockValue s.clockWrap s.clock d s'.clock ∧ s'.clockSteps = ds ∧
      s'.history = s.history ++ [.issue (.mkDeadline t), .now s'.clock, .result r]) ∧
  (∀ (s : State) (tr : Transient) (d : Nat) (ds : List Nat), s.Running tr → tr.Sound → tr.phase = .clock →
    s.clockSteps = d :: ds →
    ∃ s', exec tr.op s = .next s' ∧ ClockValue s.clockWrap s.clock d s'.clock ∧ s'.clockSteps = ds ∧
      s'.history = s.history ++ [.now s'.clock])

/-- R7, R211: with no listed draw the clock read of SEND_FRAME and RECEIVE_FRAME advances the clock by a free value, and the
step is otherwise that of a listed draw. -/
def Obligations.FreeClockStepAdvancesClock : Prop :=
  ∀ (s : State) (tr : Transient) (dl : Word), s.Running tr → tr.phase = .clock → tr.dl = some dl → s.clockSteps = [] →
    ∃ delta, let t := clockAfter s.clockWrap s.clock delta
      (∀ buf, buf.length ≤ 255 → tr.op = .sendFrame buf dl →
        exec tr.op s =
          .next { s with
            draws := s.draws + 1, clock := t, history := s.history ++ [.now t],
            transient := some { tr with phase := if t.toNat < dl.toNat then .write else .retWriteTimeout } }) ∧
      (tr.op = .receiveFrame dl →
        exec tr.op s =
          .next { s with
            draws := s.draws + 1, clock := t, history := s.history ++ [.now t],
            transient := some { tr with phase := if t.toNat < dl.toNat then .seekAvail else .retReadTimeout } })

/-! ## Codec -/

/-- R120: the checksum of any byte list is the sum of its bytes modulo 256, whatever their order; the 16-bit accumulator does
not wrap for 257 bytes or fewer, and never shows in the result. -/
def Obligations.ChecksumIsSumModulo256 : Prop :=
  ∀ span : List Byte,
    (csum span).toNat = (span.map (·.toNat)).sum % 256 ∧
    (∀ other : List Byte, span.Perm other → csum other = csum span) ∧
    (span.length ≤ 257 →
      (span.foldl (fun (acc : Half) b => acc + b.setWidth 16) 0).toNat = (span.map (·.toNat)).sum)

/-- R121: CSUM returns the sum modulo 256 for every span the encoding admits. -/
def Obligations.CsumReturnsSum : Prop :=
  ∀ span : List Byte, span.length ≤ 255 →
    Returns (.csum span) ⟨.ok, .checksum (BitVec.ofNat 8 (span.map (·.toNat)).sum)⟩

/-- R122: the 19 bytes BUILD_COMMAND returns, offset by offset, for present and absent `cid` and `dev`. -/
def Obligations.BuildCommandLaysOutFrame : Prop :=
  ∀ (cid : Option Byte) (payload : List Byte) (dev : Option Half), payload.length = 13 →
    ∃ f : List Byte, Returns (.buildCommand cid payload dev) ⟨.ok, .command f⟩ ∧ f.length = 19 ∧
      f[0]? = some 0xAA ∧ f[1]? = some (cid.getD 0xB4) ∧ (f.drop 2).take 13 = payload ∧
      f[15]? = some (BitVec.ofNat 8 ((dev.getD 0xFFFF).toNat % 256)) ∧
      f[16]? = some (BitVec.ofNat 8 ((dev.getD 0xFFFF).toNat / 256)) ∧
      f[17]? = some (BitVec.ofNat 8 (((f.drop 2).take 15).map (·.toNat)).sum) ∧ f[18]? = some 0xAB

/-- R123: the fields DECODE_COMMAND returns, for any 19 bytes. -/
def Obligations.DecodeCommandReadsFields : Prop :=
  ∀ (h cid lo hi cs t : Byte) (payload : List Byte), payload.length = 13 →
    Returns (.decodeCommand ([h, cid] ++ payload ++ [lo, hi, cs, t]))
      ⟨.ok, .commandFields cid payload (BitVec.ofNat 16 (lo.toNat + 256 * hi.toNat)) cs⟩

/-- R124: VALIDATE_CHECKSUM compares the checksum byte with the sum of the span, for both kinds, whatever the head, the
identifier and the tail are. -/
def Obligations.ValidateChecksumComparesSum : Prop :=
  ∀ (kind : Kind) (h c cs t : Byte) (span : List Byte), span.length = Config.frameLen kind - 4 →
    Returns (.validateChecksum kind ([h, c] ++ span ++ [cs, t]))
      ⟨.ok, .verdict (decide ((span.map (·.toNat)).sum % 256 = cs.toNat))⟩

/-- R125, R207 (d): CHECK_FRAME tests the delimiters, then the checksum, and never the identifier. -/
def Obligations.CheckFrameTestsDelimitersFirst : Prop :=
  ∀ (kind : Kind) (h c cs t : Byte) (span : List Byte), span.length = Config.frameLen kind - 4 →
    Returns (.checkFrame kind ([h, c] ++ span ++ [cs, t]))
      ⟨if ¬ (h = 0xAA ∧ t = 0xAB) then .delimiterMismatch
       else if (span.map (·.toNat)).sum % 256 ≠ cs.toNat then .checksumMismatch else .ok, .none⟩

/-- R126: the fields and the two little-endian words DECODE_RESPONSE returns, for any 10 bytes. -/
def Obligations.DecodeResponseReadsFields : Prop :=
  ∀ h rid p0 p1 p2 p3 lo hi cs t : Byte,
    Returns (.decodeResponse [h, rid, p0, p1, p2, p3, lo, hi, cs, t])
      ⟨.ok, .responseFields rid [p0, p1, p2, p3] (BitVec.ofNat 16 (lo.toNat + 256 * hi.toNat))
        (BitVec.ofNat 16 (p0.toNat + 256 * p1.toNat)) (BitVec.ofNat 16 (p2.toNat + 256 * p3.toNat)) cs⟩

/-- R129: the six codec operations are pure: each completes in one step, makes no primitive call, reads and writes no
register, and returns a result that depends only on its operands. -/
def Obligations.CodecOperationsArePure : Prop :=
  ∀ i : Instr, IsCodec i → i.WellFormed → ∃ r : ResultRecord, Returns i r

/-- R127: a built command decodes to its operands and passes both checks; and a command frame that passes CHECK_FRAME is
rebuilt from its decoded fields. -/
def Obligations.CommandRoundTrip : Prop :=
  (∀ (cid : Byte) (payload : List Byte) (dev : Half), payload.length = 13 →
    ∃ (f : List Byte) (cs : Byte), Returns (.buildCommand (some cid) payload (some dev)) ⟨.ok, .command f⟩ ∧
      f[17]? = some cs ∧ Returns (.decodeCommand f) ⟨.ok, .commandFields cid payload dev cs⟩ ∧
      Returns (.checkFrame .cmd f) ⟨.ok, .none⟩ ∧ Returns (.validateChecksum .cmd f) ⟨.ok, .verdict true⟩) ∧
  (∀ f : List Byte, f.length = 19 → Returns (.checkFrame .cmd f) ⟨.ok, .none⟩ →
    ∃ cid payload dev cs, Returns (.decodeCommand f) ⟨.ok, .commandFields cid payload dev cs⟩ ∧
      Returns (.buildCommand (some cid) payload (some dev)) ⟨.ok, .command f⟩)

/-- R128: one flipped bit at offset `i` of a valid frame of either kind. In the span or the checksum byte it is always
detected; at the identifier it never is; at the head or the tail only CHECK_FRAME detects it. -/
def Obligations.SingleBitFlipDetection : Prop :=
  ∀ (kind : Kind) (f : List Byte) (i j : Nat) (b : Byte), f.length = Config.frameLen kind → j < 8 → f[i]? = some b →
    Returns (.checkFrame kind f) ⟨.ok, .none⟩ →
    let f' := f.set i (b ^^^ (1#8 <<< j))
    let delimiter := i = 0 ∨ i = Config.frameLen kind - 1
    Returns (.validateChecksum kind f') ⟨.ok, .verdict (decide (delimiter ∨ i = 1))⟩ ∧
    Returns (.checkFrame kind f')
      ⟨if delimiter then .delimiterMismatch else if i = 1 then .ok else .checksumMismatch, .none⟩

/-! ## SEND_FRAME -/

/-- R164, R163, R59: every point of SEND_FRAME's pseudocode, with the frame of each step: the acceptance, the write (with
the listed count), the yield, the deadline test with a listed draw, and both returns. That `k` is 0 and `buf` empty from the
acceptance on is the model's choice (log 27). -/
def Obligations.SendFramePoints : Prop :=
  ∀ (buf : List Byte) (dl : Word), buf.length ≤ 255 →
    (∀ s : State, s.Ready →
      exec (.sendFrame buf dl) s =
        .next { s with
          busy := true, history := s.history ++ [.issue (.sendFrame buf dl)],
          transient := some ⟨.sendFrame buf dl, some dl, .write, [], 0⟩ }) ∧
    ∀ (s : State) (tr : Transient), s.Running tr → tr.op = .sendFrame buf dl → tr.dl = some dl →
      (∀ k ks, tr.phase = .write → s.writeCounts = k :: ks → k ≤ buf.length →
        exec (.sendFrame buf dl) s =
          .next { s with
            writeCounts := ks, history := s.history ++ [.write buf buf.length k], txlog := s.txlog ++ buf.take k,
            transient := some { tr with k := k, phase := if k = 0 then .yield else .retSent } }) ∧
      (tr.phase = .yield →
        exec (.sendFrame buf dl) s =
          .next { s with history := s.history ++ [.yield], transient := some { tr with phase := .clock } }) ∧
      (∀ d ds, tr.phase = .clock → s.clockSteps = d :: ds →
        exec (.sendFrame buf dl) s =
          .next { s with
            clockSteps := ds, clock := clockAfter s.clockWrap s.clock d,
            history := s.history ++ [.now (clockAfter s.clockWrap s.clock d)],
            transient := some { tr with
              phase := if (clockAfter s.clockWrap s.clock d).toNat < dl.toNat then .write else .retWriteTimeout } }) ∧
      (tr.phase = .retSent →
        exec (.sendFrame buf dl) s =
          .next { s with
            busy := false, transient := none, result := some ⟨.ok, .sent (BitVec.ofNat 8 tr.k)⟩,
            history := s.history ++ [.result ⟨.ok, .sent (BitVec.ofNat 8 tr.k)⟩] }) ∧
      (tr.phase = .retWriteTimeout →
        exec (.sendFrame buf dl) s =
          .next { s with
            busy := false, transient := none, result := some ⟨.transportWriteTimeout, .sent 0⟩,
            history := s.history ++ [.result ⟨.transportWriteTimeout, .sent 0⟩] })

/-- R7, R59: with no listed count the write count is a free value within `0..n`, and the step is otherwise that of the
listed count. -/
def Obligations.FreeWriteCountStaysInRange : Prop :=
  ∀ (buf : List Byte) (dl : Word) (s : State) (tr : Transient), buf.length ≤ 255 → s.Running tr →
    tr.op = .sendFrame buf dl → tr.phase = .write → s.writeCounts = [] →
    ∃ k, k ≤ buf.length ∧
      exec (.sendFrame buf dl) s =
        .next { s with
          draws := s.draws + 1, history := s.history ++ [.write buf buf.length k], txlog := s.txlog ++ buf.take k,
          transient := some { tr with k := k, phase := if k = 0 then .yield else .retSent } }

/-- R164, R167: SEND_FRAME run alone whose writes fail `m` times, the clock staying below the deadline, and then accept `k`
bytes: status OK and `k`, the prefix sent, `m` yields and `m` clock reads, and nothing else changed. -/
def Obligations.SendFrameSucceedsOnLaterAttempt : Prop :=
  ∀ (s : State) (buf : List Byte) (dl : Word) (k : Nat) (ks steps ds : List Nat), s.Ready → buf.length ≤ 255 →
    0 < k → k ≤ buf.length → s.writeCounts = List.replicate steps.length 0 ++ k :: ks → s.clockSteps = steps ++ ds →
    (∀ t ∈ clockReads s.clockWrap s.clock steps, t.toNat < dl.toNat) →
    execTimes (.sendFrame buf dl) (3 * steps.length + 3) s =
      .next { s.returned (.sendFrame buf dl)
                ((clockReads s.clockWrap s.clock steps).flatMap
                    (fun t => [.write buf buf.length 0, .yield, .now t]) ++ [.write buf buf.length k])
                ⟨.ok, .sent (BitVec.ofNat 8 k)⟩ with
        writeCounts := ks, clockSteps := ds, txlog := s.txlog ++ buf.take k,
        clock := (clockReads s.clockWrap s.clock steps).getLastD s.clock }

/-- R164, R167, R201: SEND_FRAME run alone whose writes all return 0: it ends at the first clock read that is not below the
deadline, after `m` attempts, `m` yields and `m` clock reads, with TransportWriteTimeout and 0; TXLOG is unchanged. -/
def Obligations.SendFrameTimesOut : Prop :=
  ∀ (s : State) (buf : List Byte) (dl : Word) (steps ks ds : List Nat) (last : Nat), s.Ready → buf.length ≤ 255 →
    s.writeCounts = List.replicate (steps.length + 1) 0 ++ ks → s.clockSteps = steps ++ last :: ds →
    (∀ t ∈ clockReads s.clockWrap s.clock steps, t.toNat < dl.toNat) →
    let reads := clockReads s.clockWrap s.clock (steps ++ [last])
    dl.toNat ≤ (reads.getLastD 0).toNat →
    execTimes (.sendFrame buf dl) (3 * steps.length + 5) s =
      .next { s.returned (.sendFrame buf dl)
                (reads.flatMap (fun t => [.write buf buf.length 0, .yield, .now t])) ⟨.transportWriteTimeout, .sent 0⟩ with
        writeCounts := ks, clockSteps := ds, clock := reads.getLastD 0 }

/-- R164 "Empty buffer": whatever the environment does, in a run that no foreign agent has touched, a SEND_FRAME of no bytes that returns returns
TransportWriteTimeout and 0. -/
def Obligations.EmptyBufferNeverSucceeds : Prop :=
  ∀ (s s' : State) (tr : Transient) (dl : Word), s.Inv → s.ownershipBroken = false → s.Running tr →
    tr.op = .sendFrame [] dl → step s = .next s' → s.nextTurn.1 ≠ .reset → s'.busy = false → s'.result = some ⟨.transportWriteTimeout, .sent 0⟩

/-! ## SEEK_FRAME_START and RECEIVE_FRAME -/

/-- R165, R55 to R57: every point of SEEK_FRAME_START's pseudocode, with the frame of each step. That `k` is 0 and `buf` empty
throughout is the model's choice (log 27). -/
def Obligations.SeekFrameStartPoints : Prop :=
  (∀ s : State, s.Ready →
    exec .seekFrameStart s =
      .next { s with
        busy := true, history := s.history ++ [.issue .seekFrameStart],
        transient := some ⟨.seekFrameStart, none, .seekAvail, [], 0⟩ }) ∧
  ∀ (s : State) (tr : Transient), s.Running tr → tr.op = .seekFrameStart →
    (tr.phase = .seekAvail →
      exec .seekFrameStart s =
        .next { s with
          history := s.history ++ [.avail s.rxq.length],
          transient := some { tr with phase := if s.rxq = [] then .retFound false else .seekPeek } }) ∧
    (∀ b rest, tr.phase = .seekPeek → s.rxq = b :: rest →
      exec .seekFrameStart s =
        .next { s with
          history := s.history ++ [.peek b],
          transient := some { tr with phase := if b = 0xAA then .retFound true else .seekDrop } }) ∧
    (∀ b rest, tr.phase = .seekDrop → s.rxq = b :: rest →
      exec .seekFrameStart s =
        .next { s with
          history := s.history ++ [.readByte b], rxq := rest, transient := some { tr with phase := .seekAvail } }) ∧
    (∀ found, tr.phase = .retFound found →
      exec .seekFrameStart s =
        .next { s with
          busy := false, transient := none, result := some ⟨.ok, .found found⟩,
          history := s.history ++ [.result ⟨.ok, .found found⟩] })

/-- R165: SEEK_FRAME_START run alone discards exactly the bytes before the first 0xAA; with a head it returns true and the
head stays at the front, without one it returns false and the stream is empty. -/
def Obligations.SeekDiscardsUpToHead : Prop :=
  ∀ (s : State) (junk : List Byte), s.Ready → (0xAA : Byte) ∉ junk →
    (∀ rest, s.rxq = junk ++ 0xAA :: rest →
      execTimes .seekFrameStart (3 * junk.length + 4) s =
        .next { s.returned .seekFrameStart
                  (discardCalls (rest.length + 1) junk ++ [.avail (rest.length + 1), .peek 0xAA]) ⟨.ok, .found true⟩ with
          rxq := 0xAA :: rest }) ∧
    (s.rxq = junk →
      execTimes .seekFrameStart (3 * junk.length + 3) s =
        .next { s.returned .seekFrameStart (discardCalls 0 junk ++ [.avail 0]) ⟨.ok, .found false⟩ with rxq := [] })

/-- R166, R163, R58: every point of RECEIVE_FRAME's pseudocode, with the frame of each step; `ReadExactly(10)` of a transport
that lists no delivery, or one of at least ten bytes (log 14). That `k` is 0 and `buf` empty from the acceptance on is the
model's choice (log 27). -/
def Obligations.ReceiveFramePoints : Prop :=
  ∀ dl : Word,
    (∀ s : State, s.Ready →
      exec (.receiveFrame dl) s =
        .next { s with
          busy := true, history := s.history ++ [.issue (.receiveFrame dl)],
          transient := some ⟨.receiveFrame dl, some dl, .seekAvail, [], 0⟩ }) ∧
    ∀ (s : State) (tr : Transient), s.Running tr → tr.op = .receiveFrame dl → tr.dl = some dl →
      (tr.phase = .seekAvail →
        exec (.receiveFrame dl) s =
          .next { s with
            history := s.history ++ [.avail s.rxq.length],
            transient := some { tr with phase := if s.rxq = [] then .yield else .seekPeek } }) ∧
      (∀ b rest, tr.phase = .seekPeek → s.rxq = b :: rest →
        exec (.receiveFrame dl) s =
          .next { s with
            history := s.history ++ [.peek b],
            transient := some { tr with phase := if b = 0xAA then .countAvail else .seekDrop } }) ∧
      (∀ b rest, tr.phase = .seekDrop → s.rxq = b :: rest →
        exec (.receiveFrame dl) s =
          .next { s with
            history := s.history ++ [.readByte b], rxq := rest, transient := some { tr with phase := .seekAvail } }) ∧
      (tr.phase = .countAvail →
        exec (.receiveFrame dl) s =
          .next { s with
            history := s.history ++ [.avail s.rxq.length],
            transient := some { tr with phase := if 10 ≤ s.rxq.length then .take else .yield } }) ∧
      (tr.phase = .take → (∀ d ∈ s.deliveries.head?, 10 ≤ d) → 10 ≤ s.rxq.length →
        exec (.receiveFrame dl) s =
          .next { s with
            history := s.history ++ [.readExactly 10 (s.rxq.take 10)], rxq := s.rxq.drop 10,
            deliveries := s.deliveries.tail,
            transient := some { tr with phase := .retFrame, buf := s.rxq.take 10 } }) ∧
      (tr.phase = .yield →
        exec (.receiveFrame dl) s =
          .next { s with history := s.history ++ [.yield], transient := some { tr with phase := .clock } }) ∧
      (∀ d ds, tr.phase = .clock → s.clockSteps = d :: ds →
        exec (.receiveFrame dl) s =
          .next { s with
            clockSteps := ds, clock := clockAfter s.clockWrap s.clock d,
            history := s.history ++ [.now (clockAfter s.clockWrap s.clock d)],
            transient := some { tr with
              phase := if (clockAfter s.clockWrap s.clock d).toNat < dl.toNat then .seekAvail else .retReadTimeout } }) ∧
      (tr.phase = .retFrame →
        exec (.receiveFrame dl) s =
          .next { s with
            busy := false, transient := none, result := some ⟨.ok, .received tr.buf⟩,
            history := s.history ++ [.result ⟨.ok, .received tr.buf⟩] }) ∧
      (tr.phase = .retReadTimeout →
        exec (.receiveFrame dl) s =
          .next { s with
            busy := false, transient := none, result := some ⟨.transportReadTimeout, .none⟩,
            history := s.history ++ [.result ⟨.transportReadTimeout, .none⟩] })

/-- R166, R168: RECEIVE_FRAME run alone returns the 10 bytes that start at the first 0xAA, whatever they are, and consumes
the bytes before them and them; it reads no clock and does not yield. -/
def Obligations.ReceiveReturnsFirstWindow : Prop :=
  ∀ (s : State) (dl : Word) (junk window rest : List Byte), s.Ready →
    (∀ d ∈ s.deliveries.head?, 10 ≤ d) → (0xAA : Byte) ∉ junk → window.length = 10 → window.head? = some 0xAA → s.rxq = junk ++ window ++ rest →
    execTimes (.receiveFrame dl) (3 * junk.length + 6) s =
      .next { s.returned (.receiveFrame dl)
                (discardCalls (10 + rest.length) junk ++
                  [.avail (10 + rest.length), .peek 0xAA, .avail (10 + rest.length), .readExactly 10 window])
                ⟨.ok, .received window⟩ with
        rxq := rest, deliveries := s.deliveries.tail }

/-- R61, R62, R166: the same through `step`, with any bytes arriving at any step boundary: RECEIVE_FRAME returns the first
window of what was in RXQ when it was issued, and RXQ then holds what followed it and what arrived, in order. -/
def Obligations.ReceiveAmidArrivals : Prop :=
  ∀ (s : State) (r : Request) (dl : Word) (junk window rest : List Byte) (turns later : List Turn), s.Ready →
    s.ownershipBroken = false → (∀ d ∈ s.deliveries.head?, 10 ≤ d) → decode r = .instr (.receiveFrame dl) → (0xAA : Byte) ∉ junk → window.length = 10 →
    window.head? = some 0xAA → s.rxq = junk ++ window ++ rest →
    (∀ turn ∈ turns, turn = .block ∨ ∃ bytes, turn = .arrive bytes) → turns.count .block = 3 * junk.length + 4 →
    s.schedule = .issue r :: turns ++ .block :: later →
    ∃ t, Host.Core.run Sys2Proof.core (turns.length + 2) s = .next t ∧ t.result = some ⟨.ok, .received window⟩ ∧
      t.rxq = rest ++ arrivedBytes turns ∧ t.busy = false ∧ t.transient = none ∧ t.faultMark = none ∧
      t.txlog = s.txlog ∧ t.timeoutMs = s.timeoutMs ∧ t.clock = s.clock ∧ t.schedule = later

/-- R166, R167, R201: RECEIVE_FRAME run alone over a stream with no head, or a head with fewer than 10 bytes: it ends at the
first clock read that is not below the deadline, after `m` attempts with `m` clock reads, with TransportReadTimeout; the bytes
before the head are gone, the head and what follows it stay. -/
def Obligations.ReceiveFrameTimesOut : Prop :=
  ∀ (s : State) (dl : Word) (junk kept : List Byte) (steps ds : List Nat) (last : Nat), s.Ready → (0xAA : Byte) ∉ junk →
    (kept = [] ∨ (kept.head? = some 0xAA ∧ kept.length < 10)) → s.rxq = junk ++ kept →
    s.clockSteps = steps ++ last :: ds → (∀ t ∈ clockReads s.clockWrap s.clock steps, t.toNat < dl.toNat) →
    let reads := clockReads s.clockWrap s.clock (steps ++ [last])
    let attempt : List Event := if kept = [] then [.avail 0] else [.avail kept.length, .peek 0xAA, .avail kept.length]
    dl.toNat ≤ (reads.getLastD 0).toNat →
    execTimes (.receiveFrame dl) (3 * junk.length + (attempt.length + 2) * (steps.length + 1) + 2) s =
      .next { s.returned (.receiveFrame dl)
                (discardCalls kept.length junk ++ reads.flatMap (fun t => attempt ++ [.yield, .now t]))
                ⟨.transportReadTimeout, .none⟩ with
        rxq := kept, clockSteps := ds, clock := reads.getLastD 0 }

/-- R163, R167: under CLOCK_WRAP = forbidden a deadline at or below the last clock value, and under either setting the
deadline 0, ends SEND_FRAME and RECEIVE_FRAME at their first clock read: there is exactly one attempt. -/
def Obligations.ExpiredDeadlineGivesOneAttempt : Prop :=
  ∀ (s s' : State) (tr : Transient) (dl : Word), s.Running tr → tr.Sound → tr.phase = .clock → tr.dl = some dl →
    (dl = 0 ∨ (s.clockWrap = .forbidden ∧ dl.toNat ≤ s.clock.toNat)) → exec tr.op s = .next s' →
    ∃ tr', s'.transient = some tr' ∧ (tr'.phase = .retWriteTimeout ∨ tr'.phase = .retReadTimeout)

/-- R167, the edge case of timeout 0: MK_DEADLINE 0 and then RECEIVE_FRAME on an empty stream makes exactly one attempt, one
yield and one more clock read. -/
def Obligations.TimeoutZeroReceivesOnce : Prop :=
  ∀ (s : State) (a b : Nat) (ds : List Nat), s.Ready → s.clockWrap = .forbidden → s.rxq = [] → s.clockSteps = a :: b :: ds →
    ∃ s1 dl t now, exec (.mkDeadline (some 0)) s = .next s1 ∧ s1.result = some ⟨.ok, .deadline dl⟩ ∧
      execTimes (.receiveFrame dl) 5 s1 = .next t ∧ t.result = some ⟨.transportReadTimeout, .none⟩ ∧ t.rxq = [] ∧
      t.history = s1.history ++ [.issue (.receiveFrame dl), .avail 0, .yield, .now now, .result ⟨.transportReadTimeout, .none⟩]

/-- R165, R166: what the two operations promise about heads, in every run without foreign agent: a returned frame has 10
bytes and starts with 0xAA, and a seek that returns true leaves 0xAA at the front. -/
def Obligations.DeliveredHeads : Prop :=
  ∀ s s' : State, s.Inv → s.ownershipBroken = false → step s = .next s' →
    (∀ status f, s'.result = some ⟨status, .received f⟩ → status = .ok ∧ f.length = 10 ∧ f.head? = some 0xAA) ∧
    (s'.result = some ⟨.ok, .found true⟩ → s'.rxq.head? = some 0xAA)

/-! ## Rules of the whole machine -/

/-- The invariant of the machine is kept by every step, whatever agent moves. -/
def Obligations.EveryStepKeepsInvariant : Prop :=
  ∀ s s' : State, s.Inv → step s = .next s' → s'.Inv

/-- R170: an operation in progress holds the deadline of its operand, latched when it started; no step changes it while the
operation stays in progress, and TIMEOUT_MS does not change under it, in a run that no foreign agent has touched. -/
def Obligations.DeadlineIsImmutable : Prop :=
  ∀ (s s' : State) (tr' : Transient), s.Inv → s.ownershipBroken = false → step s = .next s' → s'.transient = some tr' →
    tr'.dl = deadlineOf tr'.op ∧
    ∀ tr, s.transient = some tr → tr'.op = tr.op ∧ tr'.dl = tr.dl ∧ s'.timeoutMs = s.timeoutMs

/-- R29, R60: the history only grows, by at most one primitive call a step, except at block reset, in a run that no foreign
agent has touched. -/
def Obligations.HistoryOnlyGrows : Prop :=
  ∀ s s' : State, s.ownershipBroken = false → step s = .next s' → s.nextTurn.1 ≠ .reset →
    ∃ events, s'.history = s.history ++ events ∧ (events.filter Event.isCall).length ≤ 1

/-- R27, R57 to R59, R61: who changes the streams. RXQ gains arriving bytes at its tail and loses its first byte, or its
first ten, to the block; TXLOG gains bytes at its end from the block. Nothing else changes them, in a run without foreign
agent and without a broken contract. -/
def Obligations.WhoChangesStreams : Prop :=
  ∀ s s' : State, s.ownershipBroken = false → s.Exclusive → step s = .next s' →
    (s'.faultMark = some .transportContract → s.faultMark ≠ none) →
    (s'.rxq = s.rxq ∨ (∃ bytes, s.nextTurn.1 = .arrive bytes ∧ s'.rxq = s.rxq ++ bytes) ∨
      (s.nextTurn.1 = .block ∧ ∃ n, (n = 1 ∨ n = 10) ∧ n ≤ s.rxq.length ∧ s'.rxq = s.rxq.drop n)) ∧
    (s'.txlog = s.txlog ∨ (s.nextTurn.1 = .block ∧ ∃ bytes, s'.txlog = s.txlog ++ bytes))

/-- R91, R217: the number of each status, and which operation produces it; ResponseCorrelationMismatch, InvalidArgument and
the numbers above 0x07 are never produced, in a run that no foreign agent has touched. -/
def Obligations.StatusProducers : Prop :=
  (Status.ok.code = 0x00 ∧ Status.transportWriteTimeout.code = 0x01 ∧ Status.transportReadTimeout.code = 0x02 ∧
    Status.checksumMismatch.code = 0x03 ∧ Status.responseCorrelationMismatch.code = 0x04 ∧
    Status.invalidArgument.code = 0x05 ∧ Status.delimiterMismatch.code = 0x06 ∧ Status.illegalOperation.code = 0x07) ∧
  ∀ (s s' : State) (r : ResultRecord), s.ownershipBroken = false → step s = .next s' → s'.result = some r →
    r.status.code.toNat < 8 ∧ r.status ≠ .responseCorrelationMismatch ∧ r.status ≠ .invalidArgument ∧
    (r.status = .transportWriteTimeout → ∃ tr buf dl, s.transient = some tr ∧ tr.op = .sendFrame buf dl) ∧
    (r.status = .transportReadTimeout → ∃ tr dl, s.transient = some tr ∧ tr.op = .receiveFrame dl) ∧
    (r.status = .checksumMismatch ∨ r.status = .delimiterMismatch →
      ∃ q kind f, s.nextTurn.1 = .issue q ∧ decode q = .instr (.checkFrame kind f)) ∧
    (r.status = .illegalOperation → ∃ q, s.nextTurn.1 = .issue q ∧ ReservedOp q.op)

/-- The frames of the blocking operations: what each leaves unchanged in every step, faults included (R26, R164 to R166). -/
def Obligations.BlockingOperationFrames : Prop :=
  ∀ (i : Instr) (s s' : State), IsBlocking i → exec i s = .next s' →
    s'.timeoutMs = s.timeoutMs ∧ s'.clockWrap = s.clockWrap ∧ s'.schedule = s.schedule ∧
    s'.ownershipBroken = s.ownershipBroken ∧
    (∀ buf dl, i = .sendFrame buf dl → s'.rxq = s.rxq ∧ s'.deliveries = s.deliveries) ∧
    (i = .seekFrameStart →
      s'.txlog = s.txlog ∧ s'.clock = s.clock ∧ s'.clockSteps = s.clockSteps ∧ s'.writeCounts = s.writeCounts ∧
        s'.deliveries = s.deliveries) ∧
    (∀ dl, i = .receiveFrame dl → s'.txlog = s.txlog ∧ s'.writeCounts = s.writeCounts)

/-- R23, R253: an operation that ends returns its result record and BUSY is 0: in a run that no foreign agent has touched, a
step shows a result record exactly when it adds one to the history, as its last event, and the block is then idle. -/
def Obligations.ResultMeansIdle : Prop :=
  ∀ (s s' : State) (r : ResultRecord), s.ownershipBroken = false → step s = .next s' →
    (s'.result = some r →
      s'.busy = false ∧ s'.transient = none ∧ s'.faultMark = none ∧ ∃ events, s'.history = s.history ++ events ++ [.result r]) ∧
    (∀ events, s'.history = s.history ++ events → .result r ∈ events → s'.result = some r)

/-- R251, R169, R253: under P1 to P3 every operation ends, and so does the run of a host program with a last request. The
premises are an endless run, without block reset and without foreign agent, from a state that meets the invariant. That P1
and P3 hold from every point on is the model's form of them (log 25). -/
def Obligations.OperationsEndUnderLivenessPremises : Prop :=
  ∀ σ : Nat → State, IsRun σ → (σ 0).Inv → (σ 0).ownershipBroken = false → (∀ n, (σ n).Exclusive) →
    (∀ n, (σ n).nextTurn.1 ≠ .reset) → ClockProgress σ → FiniteBursts σ → YieldsReturn σ →
    (∀ n, ((σ n).busy = true ∨ ∃ r, (σ n).nextTurn.1 = .issue r) → ∃ m, OperationEnded σ n m) ∧
    (∀ n, (∃ r, (σ n).nextTurn.1 = .issue r) → (∀ k r, n < k → (σ k).nextTurn.1 ≠ .issue r) → ∃ m, ProgramEnded σ n m)
end

