-- ==== Sys2Proof/Laws/State.lean ====
section
/-! SUPPORT. For each update of State one lemma per field, so that no proof unfolds a record update. -/

namespace Sys2Proof.Machine

variable (s : State)

/-! ### State.log -/

@[simp] theorem State.log_timeoutMs (e : Event) : (s.log e).timeoutMs = s.timeoutMs := rfl
@[simp] theorem State.log_busy (e : Event) : (s.log e).busy = s.busy := rfl
@[simp] theorem State.log_transient (e : Event) : (s.log e).transient = s.transient := rfl
@[simp] theorem State.log_result (e : Event) : (s.log e).result = s.result := rfl
@[simp] theorem State.log_history (e : Event) : (s.log e).history = s.history ++ [e] := rfl
@[simp] theorem State.log_faultMark (e : Event) : (s.log e).faultMark = s.faultMark := rfl
@[simp] theorem State.log_rxq (e : Event) : (s.log e).rxq = s.rxq := rfl
@[simp] theorem State.log_txlog (e : Event) : (s.log e).txlog = s.txlog := rfl
@[simp] theorem State.log_clock (e : Event) : (s.log e).clock = s.clock := rfl
@[simp] theorem State.log_clockWrap (e : Event) : (s.log e).clockWrap = s.clockWrap := rfl
@[simp] theorem State.log_schedule (e : Event) : (s.log e).schedule = s.schedule := rfl
@[simp] theorem State.log_clockSteps (e : Event) : (s.log e).clockSteps = s.clockSteps := rfl
@[simp] theorem State.log_writeCounts (e : Event) : (s.log e).writeCounts = s.writeCounts := rfl
@[simp] theorem State.log_deliveries (e : Event) : (s.log e).deliveries = s.deliveries := rfl
@[simp] theorem State.log_draws (e : Event) : (s.log e).draws = s.draws := rfl
@[simp] theorem State.log_ownershipBroken (e : Event) : (s.log e).ownershipBroken = s.ownershipBroken := rfl

/-! ### State.start -/

@[simp] theorem State.start_timeoutMs (i : Instr) : (s.start i).timeoutMs = s.timeoutMs := rfl
@[simp] theorem State.start_busy (i : Instr) : (s.start i).busy = true := rfl
@[simp] theorem State.start_transient (i : Instr) : (s.start i).transient = s.transient := rfl
@[simp] theorem State.start_result (i : Instr) : (s.start i).result = s.result := rfl
@[simp] theorem State.start_history (i : Instr) : (s.start i).history = s.history ++ [.issue i] := rfl
@[simp] theorem State.start_faultMark (i : Instr) : (s.start i).faultMark = s.faultMark := rfl
@[simp] theorem State.start_rxq (i : Instr) : (s.start i).rxq = s.rxq := rfl
@[simp] theorem State.start_txlog (i : Instr) : (s.start i).txlog = s.txlog := rfl
@[simp] theorem State.start_clock (i : Instr) : (s.start i).clock = s.clock := rfl
@[simp] theorem State.start_clockWrap (i : Instr) : (s.start i).clockWrap = s.clockWrap := rfl
@[simp] theorem State.start_schedule (i : Instr) : (s.start i).schedule = s.schedule := rfl
@[simp] theorem State.start_clockSteps (i : Instr) : (s.start i).clockSteps = s.clockSteps := rfl
@[simp] theorem State.start_writeCounts (i : Instr) : (s.start i).writeCounts = s.writeCounts := rfl
@[simp] theorem State.start_deliveries (i : Instr) : (s.start i).deliveries = s.deliveries := rfl
@[simp] theorem State.start_draws (i : Instr) : (s.start i).draws = s.draws := rfl
@[simp] theorem State.start_ownershipBroken (i : Instr) : (s.start i).ownershipBroken = s.ownershipBroken := rfl

/-! ### State.raise -/

@[simp] theorem State.raise_timeoutMs (x : FaultReason) : (s.raise x).timeoutMs = s.timeoutMs := rfl
@[simp] theorem State.raise_busy (x : FaultReason) : (s.raise x).busy = s.busy := rfl
@[simp] theorem State.raise_transient (x : FaultReason) : (s.raise x).transient = s.transient := rfl
@[simp] theorem State.raise_result (x : FaultReason) : (s.raise x).result = s.result := rfl
@[simp] theorem State.raise_history (x : FaultReason) : (s.raise x).history = s.history := rfl
@[simp] theorem State.raise_faultMark (x : FaultReason) : (s.raise x).faultMark = s.faultMark.or (some x) := rfl
@[simp] theorem State.raise_rxq (x : FaultReason) : (s.raise x).rxq = s.rxq := rfl
@[simp] theorem State.raise_txlog (x : FaultReason) : (s.raise x).txlog = s.txlog := rfl
@[simp] theorem State.raise_clock (x : FaultReason) : (s.raise x).clock = s.clock := rfl
@[simp] theorem State.raise_clockWrap (x : FaultReason) : (s.raise x).clockWrap = s.clockWrap := rfl
@[simp] theorem State.raise_schedule (x : FaultReason) : (s.raise x).schedule = s.schedule := rfl
@[simp] theorem State.raise_clockSteps (x : FaultReason) : (s.raise x).clockSteps = s.clockSteps := rfl
@[simp] theorem State.raise_writeCounts (x : FaultReason) : (s.raise x).writeCounts = s.writeCounts := rfl
@[simp] theorem State.raise_deliveries (x : FaultReason) : (s.raise x).deliveries = s.deliveries := rfl
@[simp] theorem State.raise_draws (x : FaultReason) : (s.raise x).draws = s.draws := rfl
@[simp] theorem State.raise_ownershipBroken (x : FaultReason) : (s.raise x).ownershipBroken = s.ownershipBroken := rfl

/-! ### State.finish -/

@[simp] theorem State.finish_timeoutMs (r : ResultRecord) : (s.finish r).timeoutMs = s.timeoutMs := rfl
@[simp] theorem State.finish_busy (r : ResultRecord) : (s.finish r).busy = false := rfl
@[simp] theorem State.finish_transient (r : ResultRecord) : (s.finish r).transient = none := rfl
@[simp] theorem State.finish_result (r : ResultRecord) : (s.finish r).result = some r := rfl
@[simp] theorem State.finish_history (r : ResultRecord) : (s.finish r).history = s.history ++ [.result r] := rfl
@[simp] theorem State.finish_faultMark (r : ResultRecord) : (s.finish r).faultMark = s.faultMark := rfl
@[simp] theorem State.finish_rxq (r : ResultRecord) : (s.finish r).rxq = s.rxq := rfl
@[simp] theorem State.finish_txlog (r : ResultRecord) : (s.finish r).txlog = s.txlog := rfl
@[simp] theorem State.finish_clock (r : ResultRecord) : (s.finish r).clock = s.clock := rfl
@[simp] theorem State.finish_clockWrap (r : ResultRecord) : (s.finish r).clockWrap = s.clockWrap := rfl
@[simp] theorem State.finish_schedule (r : ResultRecord) : (s.finish r).schedule = s.schedule := rfl
@[simp] theorem State.finish_clockSteps (r : ResultRecord) : (s.finish r).clockSteps = s.clockSteps := rfl
@[simp] theorem State.finish_writeCounts (r : ResultRecord) : (s.finish r).writeCounts = s.writeCounts := rfl
@[simp] theorem State.finish_deliveries (r : ResultRecord) : (s.finish r).deliveries = s.deliveries := rfl
@[simp] theorem State.finish_draws (r : ResultRecord) : (s.finish r).draws = s.draws := rfl
@[simp] theorem State.finish_ownershipBroken (r : ResultRecord) : (s.finish r).ownershipBroken = s.ownershipBroken := rfl

/-! ### State.dropResult -/

@[simp] theorem State.dropResult_timeoutMs : (s.dropResult).timeoutMs = s.timeoutMs := rfl
@[simp] theorem State.dropResult_busy : (s.dropResult).busy = s.busy := rfl
@[simp] theorem State.dropResult_transient : (s.dropResult).transient = s.transient := rfl
@[simp] theorem State.dropResult_result : (s.dropResult).result = none := rfl
@[simp] theorem State.dropResult_history : (s.dropResult).history = s.history := rfl
@[simp] theorem State.dropResult_faultMark : (s.dropResult).faultMark = s.faultMark := rfl
@[simp] theorem State.dropResult_rxq : (s.dropResult).rxq = s.rxq := rfl
@[simp] theorem State.dropResult_txlog : (s.dropResult).txlog = s.txlog := rfl
@[simp] theorem State.dropResult_clock : (s.dropResult).clock = s.clock := rfl
@[simp] theorem State.dropResult_clockWrap : (s.dropResult).clockWrap = s.clockWrap := rfl
@[simp] theorem State.dropResult_schedule : (s.dropResult).schedule = s.schedule := rfl
@[simp] theorem State.dropResult_clockSteps : (s.dropResult).clockSteps = s.clockSteps := rfl
@[simp] theorem State.dropResult_writeCounts : (s.dropResult).writeCounts = s.writeCounts := rfl
@[simp] theorem State.dropResult_deliveries : (s.dropResult).deliveries = s.deliveries := rfl
@[simp] theorem State.dropResult_draws : (s.dropResult).draws = s.draws := rfl
@[simp] theorem State.dropResult_ownershipBroken : (s.dropResult).ownershipBroken = s.ownershipBroken := rfl

/-! ### State.goto -/

@[simp] theorem State.goto_timeoutMs (tr : Transient) (p : Phase) : (s.goto tr p).timeoutMs = s.timeoutMs := rfl
@[simp] theorem State.goto_busy (tr : Transient) (p : Phase) : (s.goto tr p).busy = s.busy := rfl
@[simp] theorem State.goto_transient (tr : Transient) (p : Phase) : (s.goto tr p).transient = some { tr with phase := p } := rfl
@[simp] theorem State.goto_result (tr : Transient) (p : Phase) : (s.goto tr p).result = s.result := rfl
@[simp] theorem State.goto_history (tr : Transient) (p : Phase) : (s.goto tr p).history = s.history := rfl
@[simp] theorem State.goto_faultMark (tr : Transient) (p : Phase) : (s.goto tr p).faultMark = s.faultMark := rfl
@[simp] theorem State.goto_rxq (tr : Transient) (p : Phase) : (s.goto tr p).rxq = s.rxq := rfl
@[simp] theorem State.goto_txlog (tr : Transient) (p : Phase) : (s.goto tr p).txlog = s.txlog := rfl
@[simp] theorem State.goto_clock (tr : Transient) (p : Phase) : (s.goto tr p).clock = s.clock := rfl
@[simp] theorem State.goto_clockWrap (tr : Transient) (p : Phase) : (s.goto tr p).clockWrap = s.clockWrap := rfl
@[simp] theorem State.goto_schedule (tr : Transient) (p : Phase) : (s.goto tr p).schedule = s.schedule := rfl
@[simp] theorem State.goto_clockSteps (tr : Transient) (p : Phase) : (s.goto tr p).clockSteps = s.clockSteps := rfl
@[simp] theorem State.goto_writeCounts (tr : Transient) (p : Phase) : (s.goto tr p).writeCounts = s.writeCounts := rfl
@[simp] theorem State.goto_deliveries (tr : Transient) (p : Phase) : (s.goto tr p).deliveries = s.deliveries := rfl
@[simp] theorem State.goto_draws (tr : Transient) (p : Phase) : (s.goto tr p).draws = s.draws := rfl
@[simp] theorem State.goto_ownershipBroken (tr : Transient) (p : Phase) : (s.goto tr p).ownershipBroken = s.ownershipBroken := rfl

/-! ### State.accept -/

@[simp] theorem State.accept_timeoutMs (i : Instr) (dl : Option Word) (p : Phase) : (s.accept i dl p).timeoutMs = s.timeoutMs := rfl
@[simp] theorem State.accept_busy (i : Instr) (dl : Option Word) (p : Phase) : (s.accept i dl p).busy = true := rfl
@[simp] theorem State.accept_transient (i : Instr) (dl : Option Word) (p : Phase) : (s.accept i dl p).transient = some ⟨i, dl, p, [], 0⟩ := rfl
@[simp] theorem State.accept_result (i : Instr) (dl : Option Word) (p : Phase) : (s.accept i dl p).result = s.result := rfl
@[simp] theorem State.accept_history (i : Instr) (dl : Option Word) (p : Phase) : (s.accept i dl p).history = s.history ++ [.issue i] := rfl
@[simp] theorem State.accept_faultMark (i : Instr) (dl : Option Word) (p : Phase) : (s.accept i dl p).faultMark = s.faultMark := rfl
@[simp] theorem State.accept_rxq (i : Instr) (dl : Option Word) (p : Phase) : (s.accept i dl p).rxq = s.rxq := rfl
@[simp] theorem State.accept_txlog (i : Instr) (dl : Option Word) (p : Phase) : (s.accept i dl p).txlog = s.txlog := rfl
@[simp] theorem State.accept_clock (i : Instr) (dl : Option Word) (p : Phase) : (s.accept i dl p).clock = s.clock := rfl
@[simp] theorem State.accept_clockWrap (i : Instr) (dl : Option Word) (p : Phase) : (s.accept i dl p).clockWrap = s.clockWrap := rfl
@[simp] theorem State.accept_schedule (i : Instr) (dl : Option Word) (p : Phase) : (s.accept i dl p).schedule = s.schedule := rfl
@[simp] theorem State.accept_clockSteps (i : Instr) (dl : Option Word) (p : Phase) : (s.accept i dl p).clockSteps = s.clockSteps := rfl
@[simp] theorem State.accept_writeCounts (i : Instr) (dl : Option Word) (p : Phase) : (s.accept i dl p).writeCounts = s.writeCounts := rfl
@[simp] theorem State.accept_deliveries (i : Instr) (dl : Option Word) (p : Phase) : (s.accept i dl p).deliveries = s.deliveries := rfl
@[simp] theorem State.accept_draws (i : Instr) (dl : Option Word) (p : Phase) : (s.accept i dl p).draws = s.draws := rfl
@[simp] theorem State.accept_ownershipBroken (i : Instr) (dl : Option Word) (p : Phase) : (s.accept i dl p).ownershipBroken = s.ownershipBroken := rfl

/-! ### State.blockReset -/

@[simp] theorem State.blockReset_timeoutMs : (s.blockReset).timeoutMs = 1000 := rfl
@[simp] theorem State.blockReset_busy : (s.blockReset).busy = false := rfl
@[simp] theorem State.blockReset_transient : (s.blockReset).transient = none := rfl
@[simp] theorem State.blockReset_result : (s.blockReset).result = none := rfl
@[simp] theorem State.blockReset_history : (s.blockReset).history = [] := rfl
@[simp] theorem State.blockReset_faultMark : (s.blockReset).faultMark = none := rfl
@[simp] theorem State.blockReset_rxq : (s.blockReset).rxq = s.rxq := rfl
@[simp] theorem State.blockReset_txlog : (s.blockReset).txlog = s.txlog := rfl
@[simp] theorem State.blockReset_clock : (s.blockReset).clock = s.clock := rfl
@[simp] theorem State.blockReset_clockWrap : (s.blockReset).clockWrap = s.clockWrap := rfl
@[simp] theorem State.blockReset_schedule : (s.blockReset).schedule = s.schedule := rfl
@[simp] theorem State.blockReset_clockSteps : (s.blockReset).clockSteps = s.clockSteps := rfl
@[simp] theorem State.blockReset_writeCounts : (s.blockReset).writeCounts = s.writeCounts := rfl
@[simp] theorem State.blockReset_deliveries : (s.blockReset).deliveries = s.deliveries := rfl
@[simp] theorem State.blockReset_draws : (s.blockReset).draws = s.draws := rfl
@[simp] theorem State.blockReset_ownershipBroken : (s.blockReset).ownershipBroken = false := rfl

/-! ### State.markForeign -/

@[simp] theorem State.markForeign_timeoutMs : (s.markForeign).timeoutMs = s.timeoutMs := rfl
@[simp] theorem State.markForeign_busy : (s.markForeign).busy = s.busy := rfl
@[simp] theorem State.markForeign_transient : (s.markForeign).transient = s.transient := rfl
@[simp] theorem State.markForeign_result : (s.markForeign).result = s.result := rfl
@[simp] theorem State.markForeign_history : (s.markForeign).history = s.history := rfl
@[simp] theorem State.markForeign_faultMark : (s.markForeign).faultMark = s.faultMark := rfl
@[simp] theorem State.markForeign_rxq : (s.markForeign).rxq = s.rxq := rfl
@[simp] theorem State.markForeign_txlog : (s.markForeign).txlog = s.txlog := rfl
@[simp] theorem State.markForeign_clock : (s.markForeign).clock = s.clock := rfl
@[simp] theorem State.markForeign_clockWrap : (s.markForeign).clockWrap = s.clockWrap := rfl
@[simp] theorem State.markForeign_schedule : (s.markForeign).schedule = s.schedule := rfl
@[simp] theorem State.markForeign_clockSteps : (s.markForeign).clockSteps = s.clockSteps := rfl
@[simp] theorem State.markForeign_writeCounts : (s.markForeign).writeCounts = s.writeCounts := rfl
@[simp] theorem State.markForeign_deliveries : (s.markForeign).deliveries = s.deliveries := rfl
@[simp] theorem State.markForeign_draws : (s.markForeign).draws = s.draws := rfl
@[simp] theorem State.markForeign_ownershipBroken : (s.markForeign).ownershipBroken = (s.ownershipBroken || s.busy) := rfl

/-! ### State.unconstrained: what goes on -/

@[simp] theorem State.unconstrained_clockWrap : s.unconstrained.clockWrap = s.clockWrap := rfl
@[simp] theorem State.unconstrained_schedule : s.unconstrained.schedule = s.schedule := rfl
@[simp] theorem State.unconstrained_clockSteps : s.unconstrained.clockSteps = s.clockSteps := rfl
@[simp] theorem State.unconstrained_writeCounts : s.unconstrained.writeCounts = s.writeCounts := rfl
@[simp] theorem State.unconstrained_deliveries : s.unconstrained.deliveries = s.deliveries := rfl
@[simp] theorem State.unconstrained_draws : s.unconstrained.draws = s.draws + 1 := rfl
@[simp] theorem State.unconstrained_ownershipBroken : s.unconstrained.ownershipBroken = true := rfl

/-! ### State.withTurn -/

@[simp] theorem State.withTurn_timeoutMs (turn : Turn) : (s.withTurn turn).timeoutMs = s.timeoutMs := rfl
@[simp] theorem State.withTurn_busy (turn : Turn) : (s.withTurn turn).busy = s.busy := rfl
@[simp] theorem State.withTurn_transient (turn : Turn) : (s.withTurn turn).transient = s.transient := rfl
@[simp] theorem State.withTurn_result (turn : Turn) : (s.withTurn turn).result = s.result := rfl
@[simp] theorem State.withTurn_history (turn : Turn) : (s.withTurn turn).history = s.history := rfl
@[simp] theorem State.withTurn_faultMark (turn : Turn) : (s.withTurn turn).faultMark = s.faultMark := rfl
@[simp] theorem State.withTurn_rxq (turn : Turn) : (s.withTurn turn).rxq = s.rxq := rfl
@[simp] theorem State.withTurn_txlog (turn : Turn) : (s.withTurn turn).txlog = s.txlog := rfl
@[simp] theorem State.withTurn_clock (turn : Turn) : (s.withTurn turn).clock = s.clock := rfl
@[simp] theorem State.withTurn_clockWrap (turn : Turn) : (s.withTurn turn).clockWrap = s.clockWrap := rfl
@[simp] theorem State.withTurn_schedule (turn : Turn) : (s.withTurn turn).schedule = turn :: s.schedule := rfl
@[simp] theorem State.withTurn_clockSteps (turn : Turn) : (s.withTurn turn).clockSteps = s.clockSteps := rfl
@[simp] theorem State.withTurn_writeCounts (turn : Turn) : (s.withTurn turn).writeCounts = s.writeCounts := rfl
@[simp] theorem State.withTurn_deliveries (turn : Turn) : (s.withTurn turn).deliveries = s.deliveries := rfl
@[simp] theorem State.withTurn_draws (turn : Turn) : (s.withTurn turn).draws = s.draws := rfl
@[simp] theorem State.withTurn_ownershipBroken (turn : Turn) : (s.withTurn turn).ownershipBroken = s.ownershipBroken := rfl

end Sys2Proof.Machine
end

