-- ==== Sys2Proof/Laws/Ops.lean ====
section
/-! SUPPORT. For each shared operation of Machine/Ops.lean, Machine/Turn.lean and Machine/Step.lean, what it can do, said
once; and what one step of an operation in progress is. -/

namespace Sys2Proof.Machine

variable {s s' : State}

/-! ## Primitives -/

theorem primPeek_cons {b : Byte} {rest : List Byte} (h : s.rxq = b :: rest) : s.primPeek = .kept b (s.log (.peek b)) := by
  simp only [State.primPeek, h]

theorem primPeek_nil (h : s.rxq = []) :
    ∃ b, s.primPeek = .broken { s.log (.peek b) with draws := s.draws + 1 } :=
  ⟨Config.breachByte s.draws 0, by simp only [State.primPeek, h]⟩

theorem primReadByte_cons {b : Byte} {rest : List Byte} (h : s.rxq = b :: rest) :
    s.primReadByte = .kept b { s.log (.readByte b) with rxq := rest } := by
  simp only [State.primReadByte, h]

theorem primReadByte_nil (h : s.rxq = []) :
    ∃ b, s.primReadByte = .broken { s.log (.readByte b) with draws := s.draws + 1 } :=
  ⟨Config.breachByte s.draws 0, by simp only [State.primReadByte, h]⟩

/-- A transport that keeps R58, with no short delivery listed next, delivers the first `n` bytes. -/
theorem primReadExactly_kept {n : Nat} (hd : ∀ d ∈ s.deliveries.head?, n ≤ d) (hn : n ≤ s.rxq.length) :
    s.primReadExactly n =
      .kept (s.rxq.take n)
        { s.log (.readExactly n (s.rxq.take n)) with rxq := s.rxq.drop n, deliveries := s.deliveries.tail } := by
  cases hs : s.deliveries with
  | nil => simp [State.primReadExactly, State.drawDelivery, hs, hn, State.log]
  | cons d ds =>
    have hnd : n ≤ d := hd d (by simp [hs])
    simp [State.primReadExactly, State.drawDelivery, hs, hn, hnd, State.log]

/-- A `ReadExactly` on a stream that is too short, or with a short delivery listed next, breaks its contract. -/
theorem primReadExactly_broken {n : Nat} (h : s.rxq.length < n ∨ ∃ d ds, s.deliveries = d :: ds ∧ d < n) :
    ∃ bytes rxq m, s.primReadExactly n =
      .broken { s.log (.readExactly n bytes) with rxq := rxq, deliveries := s.deliveries.tail, draws := m } := by
  cases hs : s.deliveries with
  | nil =>
    have hn : ¬ n ≤ s.rxq.length := by simpa [hs] using h
    exact ⟨(List.range (Config.breachCount s.draws % n)).map (Config.breachByte s.draws), Config.breachRxq s.draws,
      s.draws + 1, by simp [State.primReadExactly, State.drawDelivery, hs, hn, State.log]⟩
  | cons d ds =>
    have hn : ¬ (n ≤ d ∧ n ≤ s.rxq.length) := by
      rintro ⟨h1, h2⟩
      obtain h | ⟨d', ds', h, h'⟩ := h
      · omega
      · rw [hs] at h; cases h; omega
    exact ⟨_, _, _, by simp only [State.primReadExactly, State.drawDelivery, hs, hn, if_false]; rfl⟩

/-- A `ReadExactly` keeps its contract or breaks it. -/
theorem primReadExactly_condition (n : Nat) (s : State) :
    ((∀ d ∈ s.deliveries.head?, n ≤ d) ∧ n ≤ s.rxq.length) ∨
      (s.rxq.length < n ∨ ∃ d ds, s.deliveries = d :: ds ∧ d < n) := by
  rcases Nat.lt_or_ge s.rxq.length n with h | h
  · exact .inr (.inl h)
  · cases hs : s.deliveries with
    | nil => exact .inl ⟨by simp, h⟩
    | cons d ds =>
      rcases Nat.lt_or_ge d n with h' | h'
      · exact .inr (.inr ⟨d, ds, rfl, h'⟩)
      · exact .inl ⟨by simpa using h', h⟩

/-- A `Write` within its contract accepts a prefix; one that breaks it appends what the transport chose to take. -/
theorem primWrite_cases (buf : List Byte) (s : State) :
    (∃ k ks m, k ≤ buf.length ∧ s.primWrite buf =
      (k, .kept k { s.log (.write buf buf.length k) with
        writeCounts := ks, draws := m, txlog := s.txlog ++ buf.take k })) ∨
    (∃ k ks m bytes, buf.length < k ∧ s.writeCounts = k :: ks ∧ s.primWrite buf =
      (k, .broken { s.log (.write buf buf.length k) with
        writeCounts := ks, draws := m, txlog := s.txlog ++ bytes })) := by
  unfold State.primWrite State.drawWriteCount
  cases hs : s.writeCounts with
  | nil =>
    left
    have hk : Config.freeWriteCount s.draws % (buf.length + 1) ≤ buf.length :=
      Nat.lt_succ_iff.mp (Nat.mod_lt _ (Nat.succ_pos _))
    exact ⟨_, [], s.draws + 1, hk, by simp only [hk, if_true]; simp [State.log, ← hs]⟩
  | cons k ks =>
    by_cases hk : k ≤ buf.length
    · left; exact ⟨k, ks, s.draws, hk, by simp only [hk, if_true]; rfl⟩
    · right; exact ⟨k, ks, _, _, by omega, rfl, by simp only [hk, if_false]; rfl⟩

/-- A clock read advances the clock by the listed draw or a free one (R211). -/
theorem primNow_cases (s : State) :
    ∃ delta ds m, (∀ d rest, s.clockSteps = d :: rest → delta = d ∧ ds = rest ∧ m = s.draws) ∧
      s.primNow = (clockAfter s.clockWrap s.clock delta,
        { s.log (.now (clockAfter s.clockWrap s.clock delta)) with
          clock := clockAfter s.clockWrap s.clock delta, clockSteps := ds, draws := m }) := by
  unfold State.primNow State.drawClockStep
  cases hs : s.clockSteps with
  | nil => exact ⟨Config.freeClockStep s.draws, [], s.draws + 1, by simp, by simp [State.log, ← hs]⟩
  | cons d ds => exact ⟨d, ds, s.draws, by simp, rfl⟩

theorem primNow_cons {d : Nat} {ds : List Nat} (h : s.clockSteps = d :: ds) :
    s.primNow = (clockAfter s.clockWrap s.clock d,
      { s.log (.now (clockAfter s.clockWrap s.clock d)) with
        clock := clockAfter s.clockWrap s.clock d, clockSteps := ds }) := by
  simp only [State.primNow, State.drawClockStep, h]; rfl

/-- Under `forbidden` a clock read is at least the one before it (R211). -/
theorem clockAfter_forbidden_le (prev : Word) (delta : Nat) :
    prev.toNat ≤ (clockAfter .forbidden prev delta).toNat := by
  have h := prev.isLt
  simp only [clockAfter, BitVec.toNat_ofNat]
  omega

/-! ## The bracket of an operation -/

/-- An operation of one step, on a block that is ready. -/
theorem runAtomic_ready {i : Instr} {body : State → ResultRecord × State} (hi : i.check = none) (h : s.Ready) :
    runAtomic i body s =
      .next ((body (s.start i)).2.finish (body (s.start i)).1) := by
  simp [runAtomic, hi, h.2, State.faulted, h.1]

/-- Everything an operation of one step can do. -/
theorem runAtomic_next {i : Instr} {body : State → ResultRecord × State} (h : runAtomic i body s = .next s') :
    (s.faultMark ≠ none ∧ s' = s) ∨ (s.faultMark = none ∧ s.busy = true ∧ s' = s.raise .reentrantIssue) ∨
    (i.check = none ∧ s.Ready ∧
      s' = (body (s.start i)).2.finish (body (s.start i)).1) := by
  unfold runAtomic at h
  split at h
  · cases h
  · rename_i hi
    cases hf : s.faultMark with
    | some x =>
      have hs : s.faulted = true := by simp [State.faulted, hf]
      simp only [hs, if_true, Host.Outcome.next.injEq] at h
      exact .inl ⟨by simp, h.symm⟩
    | none =>
      have hs : s.faulted = false := by simp [State.faulted, hf]
      cases hb : s.busy with
      | true =>
        simp only [hs, hb, Bool.false_eq_true, if_false, if_true, Host.Outcome.next.injEq] at h
        exact .inr (.inl ⟨rfl, rfl, h.symm⟩)
      | false =>
        simp only [hs, hb, Bool.false_eq_true, if_false, Host.Outcome.next.injEq] at h
        exact .inr (.inr ⟨hi, ⟨hf, hb⟩, h.symm⟩)

/-- A blocking operation on a block that is ready is accepted. -/
theorem runBlocking_ready {i : Instr} {dl : Option Word} {p : Phase} {advance : Transient → State → Outcome}
    (hi : i.check = none) (h : s.Ready) : runBlocking i dl p advance s = .next (s.accept i dl p) := by
  simp [runBlocking, hi, h.2, State.faulted, h.1]

/-- A blocking operation in progress advances. -/
theorem runBlocking_running {i : Instr} {dl : Option Word} {p : Phase} {advance : Transient → State → Outcome}
    {tr : Transient} (hi : i.check = none) (h : s.Running tr) (ht : tr.op = i) :
    runBlocking i dl p advance s = advance tr s := by
  simp [runBlocking, hi, State.faulted, h.1, h.2.1, h.2.2, ht]

/-- Everything one step of a blocking operation can do. -/
theorem runBlocking_next {i : Instr} {dl : Option Word} {p : Phase} {advance : Transient → State → Outcome}
    (h : runBlocking i dl p advance s = .next s') :
    (s.faultMark ≠ none ∧ s' = s) ∨ (s.faultMark = none ∧ s.busy = true ∧ s' = s.raise .reentrantIssue) ∨
    (∃ tr, s.Running tr ∧ tr.op = i ∧ advance tr s = .next s') ∨ (i.check = none ∧ s.Ready ∧ s' = s.accept i dl p) := by
  unfold runBlocking at h
  split at h
  · cases h
  · rename_i hi
    cases hf : s.faultMark with
    | some x => simp [State.faulted, hf] at h; exact .inl ⟨by simp, h.symm⟩
    | none =>
      cases hb : s.busy with
      | false => simp [State.faulted, hf, hb] at h; exact .inr (.inr (.inr ⟨hi, ⟨hf, hb⟩, h.symm⟩))
      | true =>
        cases ht : s.transient with
        | none => simp [State.faulted, hf, hb, ht] at h; exact .inr (.inl ⟨rfl, rfl, h.symm⟩)
        | some tr =>
          by_cases ho : tr.op = i
          · simp [State.faulted, hf, hb, ht, ho] at h
            exact .inr (.inr (.inl ⟨tr, ⟨hf, hb, ht⟩, ho, h⟩))
          · simp [State.faulted, hf, hb, ht, ho] at h; exact .inr (.inl ⟨rfl, rfl, h.symm⟩)

/-! ## Turns and steps -/

/-- The step of a turn that is listed next. -/
theorem step_withTurn (turn : Turn) (s : State) : step (s.withTurn turn) = takeTurn turn s.dropResult := rfl

/-- The step of a run whose schedule names the next turn. -/
theorem step_scheduled {turn : Turn} {rest : List Turn} (h : s.schedule = turn :: rest) :
    step s = takeTurn turn { s with schedule := rest, result := none } := by
  simp only [step, State.nextTurn, h]; rfl

/-- Every step is a turn taken in the same state but for the schedule, the draw counter and the result record. -/
theorem step_eq (s : State) :
    ∃ rest m, step s = takeTurn s.nextTurn.1 { s with schedule := rest, draws := m, result := none } := by
  have h : ∃ rest m, s.nextTurn.2 = { s with schedule := rest, draws := m } := by
    unfold State.nextTurn
    split
    · exact ⟨_, s.draws, rfl⟩
    · exact ⟨s.schedule, s.draws + 1, rfl⟩
  obtain ⟨rest, m, h⟩ := h
  exact ⟨rest, m, by rw [show step s = takeTurn s.nextTurn.1 s.nextTurn.2.dropResult from rfl, h]; rfl⟩

/-- A request on a block that is ready, in a run without foreign agent, runs. -/
theorem serve_ready {run : State → Outcome} (h : s.Ready) (ho : s.ownershipBroken = false) : s.serve run = run s := by
  simp [State.serve, State.faulted, h.1, h.2, ho]

/-- Everything a request that is not refused can do. -/
theorem serve_next {run : State → Outcome} (h : s.serve run = .next s') :
    (s.faultMark ≠ none ∧ s' = s) ∨ (s.faultMark = none ∧ s.busy = true ∧ s' = s.raise .reentrantIssue) ∨
    (s.Ready ∧ s.ownershipBroken = true ∧ s' = s.unconstrained) ∨
    (s.Ready ∧ s.ownershipBroken = false ∧ run s = .next s') := by
  unfold State.serve at h
  cases hf : s.faultMark with
  | some x => simp [State.faulted, hf] at h; exact .inl ⟨by simp, h.symm⟩
  | none =>
    cases hb : s.busy with
    | true => simp [State.faulted, hf, hb] at h; exact .inr (.inl ⟨rfl, rfl, h.symm⟩)
    | false =>
      cases ho : s.ownershipBroken with
      | true => simp [State.faulted, hf, hb, ho] at h; exact .inr (.inr (.inl ⟨⟨hf, hb⟩, rfl, h.symm⟩))
      | false => simp [State.faulted, hf, hb, ho] at h; exact .inr (.inr (.inr ⟨⟨hf, hb⟩, rfl, h⟩))

/-- A request that reads as an operation, on a block that is ready, in a run without foreign agent. -/
theorem offer_ready {r : Request} {i : Instr} (hd : decode r = .instr i) (h : s.Ready) (ho : s.ownershipBroken = false) :
    offer r s = exec i s := by
  simp only [offer, hd, serve_ready h ho]

/-- A reserved OP on a block that is ready. -/
theorem execReserved_ready {op : Byte} (h : s.Ready) :
    execReserved op s = .next ((s.log (.issueReserved op)).finish ⟨.illegalOperation, .none⟩) := by
  simp [execReserved, State.faulted, h.1, h.2]

/-- Everything a request can do. -/
theorem offer_next {r : Request} (h : offer r s = .next s') :
    (s.faultMark ≠ none ∧ s' = s) ∨ (s.faultMark = none ∧ s.busy = true ∧ s' = s.raise .reentrantIssue) ∨
    (s.Ready ∧ s.ownershipBroken = true ∧ s' = s.unconstrained) ∨
    (s.Ready ∧ s.ownershipBroken = false ∧ ∃ i, decode r = .instr i ∧ exec i s = .next s') ∨
    (s.Ready ∧ s.ownershipBroken = false ∧ ∃ op, decode r = .reserved op ∧
      s' = (s.log (.issueReserved op)).finish ⟨.illegalOperation, .none⟩) := by
  unfold offer at h
  cases hd : decode r with
  | rejected why => simp [hd] at h
  | reserved op =>
    simp only [hd] at h
    obtain h | h | h | ⟨hr, ho, h⟩ := serve_next h
    · exact .inl h
    · exact .inr (.inl h)
    · exact .inr (.inr (.inl h))
    · exact .inr (.inr (.inr (.inr ⟨hr, ho, op, rfl, (Host.Outcome.next.inj ((execReserved_ready hr).symm.trans h)).symm⟩)))
  | instr i =>
    simp only [hd] at h
    obtain h | h | h | ⟨hr, ho, h⟩ := serve_next h
    · exact .inl h
    · exact .inr (.inl h)
    · exact .inr (.inr (.inl h))
    · exact .inr (.inr (.inr (.inl ⟨hr, ho, i, rfl, h⟩)))

/-- A block turn of an operation in progress, in a run without foreign agent. -/
theorem blockTurn_running {tr : Transient} (h : s.Running tr) (ho : s.ownershipBroken = false) :
    blockTurn s = exec tr.op s := by
  simp [blockTurn, State.faulted, h.1, h.2.1, h.2.2, ho]

/-- A block turn of an operation in progress, after a foreign agent touched the transport. -/
theorem blockTurn_broken {tr : Transient} (h : s.Running tr) (ho : s.ownershipBroken = true) :
    blockTurn s = .next ((observeBreach tr s).getD s.unconstrained) := by
  simp [blockTurn, State.faulted, h.1, h.2.1, h.2.2, ho]

/-- What the block has observed of a broken contract is the next state of its call, with the fault mark set. -/
theorem observeBreach_eq_some {tr : Transient} :
    observeBreach tr s = some s' ↔ exec tr.op s = .next s' ∧ s'.faultMark = some .transportContract := by
  unfold observeBreach
  cases exec tr.op s with
  | next s1 =>
    by_cases h : s1.faultMark = some .transportContract
    · simp only [h, if_true, Option.some.injEq, Host.Outcome.next.injEq]
      exact ⟨fun e => ⟨e, e ▸ h⟩, fun e => e.1⟩
    · simp only [h, if_false, reduceCtorEq, Host.Outcome.next.injEq, false_iff]
      rintro ⟨rfl, h'⟩; exact h h'
  | fault r => simp
  | refused r => simp

/-- Everything a block turn can do. -/
theorem blockTurn_next (h : blockTurn s = .next s') :
    ((s.faultMark ≠ none ∨ s.busy = false) ∧ s' = s) ∨
    (s.ownershipBroken = false ∧ ∃ tr, s.Running tr ∧ exec tr.op s = .next s') ∨
    (s.faultMark = none ∧ s.busy = true ∧ s.ownershipBroken = true ∧
      (s' = s.unconstrained ∨
        ∃ tr, s.Running tr ∧ exec tr.op s = .next s' ∧ s'.faultMark = some .transportContract)) := by
  unfold blockTurn at h
  cases hf : s.faultMark with
  | some x => simp [State.faulted, hf] at h; exact .inl ⟨.inl (by simp), h.symm⟩
  | none =>
    cases hb : s.busy with
    | false => simp [State.faulted, hf, hb] at h; exact .inl ⟨.inr rfl, h.symm⟩
    | true =>
      simp only [State.faulted, hf, hb, Option.isSome_none, Bool.false_eq_true, if_false, if_true] at h
      cases ho : s.ownershipBroken with
      | false =>
        cases ht : s.transient with
        | none => simp [ho, ht] at h
        | some tr =>
          simp only [ho, ht, Bool.false_eq_true, if_false] at h
          exact .inr (.inl ⟨rfl, tr, ⟨hf, hb, ht⟩, h⟩)
      | true =>
        simp only [ho, if_true, Host.Outcome.next.injEq] at h
        refine .inr (.inr ⟨rfl, rfl, rfl, ?_⟩)
        cases ht : s.transient with
        | none => simp only [ht, Option.bind_none, Option.getD_none] at h; exact .inl h.symm
        | some tr =>
          simp only [ht, Option.bind_some] at h
          cases hobs : observeBreach tr s with
          | none => simp only [hobs, Option.getD_none] at h; exact .inl h.symm
          | some s1 =>
            simp only [hobs, Option.getD_some] at h
            subst h
            exact .inr ⟨tr, ⟨hf, hb, ht⟩, observeBreach_eq_some.1 hobs⟩

/-- An operation in progress that is advanced `n + 1` times goes on from its first step. -/
theorem execTimes_next {i : Instr} {n : Nat} (h : exec i s = .next s') : execTimes i (n + 1) s = execTimes i n s' := by
  simp [execTimes, h]

theorem execTimes_add {i : Instr} {n m : Nat} (h : execTimes i n s = .next s') :
    execTimes i (n + m) s = execTimes i m s' := by
  induction n generalizing s with
  | zero => simp only [execTimes, Host.Outcome.next.injEq] at h; simp [h]
  | succ n ih =>
    rw [Nat.add_right_comm]
    cases he : exec i s with
    | next s1 => rw [execTimes_next he] at h ⊢; exact ih h
    | fault r => simp [execTimes, he] at h
    | refused r => simp [execTimes, he] at h

end Sys2Proof.Machine
end

