-- ==== Sys2Proof/Laws/Advance.lean ====
section
/-! SUPPORT. What one step of each blocking operation can do, said once for each point of its pseudocode, and what `exec` can
do for any operation: the lemmas to cite instead of unfolding a meaning. -/

namespace Sys2Proof.Machine

variable {s s' : State} {tr : Transient}

/-! ## Shared points -/

/-- The clock point goes on to another attempt exactly while the value read is below the deadline. -/
theorem advanceClock_next {retry expired : Phase} (h : advanceClock retry expired tr s = .next s') :
    ∃ dl delta ds m, tr.dl = some dl ∧ (∀ d rest, s.clockSteps = d :: rest → delta = d ∧ ds = rest ∧ m = s.draws) ∧
      s' = { s with
        clock := clockAfter s.clockWrap s.clock delta, clockSteps := ds, draws := m,
        history := s.history ++ [.now (clockAfter s.clockWrap s.clock delta)],
        transient := some { tr with
          phase := if (clockAfter s.clockWrap s.clock delta).toNat < dl.toNat then retry else expired } } := by
  unfold advanceClock at h
  cases hd : tr.dl with
  | none => simp [hd] at h
  | some dl =>
    obtain ⟨delta, ds, m, hm, hn⟩ := primNow_cases s
    simp only [hd, hn, Host.Outcome.next.injEq] at h
    exact ⟨dl, delta, ds, m, rfl, hm, by rw [← h]; simp [hd, State.goto, State.log, beforeDeadline, BitVec.ult]⟩

/-- The first point of `seek_body`: an empty stream ends the seek. -/
theorem advanceSeekAvail_eq (atEnd : Bool → Phase) :
    advanceSeekAvail atEnd tr s =
      .next { s with
        history := s.history ++ [.avail s.rxq.length],
        transient := some { tr with phase := if s.rxq = [] then atEnd false else .seekPeek } } := by
  simp [advanceSeekAvail, State.primAvail, State.goto, State.log]

/-- The second point of `seek_body` on a stream that is not empty. -/
theorem advanceSeekPeek_cons (atEnd : Bool → Phase) {b : Byte} {rest : List Byte} (h : s.rxq = b :: rest) :
    advanceSeekPeek atEnd tr s =
      .next { s with
        history := s.history ++ [.peek b],
        transient := some { tr with phase := if b = 0xAA then atEnd true else .seekDrop } } := by
  simp only [advanceSeekPeek, primPeek_cons h]; rfl

/-- The second point of `seek_body` on an empty stream: the contract is broken. -/
theorem advanceSeekPeek_nil (atEnd : Bool → Phase) (h : s.rxq = []) :
    ∃ b, advanceSeekPeek atEnd tr s =
      .next (({ s with history := s.history ++ [.peek b], draws := s.draws + 1 } : State).raise .transportContract) := by
  obtain ⟨b, hb⟩ := primPeek_nil h
  exact ⟨b, by simp only [advanceSeekPeek, hb]; rfl⟩

/-- The third point of `seek_body` on a stream that is not empty. -/
theorem advanceSeekDrop_cons {b : Byte} {rest : List Byte} (h : s.rxq = b :: rest) :
    advanceSeekDrop tr s =
      .next { s with
        history := s.history ++ [.readByte b], rxq := rest, transient := some { tr with phase := .seekAvail } } := by
  simp only [advanceSeekDrop, primReadByte_cons h]; rfl

/-- The third point of `seek_body` on an empty stream: the contract is broken. -/
theorem advanceSeekDrop_nil (h : s.rxq = []) :
    ∃ b, advanceSeekDrop tr s =
      .next (({ s with history := s.history ++ [.readByte b], draws := s.draws + 1 } : State).raise .transportContract) := by
  obtain ⟨b, hb⟩ := primReadByte_nil h
  exact ⟨b, by simp only [advanceSeekDrop, hb]; rfl⟩

/-- The write point of SEND_FRAME: a prefix is accepted, or the contract is broken. -/
theorem advanceWrite_cases (buf : List Byte) (tr : Transient) (s : State) :
    (∃ k ks m, k ≤ buf.length ∧ advanceWrite buf tr s =
      .next { s with
        writeCounts := ks, draws := m, txlog := s.txlog ++ buf.take k,
        history := s.history ++ [.write buf buf.length k],
        transient := some { tr with k := k, phase := if 0 < k then .retSent else .yield } }) ∨
    (∃ k ks m bytes, buf.length < k ∧ s.writeCounts = k :: ks ∧ advanceWrite buf tr s =
      .next (({ s with
        writeCounts := ks, draws := m, txlog := s.txlog ++ bytes, history := s.history ++ [.write buf buf.length k],
        transient := some { tr with k := k, phase := .write } } : State).raise .transportContract)) := by
  unfold advanceWrite
  obtain ⟨k, ks, m, hk, h⟩ | ⟨k, ks, m, bytes, hk, hw, h⟩ := primWrite_cases buf s
  · exact .inl ⟨k, ks, m, hk, by rw [h]; rfl⟩
  · exact .inr ⟨k, ks, m, bytes, hk, hw, by rw [h]; rfl⟩

/-- The point of RECEIVE_FRAME that counts the bytes behind a found head. -/
theorem advanceCountAvail_eq (tr : Transient) (s : State) :
    advanceCountAvail tr s =
      .next { s with
        history := s.history ++ [.avail s.rxq.length],
        transient := some { tr with phase := if 10 ≤ s.rxq.length then .take else .yield } } := rfl

/-- The `ReadExactly` point of a transport that keeps R58: the first ten bytes are held. -/
theorem advanceTake_kept (tr : Transient) (hd : ∀ d ∈ s.deliveries.head?, 10 ≤ d) (hn : 10 ≤ s.rxq.length) :
    advanceTake tr s =
      .next { s with
        rxq := s.rxq.drop 10, deliveries := s.deliveries.tail,
        history := s.history ++ [.readExactly 10 (s.rxq.take 10)],
        transient := some { tr with buf := s.rxq.take 10, phase := .retFrame } } := by
  rw [advanceTake, primReadExactly_kept (n := Config.respLen) hd hn]; rfl

/-- The `ReadExactly` point of a transport that breaks R58. -/
theorem advanceTake_broken (tr : Transient) (h : s.rxq.length < 10 ∨ ∃ d ds, s.deliveries = d :: ds ∧ d < 10) :
    ∃ bytes rxq m, advanceTake tr s =
      .next (({ s with
        rxq := rxq, deliveries := s.deliveries.tail, draws := m,
        history := s.history ++ [.readExactly 10 bytes] } : State).raise .transportContract) := by
  obtain ⟨bytes, rxq, m, hb⟩ := primReadExactly_broken (n := Config.respLen) h
  exact ⟨bytes, rxq, m, by rw [advanceTake, hb]; rfl⟩

/-! ## The operations -/

/-- An operation in progress does what its pseudocode says at the point reached. -/
theorem exec_running (h : s.Running tr) (hi : tr.op.check = none) :
    exec tr.op s =
      match tr.op with
      | .sendFrame buf _ => advanceSendFrame buf tr s
      | .seekFrameStart => advanceSeekFrameStart tr s
      | .receiveFrame _ => advanceReceiveFrame tr s
      | .setTimeout _ | .getTimeout | .mkDeadline _ | .csum _ | .buildCommand _ _ _ | .decodeCommand _
      | .validateChecksum _ _ | .checkFrame _ _ | .decodeResponse _ => .next (s.raise .reentrantIssue) := by
  obtain ⟨hf, hb, ht⟩ := h
  cases ho : tr.op <;> rw [ho] at hi <;>
    simp [exec, execSetTimeout, execGetTimeout, execMkDeadline, execCsum, execBuildCommand, execDecodeCommand,
      execValidateChecksum, execCheckFrame, execDecodeResponse, execSendFrame, execSeekFrameStart, execReceiveFrame,
      runAtomic, runBlocking, hi, State.faulted, hf, hb, ht, ho]

/-- Everything any operation can do in one step. An operation of one step changes the timeout register, the clock, its draws
and the history at most; an acceptance begins a blocking operation at its first point. -/
theorem exec_next {i : Instr} (h : exec i s = .next s') :
    (s.faultMark ≠ none ∧ s' = s) ∨ (s.faultMark = none ∧ s.busy = true ∧ s' = s.raise .reentrantIssue) ∨
    (∃ t, s.Running t ∧ t.op = i ∧ IsBlocking i ∧ i.check = none ∧ exec i s = .next s') ∨
    (i.check = none ∧ s.Ready ∧ IsBlocking i ∧ ∃ p, s' = s.accept i (deadlineOf i) p ∧ pointOf i p = true ∧
      (p = .write ∨ p = .seekAvail)) ∨
    (i.check = none ∧ s.Ready ∧ ¬ IsBlocking i ∧ ∃ s1 r, s' = s1.finish r ∧
      (s1 = s.start i ∨ (∃ t, i = .setTimeout t ∧ s1 = { s.start i with timeoutMs := t }) ∨
        (∃ t delta ds m, i = .mkDeadline t ∧ s1 = { s.start i with
          clock := clockAfter s.clockWrap s.clock delta, clockSteps := ds, draws := m,
          history := s.history ++ [.issue i, .now (clockAfter s.clockWrap s.clock delta)] })) ∧
      (r.status = .ok ∨ ∃ kind f, i = .checkFrame kind f ∧ r.status = frameStatus kind f) ∧
      (∀ f, r.outputs ≠ .received f) ∧ (∀ b, r.outputs ≠ .found b)) := by
  have h0 := h
  cases i
  case sendFrame | seekFrameStart | receiveFrame =>
    simp only [exec, execSendFrame, execSeekFrameStart, execReceiveFrame] at h
    obtain h | h | ⟨t, hr, ho, h⟩ | ⟨hi, hr, h⟩ := runBlocking_next h
    · exact .inl h
    · exact .inr (.inl h)
    · have hi : (t.op).check = none := by
        by_contra hc
        rw [ho] at hc
        revert h0; unfold exec; simp only [execSendFrame, execSeekFrameStart, execReceiveFrame, runBlocking]
        split
        · simp
        · contradiction
      exact .inr (.inr (.inl ⟨t, hr, ho, by simp [IsBlocking, Instr.opcode, opByte], ho ▸ hi, h0⟩))
    · exact .inr (.inr (.inr (.inl ⟨hi, hr, by simp [IsBlocking, Instr.opcode, opByte], _, h, rfl, by simp⟩)))
  case mkDeadline t =>
    obtain h | h | ⟨hi, hr, h⟩ := runAtomic_next (i := .mkDeadline t) (by simpa only [exec, execMkDeadline] using h)
    · exact .inl h
    · exact .inr (.inl h)
    · obtain ⟨delta, ds, m, -, hn⟩ := primNow_cases (s.start (.mkDeadline t))
      rw [hn] at h
      refine .inr (.inr (.inr (.inr ⟨hi, hr, by simp [IsBlocking, Instr.opcode, opByte], _, _, h, ?_, ?_, ?_, ?_⟩)))
      · exact .inr (.inr ⟨t, delta, ds, m, rfl, by simp [State.log, State.start]⟩)
      all_goals simp
  all_goals
    simp only [exec, execSetTimeout, execGetTimeout, execCsum, execBuildCommand, execDecodeCommand,
      execValidateChecksum, execCheckFrame, execDecodeResponse] at h
    obtain h | h | ⟨hi, hr, h⟩ := runAtomic_next h
    · exact .inl h
    · exact .inr (.inl h)
    · refine .inr (.inr (.inr (.inr ⟨hi, hr, by simp [IsBlocking, Instr.opcode, opByte], _, _, h, ?_, ?_, ?_, ?_⟩))) <;>
        simp [frameStatus]

/-- Every operation that is in progress in a sound transient state: what one step of SEND_FRAME can do. -/
theorem advanceSendFrame_next {buf : List Byte} (h : advanceSendFrame buf tr s = .next s') :
    (tr.phase = .write ∧ advanceWrite buf tr s = .next s') ∨
    (tr.phase = .yield ∧
      s' = { s with history := s.history ++ [.yield], transient := some { tr with phase := .clock } }) ∨
    (tr.phase = .clock ∧ advanceClock .write .retWriteTimeout tr s = .next s') ∨
    (tr.phase = .retSent ∧ s' = s.finish ⟨.ok, .sent (BitVec.ofNat 8 tr.k)⟩) ∨
    (tr.phase = .retWriteTimeout ∧ s' = s.finish ⟨.transportWriteTimeout, .sent 0⟩) := by
  unfold advanceSendFrame at h
  cases hp : tr.phase <;> simp only [hp, reduceCtorEq, Host.Outcome.next.injEq, advanceYield] at h <;>
    simp [← h, State.goto, State.primYield, State.log]

/-- What one step of SEEK_FRAME_START can do. -/
theorem advanceSeekFrameStart_next (h : advanceSeekFrameStart tr s = .next s') :
    (tr.phase = .seekAvail ∧ advanceSeekAvail .retFound tr s = .next s') ∨
    (tr.phase = .seekPeek ∧ advanceSeekPeek .retFound tr s = .next s') ∨
    (tr.phase = .seekDrop ∧ advanceSeekDrop tr s = .next s') ∨
    (∃ b, tr.phase = .retFound b ∧ s' = s.finish ⟨.ok, .found b⟩) := by
  unfold advanceSeekFrameStart at h
  cases hp : tr.phase <;> simp only [hp, reduceCtorEq, Host.Outcome.next.injEq] at h <;> simp [h]

/-- What one step of RECEIVE_FRAME can do. -/
theorem advanceReceiveFrame_next (h : advanceReceiveFrame tr s = .next s') :
    (tr.phase = .seekAvail ∧ advanceSeekAvail afterSeek tr s = .next s') ∨
    (tr.phase = .seekPeek ∧ advanceSeekPeek afterSeek tr s = .next s') ∨
    (tr.phase = .seekDrop ∧ advanceSeekDrop tr s = .next s') ∨
    (tr.phase = .countAvail ∧
      s' = { s with
        history := s.history ++ [.avail s.rxq.length],
        transient := some { tr with phase := if 10 ≤ s.rxq.length then .take else .yield } }) ∨
    (tr.phase = .take ∧ advanceTake tr s = .next s') ∨
    (tr.phase = .yield ∧
      s' = { s with history := s.history ++ [.yield], transient := some { tr with phase := .clock } }) ∨
    (tr.phase = .clock ∧ advanceClock .seekAvail .retReadTimeout tr s = .next s') ∨
    (tr.phase = .retFrame ∧ s' = s.finish ⟨.ok, .received tr.buf⟩) ∨
    (tr.phase = .retReadTimeout ∧ s' = s.finish ⟨.transportReadTimeout, .none⟩) := by
  unfold advanceReceiveFrame at h
  cases hp : tr.phase <;> simp only [hp, reduceCtorEq, Host.Outcome.next.injEq, advanceYield] at h <;>
    simp [← h, State.goto, State.primYield, State.log, advanceCountAvail, State.primAvail, Config.respLen]
  all_goals
    simp only [advanceCountAvail, State.primAvail, Host.Outcome.next.injEq] at h
    rw [← h]; rfl

/-- A run of `k + 1` steps goes on from its first step. -/
theorem run_next {k : Nat} (h : step s = .next s') :
    Host.Core.run Sys2Proof.core (k + 1) s = Host.Core.run Sys2Proof.core k s' := by
  simp only [Host.Core.run, show Sys2Proof.core.step s = .next s' from h]

/-- The state a turn is taken in: the schedule and the draw counter have moved on, and no result record is shown. -/
def State.atTurn (rest : List Turn) (m : Nat) (s : State) : State := { s with schedule := rest, draws := m, result := none }

/-- Everything one step of the machine can do: one agent's turn. The last case is that of a run which a foreign agent has
touched. -/
theorem step_next (h : step s = .next s') :
    ∃ rest m,
      (s.faultMark ≠ none ∧ s' = s.atTurn rest m) ∨
      (s.nextTurn.1 = .block ∧ s.busy = false ∧ s' = s.atTurn rest m) ∨
      (s.nextTurn.1 = .block ∧ ∃ tr, s.Running tr ∧ s.ownershipBroken = false ∧
        exec tr.op (s.atTurn rest m) = .next s') ∨
      (∃ r, s.nextTurn.1 = .issue r ∧ s.faultMark = none ∧ s.busy = true ∧
        s' = (s.atTurn rest m).raise .reentrantIssue) ∨
      (∃ r i, s.nextTurn.1 = .issue r ∧ s.Ready ∧ decode r = .instr i ∧ s.ownershipBroken = false ∧
        exec i (s.atTurn rest m) = .next s') ∨
      (∃ r op, s.nextTurn.1 = .issue r ∧ s.Ready ∧ decode r = .reserved op ∧ s.ownershipBroken = false ∧
        s' = ((s.atTurn rest m).log (.issueReserved op)).finish ⟨.illegalOperation, .none⟩) ∨
      (∃ bytes, s.nextTurn.1 = .arrive bytes ∧ s' = { s.atTurn rest m with rxq := s.rxq ++ bytes }) ∨
      (s.nextTurn.1 = .reset ∧ s' = (s.atTurn rest m).blockReset) ∨
      (∃ n, s.nextTurn.1 = .foreignRead n ∧ s' = { (s.atTurn rest m).markForeign with rxq := s.rxq.drop n }) ∨
      (∃ bytes, s.nextTurn.1 = .foreignWrite bytes ∧
        s' = { (s.atTurn rest m).markForeign with txlog := s.txlog ++ bytes }) ∨
      (s.faultMark = none ∧ s.ownershipBroken = true ∧
        (s' = (s.atTurn rest m).unconstrained ∨
          ∃ tr, s.nextTurn.1 = .block ∧ s.Running tr ∧ exec tr.op (s.atTurn rest m) = .next s' ∧
            s'.faultMark = some .transportContract)) := by
  obtain ⟨rest, m, hs⟩ := step_eq s
  rw [hs] at h
  refine ⟨rest, m, ?_⟩
  cases ht : s.nextTurn.1 with
  | block =>
    rw [ht] at h
    obtain ⟨hc | hc, h⟩ | ⟨ho, tr, hr, h⟩ | ⟨hf, -, ho, h⟩ := blockTurn_next h
    · exact .inl ⟨hc, h⟩
    · exact .inr (.inl ⟨rfl, hc, h⟩)
    · exact .inr (.inr (.inl ⟨rfl, tr, hr, ho, h⟩))
    · refine .inr (.inr (.inr (.inr (.inr (.inr (.inr (.inr (.inr (.inr ⟨hf, ho, ?_⟩)))))))))
      exact h.imp id fun ⟨tr, hr, he⟩ => ⟨tr, rfl, hr, he⟩
  | issue r =>
    rw [ht] at h
    obtain ⟨hc, h⟩ | ⟨hf, hb, h⟩ | ⟨hr, ho, h⟩ | ⟨hr, ho, i, hd, h⟩ | ⟨hr, ho, op, hd, h⟩ := offer_next h
    · exact .inl ⟨hc, h⟩
    · exact .inr (.inr (.inr (.inl ⟨r, rfl, hf, hb, h⟩)))
    · exact .inr (.inr (.inr (.inr (.inr (.inr (.inr (.inr (.inr (.inr ⟨hr.1, ho, .inl h⟩)))))))))
    · exact .inr (.inr (.inr (.inr (.inl ⟨r, i, rfl, hr, hd, ho, h⟩))))
    · exact .inr (.inr (.inr (.inr (.inr (.inl ⟨r, op, rfl, hr, hd, ho, h⟩)))))
  | arrive bytes =>
    rw [ht] at h
    simp only [takeTurn, Host.Outcome.next.injEq] at h
    exact .inr (.inr (.inr (.inr (.inr (.inr (.inl ⟨bytes, rfl, h.symm⟩))))))
  | reset =>
    rw [ht] at h
    simp only [takeTurn, Host.Outcome.next.injEq] at h
    exact .inr (.inr (.inr (.inr (.inr (.inr (.inr (.inl ⟨rfl, h.symm⟩)))))))
  | foreignRead n =>
    rw [ht] at h
    simp only [takeTurn, Host.Outcome.next.injEq] at h
    exact .inr (.inr (.inr (.inr (.inr (.inr (.inr (.inr (.inl ⟨n, rfl, h.symm⟩))))))))
  | foreignWrite bytes =>
    rw [ht] at h
    simp only [takeTurn, Host.Outcome.next.injEq] at h
    exact .inr (.inr (.inr (.inr (.inr (.inr (.inr (.inr (.inr (.inl ⟨bytes, rfl, h.symm⟩)))))))))

/-- Everything one step can do in a run that no foreign agent has touched before it. -/
theorem step_next_untouched (h : step s = .next s') (ho : s.ownershipBroken = false) :
    ∃ rest m,
      (s.faultMark ≠ none ∧ s' = s.atTurn rest m) ∨
      (s.nextTurn.1 = .block ∧ s.busy = false ∧ s' = s.atTurn rest m) ∨
      (s.nextTurn.1 = .block ∧ ∃ tr, s.Running tr ∧ exec tr.op (s.atTurn rest m) = .next s') ∨
      (∃ r, s.nextTurn.1 = .issue r ∧ s.faultMark = none ∧ s.busy = true ∧
        s' = (s.atTurn rest m).raise .reentrantIssue) ∨
      (∃ r i, s.nextTurn.1 = .issue r ∧ s.Ready ∧ decode r = .instr i ∧ exec i (s.atTurn rest m) = .next s') ∨
      (∃ r op, s.nextTurn.1 = .issue r ∧ s.Ready ∧ decode r = .reserved op ∧
        s' = ((s.atTurn rest m).log (.issueReserved op)).finish ⟨.illegalOperation, .none⟩) ∨
      (∃ bytes, s.nextTurn.1 = .arrive bytes ∧ s' = { s.atTurn rest m with rxq := s.rxq ++ bytes }) ∨
      (s.nextTurn.1 = .reset ∧ s' = (s.atTurn rest m).blockReset) ∨
      (∃ n, s.nextTurn.1 = .foreignRead n ∧ s' = { (s.atTurn rest m).markForeign with rxq := s.rxq.drop n }) ∨
      (∃ bytes, s.nextTurn.1 = .foreignWrite bytes ∧
        s' = { (s.atTurn rest m).markForeign with txlog := s.txlog ++ bytes }) := by
  obtain ⟨rest, m, h⟩ := step_next h
  refine ⟨rest, m, ?_⟩
  simpa only [ho, true_and, Bool.false_eq_true, false_and, and_false, or_false] using h

/-- One step of an operation in progress, point by point: the step relation of the three blocking operations. -/
inductive BlockStep (tr : Transient) (s : State) : State → Prop where
  | wrote (buf dl k ks m) (op : tr.op = .sendFrame buf dl) (at_ : tr.phase = .write) (le : k ≤ buf.length) :
    BlockStep tr s { s with
      writeCounts := ks, draws := m, txlog := s.txlog ++ buf.take k,
      history := s.history ++ [.write buf buf.length k],
      transient := some { tr with k := k, phase := if 0 < k then .retSent else .yield } }
  | overwrote (buf dl k ks m bytes) (op : tr.op = .sendFrame buf dl) (at_ : tr.phase = .write) (gt : buf.length < k)
      (listed : s.writeCounts = k :: ks) :
    BlockStep tr s (({ s with
      writeCounts := ks, draws := m, txlog := s.txlog ++ bytes, history := s.history ++ [.write buf buf.length k],
      transient := some { tr with k := k, phase := .write } } : State).raise .transportContract)
  | yielded (at_ : tr.phase = .yield) (seek : tr.op ≠ .seekFrameStart) :
    BlockStep tr s { s with history := s.history ++ [.yield], transient := some { tr with phase := .clock } }
  | clocked (dl delta ds m retry expired) (at_ : tr.phase = .clock) (deadline : tr.dl = some dl)
      (op : (∃ buf d, tr.op = .sendFrame buf d ∧ retry = .write ∧ expired = .retWriteTimeout) ∨
        ∃ d, tr.op = .receiveFrame d ∧ retry = .seekAvail ∧ expired = .retReadTimeout) :
    BlockStep tr s { s with
      clock := clockAfter s.clockWrap s.clock delta, clockSteps := ds, draws := m,
      history := s.history ++ [.now (clockAfter s.clockWrap s.clock delta)],
      transient := some { tr with
        phase := if (clockAfter s.clockWrap s.clock delta).toNat < dl.toNat then retry else expired } }
  | sent (buf dl) (op : tr.op = .sendFrame buf dl) (at_ : tr.phase = .retSent) :
    BlockStep tr s (s.finish ⟨.ok, .sent (BitVec.ofNat 8 tr.k)⟩)
  | writeTimeout (buf dl) (op : tr.op = .sendFrame buf dl) (at_ : tr.phase = .retWriteTimeout) :
    BlockStep tr s (s.finish ⟨.transportWriteTimeout, .sent 0⟩)
  | soughtEmpty (p) (at_ : tr.phase = .seekAvail) (empty : s.rxq = [])
      (op : (tr.op = .seekFrameStart ∧ p = .retFound false) ∨ ∃ d, tr.op = .receiveFrame d ∧ p = .yield) :
    BlockStep tr s { s with history := s.history ++ [.avail s.rxq.length], transient := some { tr with phase := p } }
  | sought (at_ : tr.phase = .seekAvail) (some_ : s.rxq ≠ []) (op : tr.op = .seekFrameStart ∨ ∃ d, tr.op = .receiveFrame d) :
    BlockStep tr s { s with
      history := s.history ++ [.avail s.rxq.length], transient := some { tr with phase := .seekPeek } }
  | peekedHead (rest p) (at_ : tr.phase = .seekPeek) (front : s.rxq = 0xAA :: rest)
      (op : (tr.op = .seekFrameStart ∧ p = .retFound true) ∨ ∃ d, tr.op = .receiveFrame d ∧ p = .countAvail) :
    BlockStep tr s { s with history := s.history ++ [.peek 0xAA], transient := some { tr with phase := p } }
  | peekedOther (b rest) (at_ : tr.phase = .seekPeek) (front : s.rxq = b :: rest) (other : b ≠ 0xAA)
      (op : tr.op = .seekFrameStart ∨ ∃ d, tr.op = .receiveFrame d) :
    BlockStep tr s { s with history := s.history ++ [.peek b], transient := some { tr with phase := .seekDrop } }
  | peekedNothing (b) (at_ : tr.phase = .seekPeek) (empty : s.rxq = [])
      (op : tr.op = .seekFrameStart ∨ ∃ d, tr.op = .receiveFrame d) :
    BlockStep tr s
      (({ s with history := s.history ++ [.peek b], draws := s.draws + 1 } : State).raise .transportContract)
  | dropped (b rest) (at_ : tr.phase = .seekDrop) (front : s.rxq = b :: rest)
      (op : tr.op = .seekFrameStart ∨ ∃ d, tr.op = .receiveFrame d) :
    BlockStep tr s { s with
      history := s.history ++ [.readByte b], rxq := rest, transient := some { tr with phase := .seekAvail } }
  | droppedNothing (b) (at_ : tr.phase = .seekDrop) (empty : s.rxq = [])
      (op : tr.op = .seekFrameStart ∨ ∃ d, tr.op = .receiveFrame d) :
    BlockStep tr s
      (({ s with history := s.history ++ [.readByte b], draws := s.draws + 1 } : State).raise .transportContract)
  | found (b) (op : tr.op = .seekFrameStart) (at_ : tr.phase = .retFound b) :
    BlockStep tr s (s.finish ⟨.ok, .found b⟩)
  | counted (dl) (op : tr.op = .receiveFrame dl) (at_ : tr.phase = .countAvail) :
    BlockStep tr s { s with
      history := s.history ++ [.avail s.rxq.length],
      transient := some { tr with phase := if 10 ≤ s.rxq.length then .take else .yield } }
  | took (dl) (op : tr.op = .receiveFrame dl) (at_ : tr.phase = .take) (enough : 10 ≤ s.rxq.length)
      (full : ∀ d ∈ s.deliveries.head?, 10 ≤ d) :
    BlockStep tr s { s with
      rxq := s.rxq.drop 10, deliveries := s.deliveries.tail, history := s.history ++ [.readExactly 10 (s.rxq.take 10)],
      transient := some { tr with buf := s.rxq.take 10, phase := .retFrame } }
  | tookShort (dl bytes rxq m) (op : tr.op = .receiveFrame dl) (at_ : tr.phase = .take)
      (breach : s.rxq.length < 10 ∨ ∃ d ds, s.deliveries = d :: ds ∧ d < 10) :
    BlockStep tr s (({ s with
      rxq := rxq, deliveries := s.deliveries.tail, draws := m,
      history := s.history ++ [.readExactly 10 bytes] } : State).raise .transportContract)
  | received (dl) (op : tr.op = .receiveFrame dl) (at_ : tr.phase = .retFrame) :
    BlockStep tr s (s.finish ⟨.ok, .received tr.buf⟩)
  | readTimeout (dl) (op : tr.op = .receiveFrame dl) (at_ : tr.phase = .retReadTimeout) :
    BlockStep tr s (s.finish ⟨.transportReadTimeout, .none⟩)

/-- The points of `seek_body` in either operation. -/
theorem BlockStep.of_seek {tr : Transient} (op : tr.op = .seekFrameStart ∨ ∃ d, tr.op = .receiveFrame d) {atEnd : Bool → Phase}
    (hend : (tr.op = .seekFrameStart ∧ atEnd = .retFound) ∨ ∃ d, tr.op = .receiveFrame d ∧ atEnd = afterSeek)
    (h : (tr.phase = .seekAvail ∧ advanceSeekAvail atEnd tr s = .next s') ∨
      (tr.phase = .seekPeek ∧ advanceSeekPeek atEnd tr s = .next s') ∨
      (tr.phase = .seekDrop ∧ advanceSeekDrop tr s = .next s')) : BlockStep tr s s' := by
  obtain ⟨hp, h⟩ | ⟨hp, h⟩ | ⟨hp, h⟩ := h
  · rw [advanceSeekAvail_eq] at h
    obtain rfl := Host.Outcome.next.inj h
    by_cases he : s.rxq = []
    · simp only [if_pos he]
      exact .soughtEmpty _ hp he (by obtain ⟨ho, rfl⟩ | ⟨d, ho, rfl⟩ := hend <;> simp [ho, afterSeek])
    · simp only [if_neg he]
      exact .sought hp he op
  · cases he : s.rxq with
    | nil =>
      obtain ⟨b, hb⟩ := advanceSeekPeek_nil (tr := tr) atEnd he
      obtain rfl := Host.Outcome.next.inj (hb.symm.trans h)
      exact .peekedNothing b hp he op
    | cons b rest =>
      obtain rfl := Host.Outcome.next.inj ((advanceSeekPeek_cons atEnd he).symm.trans h)
      by_cases hb : b = 0xAA
      · subst hb
        simp only [if_true]
        exact .peekedHead rest _ hp he (by obtain ⟨ho, rfl⟩ | ⟨d, ho, rfl⟩ := hend <;> simp [ho, afterSeek])
      · simp only [if_neg hb]
        exact .peekedOther b rest hp he hb op
  · cases he : s.rxq with
    | nil =>
      obtain ⟨b, hb⟩ := advanceSeekDrop_nil (tr := tr) he
      obtain rfl := Host.Outcome.next.inj (hb.symm.trans h)
      exact .droppedNothing b hp he op
    | cons b rest =>
      obtain rfl := Host.Outcome.next.inj ((advanceSeekDrop_cons he).symm.trans h)
      exact .dropped b rest hp he op

/-- Whatever a step of the operation in progress answers as a next state is one of these. -/
theorem exec_blockStep (hr : s.Running tr) (hb : IsBlocking tr.op) (hi : tr.op.check = none)
    (h : exec tr.op s = .next s') : BlockStep tr s s' := by
  rw [exec_running hr hi] at h
  cases ho : tr.op <;> rw [ho] at h hb
  case sendFrame buf dl =>
    obtain ⟨hp, h⟩ | ⟨hp, rfl⟩ | ⟨hp, h⟩ | ⟨hp, rfl⟩ | ⟨hp, rfl⟩ := advanceSendFrame_next h
    · obtain ⟨k, ks, m, hk, hw⟩ | ⟨k, ks, m, bytes, hk, hl, hw⟩ := advanceWrite_cases buf tr s
      · obtain rfl := Host.Outcome.next.inj (hw.symm.trans h)
        exact .wrote buf dl k ks m ho hp hk
      · obtain rfl := Host.Outcome.next.inj (hw.symm.trans h)
        exact .overwrote buf dl k ks m bytes ho hp hk hl
    · exact .yielded hp (by simp [ho])
    · obtain ⟨d, delta, ds, m, hd, -, rfl⟩ := advanceClock_next h
      exact .clocked d delta ds m _ _ hp hd (.inl ⟨buf, dl, ho, rfl, rfl⟩)
    · exact .sent buf dl ho hp
    · exact .writeTimeout buf dl ho hp
  case seekFrameStart =>
    obtain h1 | h1 | h1 | ⟨b, hp, rfl⟩ := advanceSeekFrameStart_next h
    · exact .of_seek (.inl ho) (.inl ⟨ho, rfl⟩) (.inl h1)
    · exact .of_seek (.inl ho) (.inl ⟨ho, rfl⟩) (.inr (.inl h1))
    · exact .of_seek (.inl ho) (.inl ⟨ho, rfl⟩) (.inr (.inr h1))
    · exact .found b ho hp
  case receiveFrame dl =>
    obtain h1 | h1 | h1 | ⟨hp, rfl⟩ | ⟨hp, h⟩ | ⟨hp, rfl⟩ | ⟨hp, h⟩ | ⟨hp, rfl⟩ | ⟨hp, rfl⟩ :=
      advanceReceiveFrame_next h
    · exact .of_seek (.inr ⟨dl, ho⟩) (.inr ⟨dl, ho, rfl⟩) (.inl h1)
    · exact .of_seek (.inr ⟨dl, ho⟩) (.inr ⟨dl, ho, rfl⟩) (.inr (.inl h1))
    · exact .of_seek (.inr ⟨dl, ho⟩) (.inr ⟨dl, ho, rfl⟩) (.inr (.inr h1))
    · exact .counted dl ho hp
    · obtain ⟨hd, hn⟩ | hb := primReadExactly_condition 10 s
      · obtain rfl := Host.Outcome.next.inj ((advanceTake_kept tr hd hn).symm.trans h)
        exact .took dl ho hp hn hd
      · obtain ⟨bytes, rxq, m, hw⟩ := advanceTake_broken tr hb
        obtain rfl := Host.Outcome.next.inj (hw.symm.trans h)
        exact .tookShort dl bytes rxq m ho hp hb
    · exact .yielded hp (by simp [ho])
    · obtain ⟨d, delta, ds, m, hd, -, rfl⟩ := advanceClock_next h
      exact .clocked d delta ds m _ _ hp hd (.inr ⟨dl, ho, rfl, rfl⟩)
    · exact .received dl ho hp
    · exact .readTimeout dl ho hp
  all_goals exact absurd hb (by simp [IsBlocking, Instr.opcode, opByte])

end Sys2Proof.Machine
end

