-- ==== Sys2Proof/Laws/Decode.lean ====
section
/-! SUPPORT. Small lemmas about reading a request: each operand check on the value the encoder writes, when each check fails,
and what an operation that comes out of the decoder went through. -/

namespace Sys2Proof

@[simp] theorem needInt_toNat {name : OperandName} {w : Nat} (v : BitVec w) : needInt name w (some v.toNat) = .ok v := by
  simp [needInt, v.isLt]

@[simp] theorem optInt_map_toNat {name : OperandName} {w : Nat} (v : Option (BitVec w)) :
    optInt name w (v.map (·.toNat)) = .ok v := by
  cases v <;> simp [optInt, BitVec.isLt]

@[simp] theorem needBytes_some {name : OperandName} (l : List Byte) : needBytes name (some l) = .ok l := rfl

@[simp] theorem needKind_toNat (kind : Kind) : needKind (some kind.toNat) = .ok kind := by cases kind <;> rfl

/-- Checks (b) and (d) of R92 fail exactly on an operand that is absent or too wide. -/
theorem needInt_error_iff {name : OperandName} {w : Nat} {x : Option Nat} :
    (∃ why, needInt name w x = .error why) ↔ x = none ∨ ∃ v, x = some v ∧ 2 ^ w ≤ v := by
  cases x <;> simp [needInt]
  split <;> simp <;> omega

/-- Check (d) of R92 fails exactly on an optional operand that is present and too wide. -/
theorem optInt_error_iff {name : OperandName} {w : Nat} {x : Option Nat} :
    (∃ why, optInt name w x = .error why) ↔ ∃ v, x = some v ∧ 2 ^ w ≤ v := by
  cases x <;> simp [optInt]
  split <;> simp <;> omega

/-- An operation that comes out of the decoder was read from its operands and passed its length check. -/
theorem decode_eq_instr {r : Request} {i : Instr} (h : decode r = .instr i) :
    readOperands r = some (.ok i) ∧ i.check = none := by
  unfold decode at h
  split at h
  · cases h
  · cases h
  · split at h
    · cases h; exact ⟨by assumption, by assumption⟩
    · cases h

/-- A request that reads as a reserved OP has that OP. -/
theorem decode_eq_reserved {r : Request} {op : Byte} (h : decode r = .reserved op) : op = r.op ∧ readOperands r = none := by
  unfold decode at h
  split at h
  · cases h; exact ⟨rfl, by assumption⟩
  · cases h
  · split at h <;> cases h

end Sys2Proof
end

