-- ==== Sys2Proof/Laws/PerInstr.lean ====
section
/-! SUPPORT. Facts about every operation as syntax, one lemma per constructor. Family `OpcodeRow`: a request that reads as the
operation carries the OP of the operation's row of 30_encoding.md R89. -/

namespace Sys2Proof.Laws.OpcodeRow

def Statement (i : Instr) : Prop := ∀ r : Request, decode r = .instr i → r.op = i.opcode

/-- An operation read from a request, row by row of R89. -/
theorem op_of_readOperands {r : Request} {i : Instr} (h : readOperands r = some (.ok i)) : r.op = i.opcode := by
  unfold readOperands at h
  split at h <;> simp only [Option.some.injEq, reduceCtorEq] at h <;> rename_i hop <;>
    (apply BitVec.eq_of_toNat_eq; rw [hop]) <;>
    simp only [bind, Except.bind, pure, Except.pure, Except.ok.injEq] at h <;>
    (repeat' split at h) <;> (try cases h) <;> rfl

theorem setTimeout (t : Word) : Statement (.setTimeout t) := fun _ h => op_of_readOperands (decode_eq_instr h).1
theorem getTimeout : Statement .getTimeout := fun _ h => op_of_readOperands (decode_eq_instr h).1
theorem mkDeadline (t : Option Word) : Statement (.mkDeadline t) := fun _ h => op_of_readOperands (decode_eq_instr h).1
theorem csum (span : List Byte) : Statement (.csum span) := fun _ h => op_of_readOperands (decode_eq_instr h).1
theorem buildCommand (cid : Option Byte) (payload : List Byte) (dev : Option Half) :
    Statement (.buildCommand cid payload dev) := fun _ h => op_of_readOperands (decode_eq_instr h).1
theorem decodeCommand (f : List Byte) : Statement (.decodeCommand f) := fun _ h => op_of_readOperands (decode_eq_instr h).1
theorem validateChecksum (kind : Kind) (f : List Byte) : Statement (.validateChecksum kind f) :=
  fun _ h => op_of_readOperands (decode_eq_instr h).1
theorem checkFrame (kind : Kind) (f : List Byte) : Statement (.checkFrame kind f) :=
  fun _ h => op_of_readOperands (decode_eq_instr h).1
theorem decodeResponse (f : List Byte) : Statement (.decodeResponse f) :=
  fun _ h => op_of_readOperands (decode_eq_instr h).1
theorem sendFrame (buf : List Byte) (dl : Word) : Statement (.sendFrame buf dl) :=
  fun _ h => op_of_readOperands (decode_eq_instr h).1
theorem seekFrameStart : Statement .seekFrameStart := fun _ h => op_of_readOperands (decode_eq_instr h).1
theorem receiveFrame (dl : Word) : Statement (.receiveFrame dl) := fun _ h => op_of_readOperands (decode_eq_instr h).1

end Sys2Proof.Laws.OpcodeRow
end

