-- ==== Sys2Proof/Tests/Slice0.lean ====
section
/-! SUPPORT. Tests: the well-formedness smoke, decoding of OP bytes written out from 30_encoding.md R89, worked examples and
derived vectors of 95_test_vectors.md (one step each), and for every statement with hypotheses a witness that meets them. -/

namespace Sys2Proof.Tests

open Sys2Proof.Machine

/-! ## Helpers -/

/-- The next state of an outcome, if it is one. -/
def next? : Outcome → Option State
  | .next s => some s
  | .fault _ => none
  | .refused _ => none

/-- The result record in the next state. -/
def result? (o : Outcome) : Option ResultRecord := (next? o).bind (·.result)

/-- A field of the next state. -/
def field? {α : Type} (o : Outcome) (f : State → α) : Option α := (next? o).map f

/-- 95_test_vectors.md, frame `CQ`. -/
def cq : List Byte := [0xAA, 0xB4, 4, 0, 0, 0, 0, 0, 0, 0, 0, 0, 0, 0, 0, 0xFF, 0xFF, 0x02, 0xAB]
/-- 95_test_vectors.md, frame `RG`. -/
def rg : List Byte := [0xAA, 0xC0, 0x7D, 0x00, 0x54, 0x01, 0x60, 0xA1, 0xD3, 0xAB]
/-- 95_test_vectors.md, frame `RB`. -/
def rb : List Byte := [0xAA, 0xC0, 0x7D, 0x01, 0x54, 0x01, 0x60, 0xA1, 0xD3, 0xAB]
/-- The payload of `CQ`. -/
def query : List Byte := [4, 0, 0, 0, 0, 0, 0, 0, 0, 0, 0, 0, 0]

/-- An idle block whose next clock draws, write counts and received bytes are these. -/
def idle (clock : Word) (steps counts : List Nat) (rxq : List Byte) : State :=
  { State.reset with clock := clock, clockSteps := steps, writeCounts := counts, rxq := rxq }

/-- A block with an operation in progress at this point. -/
def at_ (i : Instr) (dl : Option Word) (p : Phase) (s : State) : State :=
  { s with busy := true, transient := some ⟨i, dl, p, [], 0⟩ }

/-- The transient state of `at_`. -/
def tr (i : Instr) (dl : Option Word) (p : Phase) : Transient := ⟨i, dl, p, [], 0⟩

/-! ## Well-formedness: an ill-formed operation for each length check -/

theorem test_wf_csum : (Instr.csum (List.replicate 256 0)).check = some (.wrongLength .span) := by
  simp only [Instr.check, checkLen, List.length_replicate]; decide
theorem test_wf_csum_longest : (Instr.csum (List.replicate 255 0)).check = none := by
  simp only [Instr.check, checkLen, List.length_replicate]; decide
theorem test_wf_build : (Instr.buildCommand none (List.replicate 12 0) none).check = some (.wrongLength .payload) := by decide
theorem test_wf_decode_command : (Instr.decodeCommand rg).check = some (.wrongLength .f) := by decide
theorem test_wf_validate : (Instr.validateChecksum .cmd rg).check = some (.wrongLength .f) := by decide
theorem test_wf_check_frame : (Instr.checkFrame .resp cq).check = some (.wrongLength .f) := by decide
theorem test_wf_decode_response : (Instr.decodeResponse cq).check = some (.wrongLength .f) := by decide
theorem test_wf_send : (Instr.sendFrame (List.replicate 256 0) 6000).check = some (.wrongLength .buf) := by
  simp only [Instr.check, checkLen, List.length_replicate]; decide

/-! ## Decoding: OP bytes bit by bit, family then function (R89) -/

theorem test_word_set_timeout : decodeTableWord 8 0b00000001 = some (.setTimeout 0) := by decide
theorem test_word_get_timeout : decodeTableWord 8 0b00000010 = some .getTimeout := by decide
theorem test_word_mk_deadline : decodeTableWord 8 0b00000011 = some (.mkDeadline none) := by decide
theorem test_word_csum : decodeTableWord 8 0b00010000 = some (.csum []) := by decide
theorem test_word_build :
    decodeTableWord 8 0b00010001 = some (.buildCommand none (List.replicate 13 0) none) := by decide
theorem test_word_decode_command : decodeTableWord 8 0b00010010 = some (.decodeCommand (List.replicate 19 0)) := by decide
theorem test_word_validate : decodeTableWord 8 0b00010011 = some (.validateChecksum .cmd (List.replicate 19 0)) := by decide
theorem test_word_check_frame : decodeTableWord 8 0b00010100 = some (.checkFrame .cmd (List.replicate 19 0)) := by decide
theorem test_word_decode_response :
    decodeTableWord 8 0b00010101 = some (.decodeResponse (List.replicate 10 0)) := by decide
theorem test_word_send : decodeTableWord 8 0b00100000 = some (.sendFrame [] 0) := by decide
theorem test_word_seek : decodeTableWord 8 0b00100001 = some .seekFrameStart := by decide
theorem test_word_receive : decodeTableWord 8 0b00100010 = some (.receiveFrame 0) := by decide
/-- R90: the values beside the three families. -/
theorem test_word_reserved :
    [0x00, 0x04, 0x0F, 0x16, 0x1F, 0x23, 0xFF].map (decodeTableWord 8) = List.replicate 7 none := by decide

/-- Operands beside OP (R89): `MK_DEADLINE 5`, `SEND_FRAME CQ, 6000`, `VALIDATE_CHECKSUM 1, RB`. -/
theorem test_decode_operands :
    decode { op := 0b00000011, t := some 5 } = .instr (.mkDeadline (some 5)) ∧
    decode { op := 0b00100000, buf := some cq, dl := some 6000 } = .instr (.sendFrame cq 6000) ∧
    decode { op := 0b00010011, kind := some 1, f := some rb } = .instr (.validateChecksum .resp rb) := by decide

/-- R92 (b), (c), (d): a missing operand, a wrong length, a value too wide. -/
theorem test_decode_rejects :
    decode { op := 0x01 } = .rejected (.missing .t) ∧
    decode { op := 0x14, kind := some 1, f := some cq } = .rejected (.wrongLength .f) ∧
    decode { op := 0x14, kind := some 2, f := some rg } = .rejected (.tooWide .kind) ∧
    decode { op := 0x22, dl := some (2 ^ 32) } = .rejected (.tooWide .dl) := by decide

/-! ## Vectors of 95_test_vectors.md -/

/-- 3.1: SET_TIMEOUT 0xFFFFFFFF. -/
theorem test_set_timeout : field? (exec (.setTimeout 0xFFFFFFFF) State.reset) (·.timeoutMs) = some 0xFFFFFFFF := by decide
/-- 3.1: GET_TIMEOUT after reset. -/
theorem test_get_timeout : result? (exec .getTimeout State.reset) = some ⟨.ok, .timeout 1000⟩ := by decide
/-- 3.1: TIMEOUT_MS 1000, clock 0xFFFFFF00: the deadline wraps. -/
theorem test_mk_deadline_wraps :
    result? (exec (.mkDeadline none) (idle 0 [0xFFFFFF00] [] [])) = some ⟨.ok, .deadline 0x2E8⟩ := by decide
/-- 3.1: clock 10, MK_DEADLINE 5: the operand overrides the register; one clock read. -/
theorem test_mk_deadline_operand :
    field? (exec (.mkDeadline (some 5)) (idle 10 [0] [] [])) (fun s => (s.result, s.history)) =
      some (some ⟨.ok, .deadline 15⟩,
        [.issue (.mkDeadline (some 5)), .now 10, .result ⟨.ok, .deadline 15⟩]) := by decide
/-- E1. -/
theorem test_csum : result? (exec (.csum [0x7D, 0, 0x54, 1, 0x60, 0xA1]) State.reset) = some ⟨.ok, .checksum 0xD3⟩ := by decide
/-- 2.1: the largest command span. -/
theorem test_csum_largest :
    result? (exec (.csum (List.replicate 15 0xFF)) State.reset) = some ⟨.ok, .checksum 0xF1⟩ := by decide
/-- 2.1: defaults. -/
theorem test_build_defaults :
    result? (exec (.buildCommand none query none) State.reset) = some ⟨.ok, .command cq⟩ := by decide
/-- E3. -/
theorem test_build_little_endian :
    result? (exec (.buildCommand (some 0xB4) [1, 2, 3, 4, 5, 6, 7, 8, 9, 10, 11, 12, 13] (some 0x1234)) State.reset) =
      some ⟨.ok, .command [0xAA, 0xB4, 1, 2, 3, 4, 5, 6, 7, 8, 9, 10, 11, 12, 13, 0x34, 0x12, 0xA1, 0xAB]⟩ := by decide
/-- E3. -/
theorem test_decode_command :
    result? (exec (.decodeCommand [0xAA, 0xB4, 1, 2, 3, 4, 5, 6, 7, 8, 9, 10, 11, 12, 13, 0x34, 0x12, 0xA1, 0xAB])
      State.reset) =
      some ⟨.ok, .commandFields 0xB4 [1, 2, 3, 4, 5, 6, 7, 8, 9, 10, 11, 12, 13] 0x1234 0xA1⟩ := by decide
/-- 2.2: head and tail are not read. -/
theorem test_validate_ignores_delimiters :
    result? (exec (.validateChecksum .resp [0, 0xC0, 0x7D, 0, 0x54, 1, 0x60, 0xA1, 0xD3, 0]) State.reset) =
      some ⟨.ok, .verdict true⟩ := by decide
/-- 2.2: the verdict is in `ok`, the status is OK. -/
theorem test_validate_bad : result? (exec (.validateChecksum .resp rb) State.reset) = some ⟨.ok, .verdict false⟩ := by decide
/-- 2.2: the delimiter wins. -/
theorem test_check_frame_delimiter :
    result? (exec (.checkFrame .resp [0xAB, 0xC0, 0x7D, 0, 0x54, 1, 0x60, 0xA1, 0xD2, 0xAB]) State.reset) =
      some ⟨.delimiterMismatch, .none⟩ := by decide
/-- 2.2: checksum mismatch. -/
theorem test_check_frame_checksum : result? (exec (.checkFrame .resp rb) State.reset) = some ⟨.checksumMismatch, .none⟩ := by
  decide
/-- E7. -/
theorem test_decode_response :
    result? (exec (.decodeResponse rg) State.reset) =
      some ⟨.ok, .responseFields 0xC0 [0x7D, 0, 0x54, 1] 0xA160 125 340 0xD3⟩ := by decide
/-- 3.2: a partial write is success. -/
theorem test_send_partial :
    field? (exec (.sendFrame cq 6000) (at_ (.sendFrame cq 6000) (some 6000) .write (idle 0 [] [1] [])))
      (fun s => (s.txlog, s.transient.map (·.phase))) = some ([0xAA], some .retSent) := by decide
/-- 3.2: `Write` answers 20 for 19 bytes. -/
theorem test_send_contract :
    field? (exec (.sendFrame cq 6000) (at_ (.sendFrame cq 6000) (some 6000) .write (idle 0 [] [20] [])))
      (fun s => (s.faultMark, s.result)) = some (some .transportContract, none) := by decide
/-- 3.3: a byte that is not a head is discarded. -/
theorem test_seek_drop :
    field? (exec .seekFrameStart (at_ .seekFrameStart none .seekDrop (idle 0 [] [] [0x11, 0x22, 0x33]))) (·.rxq) =
      some [0x22, 0x33] := by decide
/-- 3.3: an empty stream ends the seek. -/
theorem test_seek_empty :
    field? (exec .seekFrameStart (at_ .seekFrameStart none .seekAvail (idle 0 [] [] [])))
      (fun s => s.transient.map (·.phase)) = some (some (.retFound false)) := by decide
/-- 3.4: the window behind a spurious head. -/
theorem test_receive_takes_window :
    field? (exec (.receiveFrame 6000) (at_ (.receiveFrame 6000) (some 6000) .take (idle 0 [] [] (0xAA :: rg))))
      (fun s => (s.rxq, s.transient.map (·.buf))) =
      some ([0xAB], some [0xAA, 0xAA, 0xC0, 0x7D, 0, 0x54, 1, 0x60, 0xA1, 0xD3]) := by decide
/-- E6: the read at the deadline ends the operation. -/
theorem test_receive_deadline :
    field? (exec (.receiveFrame 1000) (at_ (.receiveFrame 1000) (some 1000) .clock (idle 800 [200] [] [0xAA, 0xC0, 0x7D])))
      (fun s => (s.clock, s.transient.map (·.phase))) = some (1000, some .retReadTimeout) := by decide

/-- 3.5: a reserved OP. -/
theorem test_reserved : result? (step (State.reset.withTurn (.issue { op := 0x23 }))) = some ⟨.illegalOperation, .none⟩ := by
  decide
/-- R202: a request while an operation runs. -/
theorem test_reentrant :
    field? (step ((at_ .seekFrameStart none .seekAvail State.reset).withTurn (.issue { op := 0x02 }))) (·.faultMark) =
      some (some .reentrantIssue) := by decide
/-- The host's question: a table word runs as the first operation after reset. -/
theorem test_fetch_word : result? (step (State.reset.withFetchWord 8 0x02)) = some ⟨.ok, .timeout 1000⟩ := by decide

/-! ## Witnesses: the hypotheses of each statement can be met -/

/-- A receive in progress at a point. -/
def receiving (p : Phase) (s : State) : State := at_ (.receiveFrame 6000) (some 6000) p s

theorem reset_ready : State.reset.Ready := ⟨rfl, rfl⟩

theorem reset_inv : State.reset.Inv := ⟨fun _ => rfl, by simp [State.reset], by simp [State.reset]⟩

theorem running_at (i : Instr) (dl : Option Word) (p : Phase) (s : State) (h : s.faultMark = none) :
    (at_ i dl p s).Running (tr i dl p) := ⟨h, rfl, rfl⟩

/-- The transient state of an operation at a point that is no return with a held value. -/
theorem sound_at (i : Instr) (dl : Option Word) (p : Phase) (hw : i.check = none) (hp : pointOf i p = true)
    (hd : dl = deadlineOf i) (h1 : p ≠ .retSent) (h2 : p ≠ .retFrame) : (tr i dl p).Sound :=
  ⟨hw, hp, hd, fun h => absurd h h1, fun h => absurd h h2⟩

/-- A block with an operation in progress that meets the invariant. -/
theorem inv_at (i : Instr) (dl : Option Word) (p : Phase) (s : State) (hs : (tr i dl p).Sound)
    (hx : StreamAt p s.rxq) : (at_ i dl p s).Inv := by
  refine ⟨fun _ => rfl, ?_, ?_⟩
  · rintro _ _ ⟨⟩; exact hs
  · rintro _ _ ⟨⟩ _; exact hx

theorem sound_receiving (p : Phase) (hp : pointOf (.receiveFrame 6000) p = true) (h : p ≠ .retFrame) :
    (tr (.receiveFrame 6000) (some 6000) p).Sound :=
  sound_at _ _ _ rfl hp rfl (by rintro rfl; cases hp) h

/-- A send of no bytes that meets the invariant, at its write. -/
def sendingNothing : State := at_ (.sendFrame [] 10) (some 10) .write State.reset

theorem sendingNothing_inv : sendingNothing.Inv :=
  inv_at _ _ _ _ (sound_at _ _ _ rfl rfl rfl (by decide) (by decide)) trivial

theorem witness_BlockResetValues :
    decode { op := 0x02 } = .instr .getTimeout ∧ decode { op := 0x23 } = .reserved 0x23 := by decide

theorem witness_StepRunsDecodedRequest :
    State.reset.Ready ∧ State.reset.ownershipBroken = false ∧ decode { op := 0x02 } = .instr .getTimeout :=
  ⟨reset_ready, rfl, by decide⟩

theorem witness_StepAdvancesOperationInProgress :
    (receiving .yield State.reset).Running (tr (.receiveFrame 6000) (some 6000) .yield) ∧
      (receiving .yield State.reset).ownershipBroken = false := ⟨running_at _ _ _ _ rfl, rfl⟩

/-- Both cases of the hypothesis: an idle block, and a faulted block with an operation that never returned. -/
theorem witness_BlockTurnWithoutOperation :
    State.reset.busy = false ∧ ((receiving .take State.reset).raise .transportContract).faultMark ≠ none :=
  ⟨rfl, by decide⟩

/-- The longest span, the longest buffer, a payload of 13 bytes. -/
theorem witness_DecodeOfEncode :
    (Instr.csum (List.replicate 255 0xFF)).WellFormed ∧ (Instr.sendFrame (List.replicate 255 0) 0xFFFFFFFF).WellFormed ∧
      (Instr.buildCommand (some 0xFF) query (some 0xFFFF)).WellFormed := by
  simp only [Instr.WellFormed, Instr.check, checkLen, List.length_replicate]; decide

theorem witness_DecodedIsWellFormed : decode { op := 0x14, kind := some 1, f := some rg } = .instr (.checkFrame .resp rg) := by
  decide

/-- Both sides of the equivalence: a request that is malformed, and one that is not. -/
theorem witness_RefusedExactlyWhenMalformed :
    MalformedRequest { op := 0x01, t := some (2 ^ 32) } ∧ ¬ MalformedRequest { op := 0x01, t := some (2 ^ 32 - 1) } := by
  constructor <;> simp [MalformedRequest]

/-- An operation that fails its length check: a command frame of ten bytes. -/
theorem witness_IllFormedOperationIsRefused : (Instr.decodeCommand rg).check = some (.wrongLength .f) := by decide

/-- The ends of the four reserved ranges, and the ends of the three families. -/
theorem witness_ReservedOpIsIllegalOperation :
    State.reset.Ready ∧ State.reset.ownershipBroken = false ∧ ReservedOp 0x00 ∧ ReservedOp 0x04 ∧ ReservedOp 0x0F ∧
      ReservedOp 0x16 ∧ ReservedOp 0x1F ∧
      ReservedOp 0x23 ∧ ReservedOp 0xFF ∧ ¬ ReservedOp 0x01 ∧ ¬ ReservedOp 0x03 ∧ ¬ ReservedOp 0x10 ∧ ¬ ReservedOp 0x15 ∧
      ¬ ReservedOp 0x20 ∧ ¬ ReservedOp 0x22 := by
  refine ⟨reset_ready, rfl, ?_⟩
  simp [ReservedOp]

/-- A second request while an operation runs: one of the twelve, and a reserved OP. -/
theorem witness_ReentrantRequestFaults :
    (receiving .yield State.reset).faultMark = none ∧ (receiving .yield State.reset).busy = true ∧
      (∀ why, decode { op := 0x02 } ≠ .rejected why) ∧ (∀ why, decode { op := 0xFF } ≠ .rejected why) := by
  refine ⟨rfl, rfl, fun why h => ?_, fun why h => ?_⟩ <;> cases h

/-- A faulted block, its next turn an arrival. -/
theorem witness_FaultMarkIsSticky :
    let s := ((receiving .take State.reset).raise .transportContract).withTurn (.arrive [0xAA])
    s.faultMark = some .transportContract ∧ (∃ s', step s = .next s') ∧ s.nextTurn.1 ≠ .reset :=
  ⟨rfl, ⟨_, rfl⟩, by decide⟩

theorem witness_FaultedBlockIgnoresRequests :
    (State.reset.raise .reentrantIssue).faultMark ≠ none ∧ (∀ why, decode { op := 0x02 } ≠ .rejected why) :=
  ⟨by decide, fun why h => by cases h⟩

/-- Both faults, from states that meet the invariant that can reach them: a request while a receive runs, a write count of 1
for no bytes, and a delivery of nine bytes. -/
theorem witness_FaultCauses :
    let s := (receiving .yield State.reset).withTurn (.issue { op := 0x02 })
    let u := { (sendingNothing.withTurn .block) with writeCounts := [1] }
    let v := (receiving .take { State.reset with rxq := rg, deliveries := [9] }).withTurn .block
    (s.Inv ∧ s.faultMark = none ∧ s.ownershipBroken = false ∧
      ∃ s', step s = .next s' ∧ s'.faultMark = some .reentrantIssue) ∧
    (u.Inv ∧ u.faultMark = none ∧ u.ownershipBroken = false ∧
      ∃ u', step u = .next u' ∧ u'.faultMark = some .transportContract) ∧
    (v.Inv ∧ v.faultMark = none ∧ v.ownershipBroken = false ∧
      ∃ v', step v = .next v' ∧ v'.faultMark = some .transportContract) := by
  refine ⟨⟨?_, rfl, rfl, _, rfl, rfl⟩, ⟨?_, rfl, rfl, _, rfl, rfl⟩, ⟨?_, rfl, rfl, _, rfl, rfl⟩⟩
  · exact inv_at _ _ _ (State.reset.withTurn (.issue { op := 0x02 })) (sound_receiving .yield rfl (by decide)) trivial
  · exact inv_at _ _ _ { (State.reset.withTurn .block) with writeCounts := [1] }
      (sound_at (.sendFrame [] 10) (some 10) .write rfl rfl rfl (by decide) (by decide)) trivial
  · exact inv_at _ _ _ (State.withTurn .block { State.reset with rxq := rg, deliveries := [9] })
      (sound_receiving .take rfl (by decide)) ⟨rfl, by decide⟩

/-- A state in which the next turn proceeds, and one in which it presents a malformed request. -/
theorem witness_EveryTurnProceeds :
    (sendingNothing.withTurn .block).Inv ∧ (State.reset.withTurn (.issue { op := 0x01 })).Inv ∧
      MalformedRequest { op := 0x01 } :=
  ⟨inv_at _ _ _ (State.reset.withTurn .block)
    (sound_at (.sendFrame [] 10) (some 10) .write rfl rfl rfl (by decide) (by decide)) trivial,
    ⟨fun _ => rfl, by simp [State.reset], by simp [State.reset]⟩, by simp [MalformedRequest]⟩

/-- One state for each of the five breaches, at the boundary: one byte too many, nine bytes of ten (by the delivery and by
the stream), an empty stream at `Peek` and at `ReadByte`. -/
theorem witness_ContractBreachesFault :
    ((at_ (.sendFrame cq 6000) (some 6000) .write { State.reset with writeCounts := [20] }).Running
        (tr (.sendFrame cq 6000) (some 6000) .write) ∧ (Instr.sendFrame cq 6000).WellFormed ∧ cq.length < 20) ∧
      ((receiving .take { State.reset with rxq := rg, deliveries := [9] }).Running
        (tr (.receiveFrame 6000) (some 6000) .take) ∧ (Instr.receiveFrame 6000).WellFormed ∧ 9 < 10) ∧
      ((receiving .take { State.reset with rxq := rg.drop 1 }).Running (tr (.receiveFrame 6000) (some 6000) .take) ∧
        (rg.drop 1).length < 10) ∧
      ((receiving .seekPeek State.reset).Running (tr (.receiveFrame 6000) (some 6000) .seekPeek) ∧
        (receiving .seekPeek State.reset).rxq = []) ∧
      ((at_ .seekFrameStart none .seekDrop State.reset).Running (tr .seekFrameStart none .seekDrop) ∧
        Instr.seekFrameStart.WellFormed ∧ (at_ .seekFrameStart none .seekDrop State.reset).rxq = []) := by
  refine ⟨⟨running_at _ _ _ _ rfl, by decide, by decide⟩, ⟨running_at _ _ _ _ rfl, rfl, by decide⟩,
    ⟨running_at _ _ _ _ rfl, by decide⟩, ⟨running_at _ _ _ _ rfl, rfl⟩, ⟨running_at _ _ _ _ rfl, rfl, rfl⟩⟩

/-- A send whose write takes the whole buffer, and a receive whose delivery is exactly ten bytes, by block turn. -/
theorem witness_ConformingEnvironmentNeverBreaksContract :
    let s := (at_ (.sendFrame cq 6000) (some 6000) .write { State.reset with writeCounts := [19] }).withTurn .block
    let u := (receiving .take { State.reset with rxq := rg, deliveries := [10] }).withTurn .block
    (s.Inv ∧ s.faultMark = none ∧ s.ownershipBroken = false ∧ (∀ d ∈ s.deliveries.head?, 10 ≤ d) ∧
      (∀ k ks t buf dl, s.writeCounts = k :: ks → s.transient = some t → t.op = .sendFrame buf dl → k ≤ buf.length) ∧
      ∃ s', step s = .next s') ∧
    (u.Inv ∧ u.faultMark = none ∧ u.ownershipBroken = false ∧ (∀ d ∈ u.deliveries.head?, 10 ≤ d) ∧
      (∀ k ks t buf dl, u.writeCounts = k :: ks → u.transient = some t → t.op = .sendFrame buf dl → k ≤ buf.length) ∧
      ∃ u', step u = .next u') := by
  refine ⟨⟨?_, rfl, rfl, ?_, ?_, _, rfl⟩, ⟨?_, rfl, rfl, ?_, ?_, _, rfl⟩⟩
  · exact inv_at _ _ _ (State.withTurn .block { State.reset with writeCounts := [19] })
      (sound_at (.sendFrame cq 6000) (some 6000) .write (by decide) rfl rfl (by decide) (by decide)) trivial
  · rintro d ⟨⟩
  · rintro k ks t buf dl ⟨⟩ ⟨⟩ ⟨⟩; decide
  · exact inv_at _ _ _ (State.withTurn .block { State.reset with rxq := rg, deliveries := [10] })
      (sound_receiving .take rfl (by decide)) ⟨rfl, by decide⟩
  · rintro d ⟨⟩; decide
  · rintro k ks t buf dl ⟨⟩

/-- A receive in progress after a foreign access. -/
def touched (p : Phase) (s : State) : State := receiving p { s with ownershipBroken := true }

/-- A foreign access while BUSY is 1; each breach at its boundary (an empty stream at `Peek` and `ReadByte`, nine bytes and a
delivery of nine at `ReadExactly`, a count of 20 for 19 bytes) and, beside it, no breach; and a request to the idle block. -/
theorem witness_ForeignAccessFaultsOrIsUnconstrained :
    (receiving .take State.reset).busy = true ∧
    (∀ p ∈ [Phase.seekPeek, .seekDrop, .take, .yield], ∀ s : State, s.faultMark = none →
      (touched p s).Running (tr (.receiveFrame 6000) (some 6000) p) ∧ (tr (.receiveFrame 6000) (some 6000) p).Sound ∧
        (touched p s).ownershipBroken = true) ∧
    (∀ p ∈ [Phase.seekPeek, .seekDrop], BreachAt (tr (.receiveFrame 6000) (some 6000) p) (touched p State.reset) ∧
      ¬ BreachAt (tr (.receiveFrame 6000) (some 6000) p) (touched p (idle 0 [] [] [0x11]))) ∧
    BreachAt (tr (.receiveFrame 6000) (some 6000) .take) (touched .take (idle 0 [] [] (rg.drop 1))) ∧
    BreachAt (tr (.receiveFrame 6000) (some 6000) .take) (touched .take { idle 0 [] [] rg with deliveries := [9] }) ∧
    ¬ BreachAt (tr (.receiveFrame 6000) (some 6000) .take) (touched .take { idle 0 [] [] rg with deliveries := [10] }) ∧
    BreachAt (tr (.sendFrame cq 6000) (some 6000) .write) (idle 0 [] [20] []) ∧
    ¬ BreachAt (tr (.sendFrame cq 6000) (some 6000) .write) (idle 0 [] [19] []) ∧
    ({ State.reset with ownershipBroken := true } : State).Ready ∧ (∀ why, decode { op := 0x02 } ≠ .rejected why) := by
  refine ⟨rfl, ?_, ?_, .inl (by decide), .inr ⟨9, [], rfl, by decide⟩, ?_, ⟨cq, 6000, 20, [], rfl, rfl, by decide⟩, ?_,
    ⟨rfl, rfl⟩, fun why h => by cases h⟩
  · intro p hp s hs
    refine ⟨⟨hs, rfl, rfl⟩, sound_receiving p ?_ ?_, rfl⟩ <;>
      (simp only [List.mem_cons, List.not_mem_nil, or_false] at hp; rcases hp with rfl | rfl | rfl | rfl <;> decide)
  · intro p hp
    simp only [List.mem_cons, List.not_mem_nil, or_false] at hp
    rcases hp with rfl | rfl <;> exact ⟨rfl, fun h => by cases h⟩
  · rintro (h | ⟨d, ds, ⟨⟩, h⟩) <;> revert h <;> decide
  · rintro ⟨_, _, _, _, ⟨⟩, ⟨⟩, h⟩; revert h; decide

/-- I5: after a foreign access a write count above the buffer, and a short delivery from a full stream, are
TransportContract. -/
theorem test_foreign_write_contract :
    field? (step ((at_ (.sendFrame cq 6000) (some 6000) .write
      { idle 0 [] [20] [] with ownershipBroken := true }).withTurn .block)) (·.faultMark) = some (some .transportContract) := by
  decide
theorem test_foreign_short_delivery :
    field? (step ((touched .take { idle 0 [] [] rg with deliveries := [9] }).withTurn .block)) (·.faultMark) =
      some (some .transportContract) := by decide

/-- A ready block, and a block on which an operation runs: the two cases of SET_TIMEOUT, GET_TIMEOUT and MK_DEADLINE. -/
theorem witness_SetTimeoutWritesRegister :
    State.reset.Ready ∧ (receiving .yield State.reset).faultMark = none ∧ (receiving .yield State.reset).busy = true :=
  ⟨reset_ready, rfl, rfl⟩

theorem witness_GetTimeoutReadsRegister :
    State.reset.Ready ∧ (receiving .yield State.reset).faultMark = none ∧ (receiving .yield State.reset).busy = true :=
  ⟨reset_ready, rfl, rfl⟩

/-- A ready block with a listed clock draw and one without. -/
theorem witness_MkDeadlineAddsTimeout : (idle 0 [5000] [] []).Ready ∧ State.reset.Ready := ⟨⟨rfl, rfl⟩, reset_ready⟩

/-- The three ways the register can end a step: kept, reset, written. -/
theorem witness_OnlySetTimeoutWritesRegister :
    State.reset.ownershipBroken = false ∧ (∃ t, step (State.reset.withTurn .block) = .next t) ∧
      (∃ t, step (State.reset.withTurn .reset) = .next t) ∧
      ∃ t, step (State.reset.withTurn (.issue { op := 0x01, t := some 0xFFFFFFFF })) = .next t :=
  ⟨rfl, ⟨_, rfl⟩, ⟨_, rfl⟩, ⟨_, rfl⟩⟩

/-- A clock read under `forbidden`, from the largest value the clock has. -/
theorem witness_ClockNeverGoesBackward :
    (∃ t, step ((idle 0xFFFFFFFF [1] [] []).withTurn (.issue { op := 0x03 })) = .next t) ∧
      (idle 0xFFFFFFFF [1] [] []).clockWrap = .forbidden ∧ (idle 0xFFFFFFFF [1] [] []).ownershipBroken = false :=
  ⟨⟨_, rfl⟩, rfl, rfl⟩

/-- A ready block, and a receive and a send at their clock read, each with a listed draw; and the three clauses of a read's
value at their boundary. -/
theorem witness_ClockReadAddsDraw :
    (idle 0xFFFFFFFF [1] [] []).Ready ∧
    ((receiving .clock (idle 0xFFFFFFFF [1] [] [])).Running (tr (.receiveFrame 6000) (some 6000) .clock) ∧
      (tr (.receiveFrame 6000) (some 6000) .clock).Sound) ∧
    ((at_ (.sendFrame cq 6000) (some 6000) .clock (idle 0xFFFFFFFE [1] [] [])).Running
        (tr (.sendFrame cq 6000) (some 6000) .clock) ∧ (tr (.sendFrame cq 6000) (some 6000) .clock).Sound) ∧
    clockAfter .allowed 0xFFFFFFFF 1 = 0 ∧ clockAfter .forbidden 0xFFFFFFFE 1 = 0xFFFFFFFF ∧
    clockAfter .forbidden 0xFFFFFFFF 1 = 0xFFFFFFFF :=
  ⟨⟨rfl, rfl⟩, ⟨running_at _ _ _ _ rfl, sound_receiving .clock rfl (by decide)⟩,
    ⟨running_at _ _ _ _ rfl, sound_at _ _ _ (by decide) rfl rfl (by decide) (by decide)⟩, by decide, by decide, by decide⟩

/-- A send and a receive at their clock read, with no draw listed. -/
theorem witness_FreeClockStepAdvancesClock :
    (at_ (.sendFrame cq 6000) (some 6000) .clock State.reset).Running (tr (.sendFrame cq 6000) (some 6000) .clock) ∧
      cq.length ≤ 255 ∧ (receiving .clock State.reset).Running (tr (.receiveFrame 6000) (some 6000) .clock) ∧
      (receiving .clock State.reset).clockSteps = [] :=
  ⟨running_at _ _ _ _ rfl, by decide, running_at _ _ _ _ rfl, rfl⟩

/-- Two spans that are permutations of each other, and a span of 257 bytes. -/
theorem witness_ChecksumIsSumModulo256 :
    List.Perm [(0x11 : Byte), 0x22] [0x22, 0x11] ∧ (List.replicate 257 (0xFF : Byte)).length ≤ 257 :=
  ⟨List.Perm.swap _ _ _, Nat.le_of_eq List.length_replicate⟩

theorem witness_CsumReturnsSum : (List.replicate 255 (0xFF : Byte)).length ≤ 255 := Nat.le_of_eq List.length_replicate
theorem witness_BuildCommandLaysOutFrame : query.length = 13 := rfl
theorem witness_DecodeCommandReadsFields : query.length = 13 := rfl
theorem witness_ValidateChecksumComparesSum :
    ((cq.drop 2).take 15).length = Config.frameLen .cmd - 4 ∧ ((rg.drop 2).take 6).length = Config.frameLen .resp - 4 := by
  decide
theorem witness_CheckFrameTestsDelimitersFirst :
    ((cq.drop 2).take 15).length = Config.frameLen .cmd - 4 ∧ ((rg.drop 2).take 6).length = Config.frameLen .resp - 4 := by
  decide
theorem witness_CodecOperationsArePure : IsCodec (.csum [0x80, 0x80]) ∧ (Instr.csum [0x80, 0x80]).WellFormed :=
  ⟨by simp [IsCodec, Instr.opcode, opByte], by decide⟩

/-- A valid frame passes CHECK_FRAME in every state. -/
theorem returns_checkFrame (kind : Kind) (f : List Byte) (hc : (Instr.checkFrame kind f).check = none)
    (hs : frameStatus kind f = .ok) : Returns (.checkFrame kind f) ⟨.ok, .none⟩ := by
  intro s h
  refine (runAtomic_ready (body := fun s1 => (⟨frameStatus kind f, .none⟩, s1)) hc h).trans ?_
  simp only [hs, State.finish, State.returned, State.start, List.append_assoc, List.cons_append, List.nil_append]

/-- Both halves: operands of a command, and a command frame that passes CHECK_FRAME. -/
theorem witness_CommandRoundTrip : query.length = 13 ∧ cq.length = 19 ∧ Returns (.checkFrame .cmd cq) ⟨.ok, .none⟩ :=
  ⟨rfl, rfl, returns_checkFrame _ _ (by decide) (by decide)⟩

/-- A flipped bit at the head, the identifier, the first and last byte of the span, the checksum and the tail. -/
theorem witness_SingleBitFlipDetection :
    rg.length = Config.frameLen .resp ∧ 7 < 8 ∧ rg[0]? = some 0xAA ∧ rg[1]? = some 0xC0 ∧ rg[2]? = some 0x7D ∧
      rg[7]? = some 0xA1 ∧ rg[8]? = some 0xD3 ∧ rg[9]? = some 0xAB ∧ Returns (.checkFrame .resp rg) ⟨.ok, .none⟩ :=
  ⟨rfl, by decide, rfl, rfl, rfl, rfl, rfl, rfl, returns_checkFrame _ _ (by decide) (by decide)⟩

/-- The acceptance, and each point of SEND_FRAME's pseudocode; a write of 0 and of all 19 bytes. -/
theorem witness_SendFramePoints :
    cq.length ≤ 255 ∧ State.reset.Ready ∧
      (at_ (.sendFrame cq 6000) (some 6000) .write { State.reset with writeCounts := [0] }).Running
        (tr (.sendFrame cq 6000) (some 6000) .write) ∧ 19 ≤ cq.length ∧
      (∀ p ∈ [Phase.yield, .clock, .retSent, .retWriteTimeout],
        (at_ (.sendFrame cq 6000) (some 6000) p { State.reset with clockSteps := [0] }).Running
          (tr (.sendFrame cq 6000) (some 6000) p)) :=
  ⟨by decide, reset_ready, running_at _ _ _ _ rfl, by decide, fun _ _ => running_at _ _ _ _ rfl⟩

theorem witness_FreeWriteCountStaysInRange :
    cq.length ≤ 255 ∧ (at_ (.sendFrame cq 6000) (some 6000) .write State.reset).Running
        (tr (.sendFrame cq 6000) (some 6000) .write) ∧
      (at_ (.sendFrame cq 6000) (some 6000) .write State.reset).writeCounts = [] :=
  ⟨by decide, running_at _ _ _ _ rfl, rfl⟩

/-- Two failed writes with the clock at 5 and at 9, the deadline 10, then one byte accepted. -/
theorem witness_SendFrameSucceedsOnLaterAttempt :
    (idle 0 [5, 4] [0, 0, 1] []).Ready ∧ cq.length ≤ 255 ∧ 0 < 1 ∧ 1 ≤ cq.length ∧
      [0, 0, 1] = List.replicate [5, 4].length 0 ++ 1 :: ([] : List Nat) ∧ [5, 4] = [5, 4] ++ ([] : List Nat) ∧
      (∀ t ∈ clockReads .forbidden 0 [5, 4], t.toNat < (10 : Word).toNat) :=
  ⟨⟨rfl, rfl⟩, by decide, by decide, by decide, rfl, rfl, by simp [clockReads, clockAfter]⟩

/-- 95_test_vectors.md 3.2: an empty buffer, clock script 5, 10, deadline 10. -/
theorem witness_SendFrameTimesOut :
    (idle 0 [5, 5] [0, 0] []).Ready ∧ ([] : List Byte).length ≤ 255 ∧
      [0, 0] = List.replicate ([5].length + 1) 0 ++ ([] : List Nat) ∧ [5, 5] = [5] ++ 5 :: ([] : List Nat) ∧
      (∀ t ∈ clockReads .forbidden 0 [5], t.toNat < (10 : Word).toNat) ∧
      (10 : Word).toNat ≤ ((clockReads .forbidden 0 ([5] ++ [5])).getLastD 0).toNat :=
  ⟨⟨rfl, rfl⟩, by decide, rfl, rfl, by simp [clockReads, clockAfter], by simp [clockReads, clockAfter]⟩

/-- A send of no bytes at its return. -/
theorem witness_EmptyBufferNeverSucceeds :
    let s := (at_ (.sendFrame [] 10) (some 10) .retWriteTimeout State.reset).withTurn .block
    s.Inv ∧ s.ownershipBroken = false ∧ s.Running (tr (.sendFrame [] 10) (some 10) .retWriteTimeout) ∧ s.nextTurn.1 ≠ .reset ∧
      ∃ s', step s = .next s' ∧ s'.busy = false :=
  ⟨inv_at _ _ _ (State.reset.withTurn .block) (sound_at (.sendFrame [] 10) (some 10) .retWriteTimeout rfl rfl rfl (by decide)
    (by decide)) trivial, rfl, running_at _ _ _ (State.reset.withTurn .block) rfl, by decide, _, rfl, rfl⟩

theorem witness_SeekFrameStartPoints :
    State.reset.Ready ∧ (∀ p ∈ [Phase.seekAvail, .seekPeek, .seekDrop, .retFound true, .retFound false],
      (at_ .seekFrameStart none p { State.reset with rxq := rg }).Running (tr .seekFrameStart none p)) ∧
      rg = 0xAA :: rg.drop 1 := ⟨reset_ready, fun _ _ => running_at _ _ _ _ rfl, rfl⟩

/-- E5: two bytes of noise before a frame; and noise alone. -/
theorem witness_SeekDiscardsUpToHead :
    (idle 0 [] [] ([0x11, 0x22] ++ rg)).Ready ∧ (0xAA : Byte) ∉ [0x11, 0x22] ∧
      (idle 0 [] [] ([0x11, 0x22] ++ rg)).rxq = [0x11, 0x22] ++ 0xAA :: rg.drop 1 ∧
      (idle 0 [] [] [0x11, 0x22]).rxq = [0x11, 0x22] := ⟨⟨rfl, rfl⟩, by decide, rfl, rfl⟩

/-- The acceptance, and each point of RECEIVE_FRAME's pseudocode, with ten bytes in the stream and a delivery of ten. -/
theorem witness_ReceiveFramePoints :
    State.reset.Ready ∧ (∀ p, (receiving p { State.reset with rxq := rg, clockSteps := [0], deliveries := [10] }).Running
      (tr (.receiveFrame 6000) (some 6000) p)) ∧ rg = 0xAA :: rg.drop 1 ∧ 10 ≤ rg.length ∧
      (∀ d ∈ ([] : List Nat).head?, 10 ≤ d) ∧ (∀ d ∈ [10].head?, 10 ≤ d) :=
  ⟨reset_ready, fun _ => running_at _ _ _ _ rfl, rfl, by decide, by rintro d ⟨⟩, by rintro d ⟨⟩; decide⟩

/-- 95_test_vectors.md 3.4: eleven bytes, the first two 0xAA. -/
theorem witness_ReceiveReturnsFirstWindow :
    (idle 0 [] [] (0xAA :: rg)).Ready ∧ (∀ d ∈ (idle 0 [] [] (0xAA :: rg)).deliveries.head?, 10 ≤ d) ∧
      (0xAA : Byte) ∉ ([] : List Byte) ∧ (0xAA :: rg.take 9).length = 10 ∧ (0xAA :: rg.take 9).head? = some 0xAA ∧
      (idle 0 [] [] (0xAA :: rg)).rxq = [] ++ (0xAA :: rg.take 9) ++ [0xAB] :=
  ⟨⟨rfl, rfl⟩, by rintro d ⟨⟩, by decide, rfl, rfl, rfl⟩

/-- One byte of noise, a frame, a delivery of eleven bytes listed, and a byte that arrives while the frame is taken. -/
theorem witness_ReceiveAmidArrivals :
    let turns : List Turn := [.block, .block, .arrive [0x33], .block, .block, .block, .block, .block]
    let s := { idle 0 [] [] (0x11 :: rg) with
      deliveries := [11], schedule := Turn.issue { op := 0x22, dl := some 0 } :: turns ++ Turn.block :: [] }
    s.Ready ∧ s.ownershipBroken = false ∧ (∀ d ∈ s.deliveries.head?, 10 ≤ d) ∧
      decode { op := 0x22, dl := some 0 } = .instr (.receiveFrame 0) ∧
      (0xAA : Byte) ∉ [0x11] ∧ rg.length = 10 ∧ rg.head? = some 0xAA ∧ s.rxq = [0x11] ++ rg ++ [] ∧
      (∀ turn ∈ turns, turn = .block ∨ ∃ bytes, turn = .arrive bytes) ∧ turns.count .block = 3 * [0x11].length + 4 := by
  refine ⟨⟨rfl, rfl⟩, rfl, by rintro d ⟨⟩; decide, by decide, by decide, rfl, rfl, rfl, by simp, by decide⟩

/-- E6: a head and two bytes, clock reads 400, 800 and 1000, deadline 1000; and an empty stream. -/
theorem witness_ReceiveFrameTimesOut :
    (idle 0 [400, 400, 200] [] [0xAA, 0xC0, 0x7D]).Ready ∧ (0xAA : Byte) ∉ ([] : List Byte) ∧
      (([0xAA, 0xC0, 0x7D] : List Byte).head? = some 0xAA ∧ ([0xAA, 0xC0, 0x7D] : List Byte).length < 10) ∧
      [400, 400, 200] = [400, 400] ++ 200 :: ([] : List Nat) ∧
      (∀ t ∈ clockReads .forbidden 0 [400, 400], t.toNat < (1000 : Word).toNat) ∧
      (1000 : Word).toNat ≤ ((clockReads .forbidden 0 ([400, 400] ++ [200])).getLastD 0).toNat ∧
      (idle 0 [9] [] []).rxq = [] ++ [] :=
  ⟨⟨rfl, rfl⟩, by decide, ⟨rfl, by decide⟩, rfl, by simp [clockReads, clockAfter], by simp [clockReads, clockAfter], rfl⟩

/-- The deadline 0 under either setting, and a deadline equal to the last clock value under `forbidden`. -/
theorem witness_ExpiredDeadlineGivesOneAttempt :
    let i := Instr.receiveFrame 0
    let s := at_ i (some 0) .clock { State.reset with clockSteps := [0], clockWrap := .allowed }
    let u := at_ (.sendFrame cq 6000) (some 6000) .clock (idle 6000 [0] [] [])
    (s.Running (tr i (some 0) .clock) ∧ (tr i (some 0) .clock).Sound ∧ ∃ s', exec i s = .next s') ∧
      (u.Running (tr (.sendFrame cq 6000) (some 6000) .clock) ∧ (tr (.sendFrame cq 6000) (some 6000) .clock).Sound ∧
        u.clockWrap = .forbidden ∧ (6000 : Word).toNat ≤ u.clock.toNat ∧ ∃ u', exec (.sendFrame cq 6000) u = .next u') :=
  ⟨⟨running_at _ _ _ _ rfl, sound_at _ _ _ rfl rfl rfl (by decide) (by decide), _, rfl⟩,
    running_at _ _ _ _ rfl, sound_at _ _ _ (by decide) rfl rfl (by decide) (by decide), rfl, by decide, _, rfl⟩

theorem witness_TimeoutZeroReceivesOnce :
    (idle 123 [0, 0] [] []).Ready ∧ (idle 123 [0, 0] [] []).clockWrap = .forbidden ∧ (idle 123 [0, 0] [] []).rxq = [] :=
  ⟨⟨rfl, rfl⟩, rfl, rfl⟩

/-- A seek that is about to return true, and a receive that is about to return its frame. -/
theorem witness_DeliveredHeads :
    let s := (at_ .seekFrameStart none (.retFound true) { State.reset with rxq := rg }).withTurn .block
    let u := ({ State.reset with busy := true, transient := some ⟨.receiveFrame 6000, some 6000, .retFrame, rg, 0⟩ }
      : State).withTurn .block
    (s.Inv ∧ s.ownershipBroken = false ∧ ∃ s', step s = .next s' ∧ s'.result = some ⟨.ok, .found true⟩) ∧
      (u.Inv ∧ u.ownershipBroken = false ∧ ∃ u', step u = .next u' ∧ u'.result = some ⟨.ok, .received rg⟩) := by
  refine ⟨⟨?_, rfl, _, rfl, rfl⟩, ⟨?_, rfl, _, rfl, rfl⟩⟩
  · exact inv_at _ _ _ (State.withTurn .block { State.reset with rxq := rg })
      (sound_at .seekFrameStart none (.retFound true) rfl rfl rfl (by decide) (by decide)) rfl
  · refine ⟨fun _ => rfl, ?_, ?_⟩
    · rintro _ _ ⟨⟩; exact ⟨rfl, rfl, rfl, (fun h => by cases h), fun _ => ⟨rfl, rfl⟩⟩
    · rintro _ _ ⟨⟩ _; trivial

theorem witness_EveryStepKeepsInvariant :
    let s := sendingNothing.withTurn (.arrive [0xAA])
    s.Inv ∧ ∃ s', step s = .next s' :=
  ⟨inv_at _ _ _ (State.reset.withTurn (.arrive [0xAA]))
    (sound_at (.sendFrame [] 10) (some 10) .write rfl rfl rfl (by decide) (by decide)) trivial, _, rfl⟩

theorem witness_DeadlineIsImmutable :
    let s := (receiving .yield State.reset).withTurn .block
    s.Inv ∧ s.ownershipBroken = false ∧ s.transient = some (tr (.receiveFrame 6000) (some 6000) .yield) ∧
      ∃ s' t, step s = .next s' ∧ s'.transient = some t :=
  ⟨inv_at _ _ _ (State.reset.withTurn .block) (sound_receiving .yield rfl (by decide)) trivial, rfl, rfl, _, _, rfl, rfl⟩

theorem witness_HistoryOnlyGrows :
    let s := (receiving .yield State.reset).withTurn .block
    s.ownershipBroken = false ∧ (∃ s', step s = .next s') ∧ s.nextTurn.1 ≠ .reset := ⟨rfl, ⟨_, rfl⟩, by decide⟩

theorem witness_WhoChangesStreams :
    let s := (receiving .take { State.reset with rxq := rg }).withTurn .block
    s.ownershipBroken = false ∧ (∃ s', step s = .next s' ∧ s'.faultMark = none) ∧ s.Exclusive :=
  ⟨rfl, ⟨_, rfl, rfl⟩, (fun n h => by cases h), (fun b h => by cases h)⟩

/-- One state for each status that a step can produce beside OK. -/
theorem witness_StatusProducers :
    let send := (at_ (.sendFrame [] 10) (some 10) .retWriteTimeout State.reset).withTurn .block
    let receive := (receiving .retReadTimeout State.reset).withTurn .block
    let check := State.reset.withTurn (.issue { op := 0x14, kind := some 1, f := some rb })
    let reserved := State.reset.withTurn (.issue { op := 0 })
    (send.ownershipBroken = false ∧ receive.ownershipBroken = false ∧ check.ownershipBroken = false ∧
      reserved.ownershipBroken = false) ∧
      (∃ s', step send = .next s' ∧ s'.result = some ⟨.transportWriteTimeout, .sent 0⟩) ∧
      (∃ s', step receive = .next s' ∧ s'.result = some ⟨.transportReadTimeout, .none⟩) ∧
      (∃ s', step check = .next s' ∧ s'.result.map (·.status.code) = some 0x03) ∧
      (∃ s', step reserved = .next s' ∧ s'.result = some ⟨.illegalOperation, .none⟩) :=
  ⟨⟨rfl, rfl, rfl, rfl⟩, ⟨_, rfl, rfl⟩, ⟨_, rfl, rfl⟩, ⟨_, rfl, by decide⟩, ⟨_, rfl, rfl⟩⟩

theorem witness_BlockingOperationFrames :
    IsBlocking .seekFrameStart ∧ ∃ s', exec .seekFrameStart State.reset = .next s' :=
  ⟨by simp [IsBlocking, Instr.opcode, opByte], _, rfl⟩

/-- A step that shows a result, and the events it adds. -/
theorem witness_ResultMeansIdle :
    State.reset.ownershipBroken = false ∧ ∃ s' r events, step (State.reset.withTurn (.issue { op := 0x02 })) = .next s' ∧
      s'.result = some r ∧ s'.history = State.reset.history ++ events ∧ .result r ∈ events :=
  ⟨rfl, _, _, [.issue .getTimeout, .result ⟨.ok, .timeout 1000⟩], rfl, rfl, rfl, by decide⟩

/-- A run: a send of no bytes times out, then GET_TIMEOUT is requested and answered, then the block stays idle. -/
def quietRun : Nat → State
  | 0 => (at_ (.sendFrame [] 10) (some 10) .retWriteTimeout State.reset).withTurn .block
  | 1 => { State.reset with
      result := some ⟨.transportWriteTimeout, .sent 0⟩, history := [.result ⟨.transportWriteTimeout, .sent 0⟩],
      schedule := [.issue { op := 0x02 }] }
  | 2 => { State.reset with
      result := some ⟨.ok, .timeout 1000⟩, schedule := [.block],
      history := [.result ⟨.transportWriteTimeout, .sent 0⟩, .issue .getTimeout, .result ⟨.ok, .timeout 1000⟩] }
  | _ + 3 => { State.reset with
      schedule := [.block],
      history := [.result ⟨.transportWriteTimeout, .sent 0⟩, .issue .getTimeout, .result ⟨.ok, .timeout 1000⟩] }

theorem quietRun_isRun : IsRun quietRun
  | 0 => ⟨_, rfl, rfl⟩
  | 1 => ⟨_, rfl, rfl⟩
  | 2 => ⟨_, rfl, rfl⟩
  | _ + 3 => ⟨_, rfl, rfl⟩

/-- Every premise of the liveness statement, an operation in progress, and a last request, in one run. -/
theorem witness_OperationsEndUnderLivenessPremises :
    IsRun quietRun ∧ (quietRun 0).Inv ∧ (quietRun 0).ownershipBroken = false ∧ (∀ n, (quietRun n).Exclusive) ∧
      (∀ n, (quietRun n).nextTurn.1 ≠ .reset) ∧ ClockProgress quietRun ∧ FiniteBursts quietRun ∧ YieldsReturn quietRun ∧
      (quietRun 0).busy = true ∧ (∃ r, (quietRun 1).nextTurn.1 = .issue r) ∧
      (∀ k r, 1 < k → (quietRun k).nextTurn.1 ≠ .issue r) := by
  have turn : ∀ n, 1 < n → (quietRun n).nextTurn.1 = .block
    | 2, _ => rfl
    | _ + 3, _ => rfl
  refine ⟨quietRun_isRun, ?_, rfl, ?_, ?_, ?_, ?_, fun n => ⟨n + 2, by omega, turn _ (by omega)⟩, rfl, ⟨_, rfl⟩,
    fun k r hk => by rw [turn k hk]; exact Turn.noConfusion⟩
  · exact inv_at _ _ _ (State.reset.withTurn .block)
      (sound_at (.sendFrame [] 10) (some 10) .retWriteTimeout rfl rfl rfl (by decide) (by decide)) trivial
  · rintro (_ | _ | n)
    · exact ⟨fun _ => Turn.noConfusion, fun _ => Turn.noConfusion⟩
    · exact ⟨fun _ => Turn.noConfusion, fun _ => Turn.noConfusion⟩
    · exact ⟨fun _ => by rw [turn _ (by omega)]; exact Turn.noConfusion, fun _ => by rw [turn _ (by omega)]; exact Turn.noConfusion⟩
  · rintro (_ | _ | n)
    · exact Turn.noConfusion
    · exact Turn.noConfusion
    · rw [turn _ (by omega)]; exact Turn.noConfusion
  · intro h
    obtain ⟨m, t, hm, events, he, ht⟩ := h 2
    have : (quietRun (m + 1)).history = (quietRun m).history ++ [] := by
      match m, hm with
      | 2, _ => rfl
      | _ + 3, _ => rfl
    rw [List.append_cancel_left (he.symm.trans this)] at ht
    cases ht
  · intro n h
    obtain ⟨t, ht, -⟩ := h (n + 2) (by omega)
    exfalso
    match n with
    | 0 => cases ht
    | _ + 1 => cases ht

end Sys2Proof.Tests
end

section
/-! A clock read whose draw no script fixes (00_scope.md R7, 60_exceptions.md R211; log 10). -/

namespace Sys2Proof.Machine

variable {s : State} {tr : Transient} {dl : Word}

theorem drawClockStep_nil (h : s.clockSteps = []) :
    s.drawClockStep = (Config.freeClockStep s.draws, { s with draws := s.draws + 1 }) := by
  simp only [State.drawClockStep, h]

/-- The companion of `primNow_cons` for a script that is used up: the draw is the free one. -/
theorem primNow_nil (h : s.clockSteps = []) :
    s.primNow = (clockAfter s.clockWrap s.clock (Config.freeClockStep s.draws),
      { s.log (.now (clockAfter s.clockWrap s.clock (Config.freeClockStep s.draws))) with
        clock := clockAfter s.clockWrap s.clock (Config.freeClockStep s.draws), draws := s.draws + 1 }) := by
  simp only [State.primNow, drawClockStep_nil h]; rfl

/-- The state after the clock read of an operation in progress that draws the free value: `retry` while the value read is
below the deadline, else `expired` (41_transport.md R163). -/
def State.afterFreeClock (retry expired : Phase) (tr : Transient) (dl : Word) (s : State) : State :=
  let t := clockAfter s.clockWrap s.clock (Config.freeClockStep s.draws)
  { s with
    draws := s.draws + 1, clock := t, history := s.history ++ [.now t],
    transient := some { tr with phase := if t.toNat < dl.toNat then retry else expired } }

theorem advanceClock_nil (retry expired : Phase) (hd : tr.dl = some dl) (h : s.clockSteps = []) :
    advanceClock retry expired tr s = .next (s.afterFreeClock retry expired tr dl) := by
  simp [advanceClock, hd, primNow_nil h, State.afterFreeClock, State.goto, State.log, beforeDeadline, BitVec.ult]

/-- SEND_FRAME at its clock point reads the clock (R164). -/
theorem exec_sendFrame_clock {buf : List Byte} (hr : s.Running tr) (hp : tr.phase = .clock)
    (ho : tr.op = .sendFrame buf dl) (hbuf : buf.length ≤ 255) :
    exec tr.op s = advanceClock .write .retWriteTimeout tr s := by
  have hcheck : tr.op.check = none := by simp [ho, Instr.check, checkLen, Config.maxSendLen, hbuf]
  rw [exec_running hr hcheck]
  simp only [ho, advanceSendFrame, hp]

/-- RECEIVE_FRAME at its clock point reads the clock (R166). -/
theorem exec_receiveFrame_clock (hr : s.Running tr) (hp : tr.phase = .clock) (ho : tr.op = .receiveFrame dl) :
    exec tr.op s = advanceClock .seekAvail .retReadTimeout tr s := by
  have hcheck : tr.op.check = none := by rw [ho]; rfl
  rw [exec_running hr hcheck]
  simp only [ho, advanceReceiveFrame, hp]

/-- Settles O27: the number is the free draw, and both clock points are the one shared by SEND_FRAME and RECEIVE_FRAME. -/
theorem freeClockStepAdvancesClock : Obligations.FreeClockStepAdvancesClock := by
  intro s tr dl hr hp hd hs
  refine ⟨Config.freeClockStep s.draws, fun buf hbuf ho => ?_, fun ho => ?_⟩
  · exact (exec_sendFrame_clock hr hp ho hbuf).trans (advanceClock_nil _ _ hd hs)
  · exact (exec_receiveFrame_clock hr hp ho).trans (advanceClock_nil _ _ hd hs)

end Sys2Proof.Machine
end

section
/-! One step of a run that no foreign agent has touched (10_state.md R26 to R30; 20_memory.md R60), case by case, with the
meaning of the operation resolved to what it does to the state. -/

namespace Sys2Proof.Machine

variable {s s' : State} {tr : Transient} (rest : List Turn) (m : Nat)

/-! ### The state a turn is taken in -/

@[simp] theorem State.atTurn_timeoutMs : (s.atTurn rest m).timeoutMs = s.timeoutMs := rfl
@[simp] theorem State.atTurn_busy : (s.atTurn rest m).busy = s.busy := rfl
@[simp] theorem State.atTurn_transient : (s.atTurn rest m).transient = s.transient := rfl
@[simp] theorem State.atTurn_result : (s.atTurn rest m).result = none := rfl
@[simp] theorem State.atTurn_history : (s.atTurn rest m).history = s.history := rfl
@[simp] theorem State.atTurn_faultMark : (s.atTurn rest m).faultMark = s.faultMark := rfl
@[simp] theorem State.atTurn_rxq : (s.atTurn rest m).rxq = s.rxq := rfl
@[simp] theorem State.atTurn_txlog : (s.atTurn rest m).txlog = s.txlog := rfl
@[simp] theorem State.atTurn_clock : (s.atTurn rest m).clock = s.clock := rfl
@[simp] theorem State.atTurn_ownershipBroken : (s.atTurn rest m).ownershipBroken = s.ownershipBroken := rfl

/-! ### Operations -/

/-- An operation in progress in an unfaulted block makes the step of its point; one that is not blocking is a request while
BUSY is 1 (log 20). -/
theorem exec_of_running (hr : s.Running tr) (h : exec tr.op s = .next s') :
    s' = s.raise .reentrantIssue ∨ BlockStep tr s s' := by
  obtain ⟨hf, hb, ht⟩ := hr
  obtain ⟨hc, -⟩ | ⟨-, -, h⟩ | ⟨t, hrt, -, hblk, hi, h⟩ | ⟨-, hc, -⟩ | ⟨-, hc, -⟩ := exec_next h
  · exact absurd hf hc
  · exact .inl h
  · exact .inr (exec_blockStep ⟨hf, hb, ht⟩ hblk hi h)
  · exact absurd hc.2 (by simp [hb])
  · exact absurd hc.2 (by simp [hb])

/-- What the body of an operation of one step leaves before it returns: nothing but the issue, the register written by
SET_TIMEOUT, or the clock read by MK_DEADLINE. -/
inductive BodyStep (i : Instr) (s : State) : State → Prop where
  | pure : BodyStep i s (s.start i)
  | wroteRegister (t) (op : i = .setTimeout t) : BodyStep i s { s.start i with timeoutMs := t }
  | readClock (t delta ds m) (op : i = .mkDeadline t) :
    BodyStep i s { s.start i with
      clock := clockAfter s.clockWrap s.clock delta, clockSteps := ds, draws := m,
      history := s.history ++ [.issue i, .now (clockAfter s.clockWrap s.clock delta)] }

/-- An operation on a block that is ready is accepted at its first point, or runs and returns. -/
theorem exec_of_ready {i : Instr} (hr : s.Ready) (h : exec i s = .next s') :
    (i.check = none ∧ ∃ p, s' = s.accept i (deadlineOf i) p ∧ pointOf i p = true ∧ (p = .write ∨ p = .seekAvail)) ∨
    ∃ s1 r, BodyStep i s s1 ∧ s' = s1.finish r := by
  obtain ⟨hf, hb⟩ := hr
  obtain ⟨hc, -⟩ | ⟨-, hc, -⟩ | ⟨_, ⟨-, hc, -⟩, -⟩ | ⟨hi, -, -, h⟩ | ⟨-, -, -, s1, r, h, hs1, -⟩ := exec_next h
  · exact absurd hf hc
  · exact absurd hc (by simp [hb])
  · exact absurd hc (by simp [hb])
  · exact .inl ⟨hi, h⟩
  · refine .inr ⟨s1, r, ?_, h⟩
    obtain rfl | ⟨t, hi, rfl⟩ | ⟨t, delta, ds, m, hi, rfl⟩ := hs1
    · exact .pure
    · exact .wroteRegister t hi
    · exact .readClock t delta ds m hi

/-! ### The step -/

/-- One step of a run without foreign agent: `s` is the state before it and `u` the state its turn is taken in. -/
inductive UntouchedStep (s u : State) : State → Prop where
  | unmoved : UntouchedStep s u u
  | reentrant (safe : s.faultMark = none) (busy : s.busy = true) : UntouchedStep s u (u.raise .reentrantIssue)
  | advanced (tr t) (turn : s.nextTurn.1 = .block) (running : s.Running tr) (step : BlockStep tr u t) :
    UntouchedStep s u t
  | accepted (i p) (ready : s.Ready) (wellFormed : i.check = none) (point : pointOf i p = true)
      (first : p = .write ∨ p = .seekAvail) : UntouchedStep s u (u.accept i (deadlineOf i) p)
  | returned (r i s1 record) (turn : s.nextTurn.1 = .issue r) (reads : decode r = .instr i) (ready : s.Ready)
      (body : BodyStep i u s1) : UntouchedStep s u (s1.finish record)
  | returnedReserved (op record) (ready : s.Ready) : UntouchedStep s u ((u.log (.issueReserved op)).finish record)
  | arrived (bytes) (turn : s.nextTurn.1 = .arrive bytes) : UntouchedStep s u { u with rxq := s.rxq ++ bytes }
  | wasReset (turn : s.nextTurn.1 = .reset) : UntouchedStep s u u.blockReset
  | foreignTook (n) (turn : s.nextTurn.1 = .foreignRead n) :
    UntouchedStep s u { u.markForeign with rxq := s.rxq.drop n }
  | foreignWrote (bytes) (turn : s.nextTurn.1 = .foreignWrite bytes) :
    UntouchedStep s u { u.markForeign with txlog := s.txlog ++ bytes }

/-- Every step of a run without foreign agent is one of these. -/
theorem step_untouched (h : step s = .next s') (ho : s.ownershipBroken = false) :
    ∃ rest m, UntouchedStep s (s.atTurn rest m) s' := by
  obtain ⟨rest, m, h⟩ := step_next_untouched h ho
  refine ⟨rest, m, ?_⟩
  obtain ⟨-, rfl⟩ | ⟨-, -, rfl⟩ | ⟨ht, tr, hr, he⟩ | ⟨_, -, hf, hb, rfl⟩ | ⟨r, i, ht, hr, hd, he⟩ |
    ⟨_, op, -, hr, -, rfl⟩ | ⟨bytes, ht, rfl⟩ | ⟨ht, rfl⟩ | ⟨n, ht, rfl⟩ | ⟨bytes, ht, rfl⟩ := h
  · exact .unmoved
  · exact .unmoved
  · obtain rfl | hs := exec_of_running (s := s.atTurn rest m) hr he
    · exact .reentrant hr.1 hr.2.1
    · exact .advanced tr s' ht hr hs
  · exact .reentrant hf hb
  · obtain ⟨hi, p, rfl, hp, hfirst⟩ | ⟨s1, record, hbody, rfl⟩ := exec_of_ready (s := s.atTurn rest m) hr he
    · exact .accepted i p hr hi hp hfirst
    · exact .returned r i s1 record ht hd hr hbody
  · exact .returnedReserved op _ hr
  · exact .arrived bytes ht
  · exact .wasReset ht
  · exact .foreignTook n ht
  · exact .foreignWrote bytes ht

end Sys2Proof.Machine
end

section
/-! What each kind of step leaves unchanged, and what it records. -/

namespace Sys2Proof.Machine

variable {s s' : State} {tr : Transient} {i : Instr}

/-- No point of a blocking operation writes TIMEOUT_MS (10_state.md R22). -/
theorem BlockStep.timeoutMs_eq (h : BlockStep tr s s') : s'.timeoutMs = s.timeoutMs := by cases h <;> rfl

/-- The block never sets or clears the mark of a foreign agent. -/
theorem BlockStep.ownershipBroken_eq (h : BlockStep tr s s') : s'.ownershipBroken = s.ownershipBroken := by
  cases h <;> rfl

/-- The events a step adds when it returns nothing: no result record is shown, and none is recorded. -/
structure Silent (s s' : State) (events : List Event) : Prop where
  history : s'.history = s.history ++ events
  result : s'.result = none
  noRecord : ∀ r, .result r ∉ events
  calls : (events.filter Event.isCall).length ≤ 1

/-- The events a step adds when it returns `r` after `events`: the record is the last event, and the block is idle (10_state.md
R23, R24, R29). -/
structure Delivers (s s' : State) (events : List Event) (r : ResultRecord) : Prop where
  history : s'.history = s.history ++ events ++ [.result r]
  result : s'.result = some r
  noRecord : ∀ r', .result r' ∉ events
  calls : (events.filter Event.isCall).length ≤ 1
  idle : s'.busy = false ∧ s'.transient = none ∧ s'.faultMark = none

/-- A step returns nothing, or delivers one result record. -/
def Records (s s' : State) : Prop := (∃ events, Silent s s' events) ∨ ∃ events r, Delivers s s' events r

theorem Records.unchanged (hh : s'.history = s.history) (hr : s'.result = none) : Records s s' :=
  .inl ⟨[], by simp [hh], hr, by simp, by simp⟩

theorem Records.single {e : Event} (hh : s'.history = s.history ++ [e]) (hr : s'.result = none) (he : ∀ r, e ≠ .result r) :
    Records s s' :=
  .inl ⟨[e], hh, hr, fun r h => he r (List.mem_singleton.1 h).symm, List.length_filter_le _ _⟩

/-- A return after one or no primitive call. -/
theorem Records.finish {s1 : State} {events : List Event} (r : ResultRecord) (hh : s1.history = s.history ++ events)
    (hf : s1.faultMark = none) (hn : ∀ r', .result r' ∉ events) (hc : (events.filter Event.isCall).length ≤ 1) :
    Records s (s1.finish r) :=
  .inr ⟨events, r, by simp [hh], rfl, hn, hc, rfl, rfl, hf⟩

/-- A point of a blocking operation makes one primitive call, or returns. -/
theorem BlockStep.records (h : BlockStep tr s s') (hr : s.result = none) (hf : s.faultMark = none) : Records s s' := by
  cases h
  case sent | writeTimeout | found | received | readTimeout =>
    exact .finish (events := []) _ (by simp) hf (by simp) (by simp)
  all_goals exact .single rfl hr fun _ => Event.noConfusion

/-- The body of an operation of one step leaves the fault mark, and records the issue and at most one clock read. -/
theorem BodyStep.records_finish {s1 : State} (h : BodyStep i s s1) (hf : s.faultMark = none) (r : ResultRecord) :
    Records s (s1.finish r) := by
  cases h with
  | pure => exact .finish (events := [.issue i]) r rfl hf (by simp) (by simp [Event.isCall])
  | wroteRegister t op => exact .finish (events := [.issue i]) r rfl hf (by simp) (by simp [Event.isCall])
  | readClock t delta ds m op =>
    exact .finish (events := [.issue i, .now (clockAfter s.clockWrap s.clock delta)]) r rfl hf (by simp) le_rfl

/-- Every step but a reset adds its events in one of the two ways (10_state.md R29). -/
theorem UntouchedStep.records {rest : List Turn} {m : Nat} (h : UntouchedStep s (s.atTurn rest m) s')
    (hturn : s.nextTurn.1 ≠ .reset) : Records (s.atTurn rest m) s' := by
  cases h with
  | unmoved => exact .unchanged rfl rfl
  | reentrant safe busy => exact .unchanged rfl rfl
  | advanced tr s' turn running step => exact step.records rfl running.1
  | accepted i p ready wellFormed point first => exact .single (e := .issue i) rfl rfl fun _ => Event.noConfusion
  | returned r i s1 record turn reads ready body => exact body.records_finish ready.1 record
  | returnedReserved op record ready =>
    exact .finish (events := [.issueReserved op]) record rfl ready.1 (by simp) (by simp [Event.isCall])
  | arrived bytes turn => exact .unchanged rfl rfl
  | wasReset turn => exact absurd turn hturn
  | foreignTook n turn => exact .unchanged rfl rfl
  | foreignWrote bytes turn => exact .unchanged rfl rfl

/-- Every step but a reset, in a run that no foreign agent has touched. -/
theorem step_records (h : step s = .next s') (ho : s.ownershipBroken = false) (hturn : s.nextTurn.1 ≠ .reset) :
    ∃ rest m, Records (s.atTurn rest m) s' := by
  obtain ⟨rest, m, hs⟩ := step_untouched h ho
  exact ⟨rest, m, hs.records hturn⟩

/-- A reset turn shows no result record and leaves an empty history (70_reset_and_hazards.md R240). -/
theorem step_reset (h : step s = .next s') (hturn : s.nextTurn.1 = .reset) :
    ∃ rest m, s' = (s.atTurn rest m).blockReset := by
  obtain ⟨rest, m, hs⟩ := step_eq s
  rw [hs, hturn] at h
  exact ⟨rest, m, (Host.Outcome.next.inj h).symm⟩

/-- Settles O54: the events of a step are those of its silent part, at most one of them a call, and a record is no call. -/
theorem historyOnlyGrows : Obligations.HistoryOnlyGrows := by
  intro s s' ho h hturn
  obtain ⟨rest, m, ⟨events, hs⟩ | ⟨events, r, hd⟩⟩ := step_records h ho hturn
  · exact ⟨events, hs.history, hs.calls⟩
  · refine ⟨events ++ [.result r], by rw [hd.history, List.append_assoc]; rfl, ?_⟩
    simpa [Event.isCall] using hd.calls

/-- Settles O58: a step that returns adds its record as its last event, and every other step adds none. -/
theorem resultMeansIdle : Obligations.ResultMeansIdle := by
  intro s s' r ho h
  by_cases hturn : s.nextTurn.1 = .reset
  · obtain ⟨rest, m, rfl⟩ := step_reset h hturn
    refine ⟨fun hr => by simp at hr, fun events he hm => ?_⟩
    obtain ⟨-, rfl⟩ : s.history = [] ∧ events = [] := by simpa using he
    simp at hm
  · obtain ⟨rest, m, ⟨events, hs⟩ | ⟨events, r0, hd⟩⟩ := step_records h ho hturn
    · refine ⟨fun hr => by simp [hs.result] at hr, fun events' he hm => ?_⟩
      have hsame : events' = events := List.append_cancel_left (he.symm.trans hs.history)
      exact absurd (hsame ▸ hm) (hs.noRecord r)
    · obtain ⟨hb, ht, hf⟩ := hd.idle
      refine ⟨fun hr => ?_, fun events' he hm => ?_⟩
      · obtain rfl : r0 = r := Option.some.inj (hd.result.symm.trans hr)
        exact ⟨hb, ht, hf, events, hd.history⟩
      · have hsame : events' = events ++ [.result r0] :=
          List.append_cancel_left (he.symm.trans (hd.history.trans (List.append_assoc _ _ _)))
        rw [hsame, List.mem_append] at hm
        obtain hm | hm := hm
        · exact absurd hm (hd.noRecord r)
        · obtain rfl : r = r0 := by simpa using hm
          exact hd.result

/-- Settles O24: of all steps only a reset turn and the body of SET_TIMEOUT reach the register. -/
theorem onlySetTimeoutWritesRegister : Obligations.OnlySetTimeoutWritesRegister := by
  intro s s' ho h
  obtain ⟨rest, m, hs⟩ := step_untouched h ho
  cases hs with
  | advanced tr _ turn running step => exact .inl step.timeoutMs_eq
  | wasReset turn => exact .inr (.inl ⟨turn, rfl⟩)
  | returned r i s1 record turn reads ready body =>
    cases body with
    | pure => exact .inl rfl
    | wroteRegister t op => exact .inr (.inr ⟨r, t, turn, op ▸ reads, rfl⟩)
    | readClock t delta ds m op => exact .inl rfl
  | unmoved | reentrant | accepted | returnedReserved | arrived | foreignTook | foreignWrote => exact .inl rfl

end Sys2Proof.Machine
end

section
/-! A faulted block (10_state.md R30), a block turn without an operation (log 23), and who changes the streams (R27). -/

namespace Sys2Proof.Machine

variable {s s' : State} {tr : Transient} {i : Instr}

/-- A block turn of a faulted or idle block does nothing (log 23). -/
theorem blockTurn_without_operation (h : s.faultMark ≠ none ∨ s.busy = false) : blockTurn s = .next s := by
  cases hf : s.faultMark with
  | some reason => simp [blockTurn, State.faulted, hf]
  | none =>
    have hb : s.busy = false := h.resolve_left fun hc => hc hf
    simp [blockTurn, State.faulted, hf, hb]

/-- A faulted block ignores whatever a request would run. -/
theorem serve_faulted {run : State → Outcome} (h : s.faultMark ≠ none) : s.serve run = .next s := by
  simp [State.serve, State.faulted, Option.isSome_iff_ne_none, h]

/-- A faulted block ignores every request that the interface lets pass. -/
theorem offer_faulted {r : Request} (h : s.faultMark ≠ none) (hd : ∀ why, decode r ≠ .rejected why) :
    offer r s = .next s := by
  unfold offer
  cases hr : decode r with
  | rejected why => exact absurd hr (hd why)
  | reserved op => exact serve_faulted h
  | instr i => exact serve_faulted h

/-- Settles O4: a listed block turn is a block turn of the same state with no result record shown. -/
theorem stepAdvancesOperationInProgress : Obligations.StepAdvancesOperationInProgress := by
  intro s tr hr ho
  exact (step_withTurn .block s).trans (blockTurn_running (s := s.dropResult) hr ho)

/-- Settles O5: the block turn of `blockTurn_without_operation`, listed next. -/
theorem blockTurnWithoutOperation : Obligations.BlockTurnWithoutOperation := by
  intro s h
  exact (step_withTurn .block s).trans (blockTurn_without_operation (s := s.dropResult) h.symm)

/-- Settles O15: the fault mark is looked at before anything of a request that is not refused. -/
theorem faultedBlockIgnoresRequests : Obligations.FaultedBlockIgnoresRequests := by
  intro s r hf hd
  exact (step_withTurn (.issue r) s).trans (offer_faulted (s := s.dropResult) hf hd)

/-- A step of a faulted block, by any agent but block reset, is that of an agent outside the block or does nothing. -/
theorem step_faulted (hf : s.faultMark ≠ none) (h : step s = .next s') (hturn : s.nextTurn.1 ≠ .reset) :
    ∃ rest m, s' = s.atTurn rest m ∨ (∃ rxq, s' = { s.atTurn rest m with rxq := rxq }) ∨
      (∃ rxq, s' = { (s.atTurn rest m).markForeign with rxq := rxq }) ∨
      ∃ txlog, s' = { (s.atTurn rest m).markForeign with txlog := txlog } := by
  obtain ⟨rest, m, h⟩ := step_next h
  refine ⟨rest, m, ?_⟩
  obtain ⟨-, h⟩ | ⟨-, -, h⟩ | ⟨-, _, hr, -⟩ | ⟨_, -, hc, -⟩ | ⟨_, _, -, hr, -⟩ | ⟨_, _, -, hr, -⟩ | ⟨bytes, -, h⟩ |
    ⟨hc, -⟩ | ⟨n, -, h⟩ | ⟨bytes, -, h⟩ | ⟨hc, -⟩ := h
  · exact .inl h
  · exact .inl h
  · exact absurd hr.1 hf
  · exact absurd hc hf
  · exact absurd hr.1 hf
  · exact absurd hr.1 hf
  · exact .inr (.inl ⟨_, h⟩)
  · exact absurd hc hturn
  · exact .inr (.inr (.inl ⟨_, h⟩))
  · exact .inr (.inr (.inr ⟨_, h⟩))
  · exact absurd hc hf

/-- Settles O14: only RXQ, TXLOG and the mark of a foreign agent can change, and no block state is among them. -/
theorem faultMarkIsSticky : Obligations.FaultMarkIsSticky := by
  intro s s' reason hf h hturn
  obtain ⟨rest, m, rfl | ⟨_, rfl⟩ | ⟨_, rfl⟩ | ⟨_, rfl⟩⟩ := step_faulted (by simp [hf]) h hturn <;>
    exact ⟨hf, rfl, rfl, rfl, rfl, rfl, rfl⟩

/-- A block step that breaks no contract takes one byte or ten from RXQ, or none, and TXLOG only grows (R57 to R59). -/
theorem BlockStep.streams (h : BlockStep tr s s') (hf : s.faultMark = none)
    (hc : s'.faultMark ≠ some .transportContract) :
    (s'.rxq = s.rxq ∨ ∃ n, (n = 1 ∨ n = 10) ∧ n ≤ s.rxq.length ∧ s'.rxq = s.rxq.drop n) ∧
      ∃ bytes, s'.txlog = s.txlog ++ bytes := by
  have unsent : ∃ bytes, s.txlog = s.txlog ++ bytes := ⟨[], (List.append_nil _).symm⟩
  cases h
  case wrote buf dl k ks m op at_ le => exact ⟨.inl rfl, buf.take k, rfl⟩
  case dropped b rest at_ front op =>
    exact ⟨.inr ⟨1, .inl rfl, by simp [front], by simp [front]⟩, unsent⟩
  case took dl op at_ enough full => exact ⟨.inr ⟨10, .inr rfl, enough, rfl⟩, unsent⟩
  case overwrote | peekedNothing | droppedNothing | tookShort => exact absurd (by simp [hf]) hc
  all_goals exact ⟨.inl rfl, unsent⟩

/-- The body of an operation of one step touches neither stream. -/
theorem BodyStep.streams {s1 : State} (h : BodyStep i s s1) : s1.rxq = s.rxq ∧ s1.txlog = s.txlog := by
  cases h <;> exact ⟨rfl, rfl⟩

/-- Settles O55: of the agents left in an exclusive run, only arrivals and the operation in progress reach the streams. -/
theorem whoChangesStreams : Obligations.WhoChangesStreams := by
  intro s s' ho hx h hc
  obtain ⟨rest, m, hs⟩ := step_untouched h ho
  cases hs with
  | advanced tr _ turn running step =>
    obtain ⟨hrxq, htxlog⟩ := step.streams running.1 fun hb => hc hb running.1
    exact ⟨hrxq.imp id fun hn => .inr ⟨turn, hn⟩, .inr ⟨turn, htxlog⟩⟩
  | arrived bytes turn => exact ⟨.inr (.inl ⟨bytes, turn, rfl⟩), .inl rfl⟩
  | returned r i s1 record turn reads ready body => exact ⟨.inl body.streams.1, .inl body.streams.2⟩
  | foreignTook n turn => exact absurd turn (hx.1 n)
  | foreignWrote bytes turn => exact absurd turn (hx.2 bytes)
  | unmoved | reentrant | accepted | returnedReserved | wasReset => exact ⟨.inl rfl, .inl rfl⟩

end Sys2Proof.Machine
end

section
/-! The invariant of the machine (10_state.md R23, R26; 20_memory.md R56 to R58; 41_transport.md R170): it holds of every
idle block, of every run that a foreign agent has touched, and of an operation that has moved to a point of its own
pseudocode; and every step leads to one of these. -/

namespace Sys2Proof.Machine

variable {s s' : State} {tr : Transient} {i : Instr}

/-! ### Where the invariant holds -/

theorem State.Inv.of_touched (ho : s.ownershipBroken = true) : s.Inv :=
  ⟨by simp [ho], by simp [ho], by simp [ho]⟩

theorem State.Inv.of_idle (hb : s.busy = false) (ht : s.transient = none) : s.Inv :=
  ⟨by simp [hb, ht], by simp [ht], by simp [ht]⟩

theorem State.Inv.of_busy (hb : s.busy = true) (ht : s.transient = some tr) (hs : tr.Sound)
    (hx : s.faultMark = none → StreamAt tr.phase s.rxq) : s.Inv := by
  refine ⟨fun _ => by simp [hb, ht], fun _ tr' htr => ?_, fun _ tr' htr => ?_⟩
  all_goals obtain rfl : tr = tr' := Option.some.inj (ht.symm.trans htr)
  · exact hs
  · exact hx

/-- The invariant reads BUSY, the transient state, the fault mark, RXQ and the mark of a foreign agent. -/
theorem State.Inv.congr (hi : s.Inv) (ho : s.ownershipBroken = false) (hb : s'.busy = s.busy)
    (ht : s'.transient = s.transient)
    (hx : s'.faultMark = none → s.faultMark = none ∧ ∀ p, StreamAt p s.rxq → StreamAt p s'.rxq) : s'.Inv := by
  refine ⟨fun _ => by rw [hb, ht, hi.bracket ho], fun _ tr htr => hi.sound ho tr (ht ▸ htr), fun _ tr htr hf => ?_⟩
  obtain ⟨hf, hx⟩ := hx hf
  exact hx _ (hi.stream ho tr (ht ▸ htr) hf)

/-- An idle block that meets the invariant has no operation in progress. -/
theorem State.Inv.transient_eq_none (hi : s.Inv) (ho : s.ownershipBroken = false) (hb : s.busy = false) :
    s.transient = none := by
  simpa [hb] using hi.bracket ho

/-- Bytes that arrive at the tail break no precondition of a call (20_memory.md R61). -/
theorem StreamAt.append {p : Phase} {rxq : List Byte} (h : StreamAt p rxq) (bytes : List Byte) :
    StreamAt p (rxq ++ bytes) := by
  have headKept : rxq.head? = some Config.head → (rxq ++ bytes).head? = some Config.head := fun hh => by
    simp [hh]
  cases p with
  | seekPeek => exact List.append_ne_nil_of_left_ne_nil h bytes
  | seekDrop => obtain ⟨b, rest, rfl, hb⟩ := h; exact ⟨b, rest ++ bytes, rfl, hb⟩
  | countAvail => exact headKept h
  | take => exact ⟨headKept h.1, h.2.trans (by simp)⟩
  | retFound found =>
    cases found with
    | true => exact headKept h
    | false => trivial
  | write | yield | clock | seekAvail | retSent | retWriteTimeout | retFrame | retReadTimeout => trivial

/-! ### Transient states -/

/-- An operation that moves to a point which is no return with a held value stays sound. -/
theorem Transient.Sound.goto (hs : tr.Sound) {p : Phase} (hp : pointOf tr.op p = true) (buf : List Byte) (k : Nat)
    (h1 : p ≠ .retSent := by simp) (h2 : p ≠ .retFrame := by simp) :
    Transient.Sound { tr with phase := p, buf := buf, k := k } :=
  ⟨hs.wellFormed, hp, hs.deadline, fun h => absurd h h1, fun h => absurd h h2⟩

/-- A blocking operation that is just accepted is sound. -/
theorem Transient.Sound.initial {p : Phase} (hi : i.check = none) (hp : pointOf i p = true)
    (hfirst : p = .write ∨ p = .seekAvail) : Transient.Sound ⟨i, deadlineOf i, p, [], 0⟩ := by
  refine ⟨hi, hp, rfl, ?_, ?_⟩ <;> rintro rfl <;> simp at hfirst

end Sys2Proof.Machine
end

section
/-! Every step keeps the invariant: first the steps of the operation in progress, point by point, then the turns of all agents. -/

namespace Sys2Proof.Machine

variable {s s' : State} {tr : Transient} {i : Instr}

/-! ### Points of the pseudocode -/

/-- The three points of `seek_body` are points of both operations that contain it (41_transport.md R165, R166). -/
theorem pointOf_seekBody {p : Phase} (op : i = .seekFrameStart ∨ ∃ dl, i = .receiveFrame dl)
    (hp : p = .seekAvail ∨ p = .seekPeek ∨ p = .seekDrop) : pointOf i p = true := by
  obtain rfl | ⟨dl, rfl⟩ := op <;> obtain rfl | rfl | rfl := hp <;> rfl

/-- An operation that yields reads the clock (R163). -/
theorem pointOf_clock_of_yield (h : pointOf i .yield = true) : pointOf i .clock = true := by
  cases i <;> simp_all [pointOf]

/-! ### The operation in progress -/

/-- The operation in progress has moved to a point which is no return with a held value. -/
theorem State.Inv.of_point {p : Phase} {buf : List Byte} {k : Nat} (hs : tr.Sound) (hb : s'.busy = true)
    (ht : s'.transient = some { tr with phase := p, buf := buf, k := k }) (hp : pointOf tr.op p = true)
    (hx : StreamAt p s'.rxq) (h1 : p ≠ .retSent := by simp) (h2 : p ≠ .retFrame := by simp) : s'.Inv :=
  .of_busy hb ht (hs.goto hp buf k h1 h2) fun _ => hx

/-- The call of the operation in progress has broken a contract: the stream is no longer constrained. -/
theorem State.Inv.of_raise {u : State} {reason : FaultReason} (hs : tr.Sound) (hb : u.busy = true)
    (ht : u.transient = some tr) : (u.raise reason).Inv :=
  .of_busy hb ht hs fun hf => by simp at hf

/-- A `Write` goes on to the return of a positive count, or to a yield (R164). -/
theorem Transient.Sound.wrote {buf : List Byte} {dl : Word} {k : Nat} (hs : tr.Sound) (op : tr.op = .sendFrame buf dl)
    (le : k ≤ buf.length) :
    Transient.Sound { tr with k := k, phase := if 0 < k then .retSent else .yield } := by
  by_cases hk : 0 < k
  · rw [if_pos hk]
    exact ⟨hs.wellFormed, by simp [op, pointOf], hs.deadline, fun _ => ⟨buf, dl, op, hk, le⟩, Phase.noConfusion⟩
  · rw [if_neg hk]
    exact hs.goto (by simp [op, pointOf]) _ _

/-- A full delivery from a stream with a head at its front gives a frame with that head (R166). -/
theorem Transient.Sound.took {dl : Word} {rxq : List Byte} (hs : tr.Sound) (op : tr.op = .receiveFrame dl)
    (hx : StreamAt .take rxq) : Transient.Sound { tr with buf := rxq.take 10, phase := .retFrame } := by
  obtain ⟨hhead, hlen⟩ := hx
  refine ⟨hs.wellFormed, by simp [op, pointOf], hs.deadline, Phase.noConfusion, fun _ => ⟨?_, ?_⟩⟩
  · exact List.length_take_of_le hlen
  · simpa [List.head?_take] using hhead

/-- A step of the operation in progress keeps the invariant. -/
theorem BlockStep.inv (h : BlockStep tr s s') (hr : s.Running tr) (hs : tr.Sound) (hx : StreamAt tr.phase s.rxq) :
    s'.Inv := by
  obtain ⟨hf, hb, ht⟩ := hr
  cases h
  case sent | writeTimeout | found | received | readTimeout => exact .of_idle rfl rfl
  case peekedNothing | droppedNothing | tookShort => exact .of_raise hs hb ht
  case overwrote buf dl k ks m bytes op at_ gt listed =>
    exact .of_raise (hs.goto (p := .write) (by simp [op, pointOf]) tr.buf k) hb rfl
  case wrote buf dl k ks m op at_ le =>
    refine .of_busy hb rfl (hs.wrote op le) fun _ => ?_
    dsimp only
    split <;> trivial
  case yielded at_ seek =>
    exact .of_point hs hb rfl (pointOf_clock_of_yield (at_ ▸ hs.point)) trivial
  case clocked dl delta ds m retry expired at_ deadline op =>
    have next : ∀ p, p = retry ∨ p = expired →
        pointOf tr.op p = true ∧ StreamAt p s.rxq ∧ p ≠ .retSent ∧ p ≠ .retFrame := by
      obtain ⟨buf, d, op, rfl, rfl⟩ | ⟨d, op, rfl, rfl⟩ := op
      all_goals rintro p (rfl | rfl) <;> simp [op, pointOf, StreamAt]
    obtain ⟨hp, hx, h1, h2⟩ :=
      next _ (ite_eq_or_eq ((clockAfter s.clockWrap s.clock delta).toNat < dl.toNat) retry expired)
    exact .of_point hs hb rfl hp hx h1 h2
  case soughtEmpty p at_ empty op =>
    obtain ⟨op, rfl⟩ | ⟨d, op, rfl⟩ := op
    all_goals exact .of_point hs hb rfl (by simp [op, pointOf]) trivial
  case sought at_ some_ op =>
    exact .of_point hs hb rfl (pointOf_seekBody op (by simp)) some_
  case peekedHead rest p at_ front op =>
    have hhead : s.rxq.head? = some Config.head := by rw [front]; rfl
    obtain ⟨op, rfl⟩ | ⟨d, op, rfl⟩ := op
    all_goals exact .of_point hs hb rfl (by simp [op, pointOf]) hhead
  case peekedOther b rest at_ front other op =>
    exact .of_point hs hb rfl (pointOf_seekBody op (by simp)) ⟨b, rest, front, other⟩
  case dropped b rest at_ front op =>
    exact .of_point hs hb rfl (pointOf_seekBody op (by simp)) trivial
  case counted dl op at_ =>
    by_cases hlen : 10 ≤ s.rxq.length
    · have hhead : StreamAt .countAvail s.rxq := at_ ▸ hx
      simp only [if_pos hlen]
      exact .of_point hs hb rfl (by simp [op, pointOf]) ⟨hhead, hlen⟩
    · simp only [if_neg hlen]
      exact .of_point hs hb rfl (by simp [op, pointOf]) trivial
  case took dl op at_ enough full =>
    exact .of_busy hb rfl (hs.took op (at_ ▸ hx)) fun _ => trivial

/-! ### The turns of all agents -/

/-- A foreign access marks the run while an operation runs, and finds no operation in progress otherwise (20_memory.md
R68). -/
theorem State.Inv.of_foreign {u : State} (hi : u.Inv) (ho : u.ownershipBroken = false)
    (hs' : s'.ownershipBroken = (u.ownershipBroken || u.busy)) (hb : s'.busy = u.busy)
    (ht : s'.transient = u.transient) : s'.Inv := by
  cases hbusy : u.busy with
  | true => exact .of_touched (by simp [hs', hbusy])
  | false => exact .of_idle (hb.trans hbusy) (ht.trans (hi.transient_eq_none ho hbusy))

/-- Every step of a run without foreign agent keeps the invariant. -/
theorem UntouchedStep.inv {rest : List Turn} {m : Nat} (h : UntouchedStep s (s.atTurn rest m) s') (hi : s.Inv)
    (ho : s.ownershipBroken = false) : s'.Inv := by
  have hu : (s.atTurn rest m).Inv := hi.congr ho rfl rfl fun hf => ⟨hf, fun _ => id⟩
  cases h with
  | unmoved => exact hu
  | reentrant safe busy => exact hu.congr ho rfl rfl fun hf => by simp at hf
  | advanced tr _ turn running step =>
    obtain ⟨hf, hb, ht⟩ := running
    exact step.inv ⟨hf, hb, ht⟩ (hi.sound ho tr ht) (hi.stream ho tr ht hf)
  | accepted i p ready wellFormed point first =>
    refine .of_busy rfl rfl (.initial wellFormed point first) fun _ => ?_
    obtain rfl | rfl := first <;> trivial
  | returned | returnedReserved => exact .of_idle rfl rfl
  | arrived bytes turn => exact hu.congr ho rfl rfl fun hf => ⟨hf, fun _ hx => hx.append bytes⟩
  | wasReset turn => exact .of_idle rfl rfl
  | foreignTook n turn => exact hu.of_foreign ho rfl rfl rfl
  | foreignWrote bytes turn => exact hu.of_foreign ho rfl rfl rfl

/-- The mark of a foreign agent stays until a block reset (log 16). -/
theorem step_touched (h : step s = .next s') (ho : s.ownershipBroken = true) (hturn : s.nextTurn.1 ≠ .reset) :
    s'.ownershipBroken = true := by
  obtain ⟨rest, m, h⟩ := step_next h
  obtain ⟨-, rfl⟩ | ⟨-, -, rfl⟩ | ⟨-, _, -, hc, -⟩ | ⟨_, -, -, -, rfl⟩ | ⟨_, _, -, -, -, hc, -⟩ | ⟨_, _, -, -, -, hc, -⟩ |
    ⟨_, -, rfl⟩ | ⟨hc, -⟩ | ⟨_, -, rfl⟩ | ⟨_, -, rfl⟩ | ⟨-, -, rfl | ⟨tr, -, hr, he, -⟩⟩ := h
  · exact ho
  · exact ho
  · simp [ho] at hc
  · exact ho
  · simp [ho] at hc
  · simp [ho] at hc
  · exact ho
  · exact absurd hc hturn
  · simp [ho]
  · simp [ho]
  · rfl
  · obtain rfl | hs := exec_of_running (s := s.atTurn rest m) hr he
    · exact ho
    · exact hs.ownershipBroken_eq.trans ho

/-- Settles O52: after a foreign access only a block reset takes the mark away, and it leaves the block idle; without one,
every turn keeps the invariant. -/
theorem everyStepKeepsInvariant : Obligations.EveryStepKeepsInvariant := by
  intro s s' hi h
  cases ho : s.ownershipBroken with
  | false =>
    obtain ⟨rest, m, hs⟩ := step_untouched h ho
    exact hs.inv hi ho
  | true =>
    by_cases hturn : s.nextTurn.1 = .reset
    · obtain ⟨rest, m, rfl⟩ := step_reset h hturn
      exact .of_idle rfl rfl
    · exact .of_touched (step_touched h ho hturn)

end Sys2Proof.Machine
end

section
/-! An arrival turn (20_memory.md R61), and a `Write` whose count no script fixes (R59, 00_scope.md R7; log 12). -/

namespace Sys2Proof.Machine

variable {s : State} {tr : Transient} {buf : List Byte} {dl : Word}

/-- Settles O6: the turn is listed next, and an arrival asks nothing of the block. -/
theorem arrivalAppendsToReceiveStream : Obligations.ArrivalAppendsToReceiveStream := by
  intro s bytes
  exact step_withTurn (.arrive bytes) s

/-- WriteOracle's draw once the script is used up, kept within `0..n` (00_scope.md R7). -/
def State.freeCount (n : Nat) (s : State) : Nat := Config.freeWriteCount s.draws % (n + 1)

theorem State.freeCount_le (n : Nat) (s : State) : s.freeCount n ≤ n :=
  Nat.lt_succ_iff.mp (Nat.mod_lt _ (Nat.succ_pos _))

theorem drawWriteCount_nil (n : Nat) (h : s.writeCounts = []) :
    s.drawWriteCount n = (s.freeCount n, { s with draws := s.draws + 1 }) := by
  simp only [State.drawWriteCount, h, State.freeCount]

/-- A `Write` that draws the free count keeps its contract. -/
theorem primWrite_nil (buf : List Byte) (h : s.writeCounts = []) :
    s.primWrite buf =
      (s.freeCount buf.length, .kept (s.freeCount buf.length)
        { s.log (.write buf buf.length (s.freeCount buf.length)) with
          draws := s.draws + 1, txlog := s.txlog ++ buf.take (s.freeCount buf.length) }) := by
  simp only [State.primWrite, drawWriteCount_nil _ h, if_pos (s.freeCount_le buf.length)]; rfl

/-- The write point of SEND_FRAME that draws the free count: 0 is a failed attempt, anything else is success (R164). -/
theorem advanceWrite_nil (buf : List Byte) (tr : Transient) (h : s.writeCounts = []) :
    advanceWrite buf tr s =
      .next { s with
        draws := s.draws + 1, txlog := s.txlog ++ buf.take (s.freeCount buf.length),
        history := s.history ++ [.write buf buf.length (s.freeCount buf.length)],
        transient := some { tr with
          k := s.freeCount buf.length, phase := if s.freeCount buf.length = 0 then .yield else .retSent } } := by
  have hphase : (if 0 < s.freeCount buf.length then Phase.retSent else .yield) =
      if s.freeCount buf.length = 0 then .yield else .retSent := by
    simp only [Nat.pos_iff_ne_zero, ite_not]
  simp only [advanceWrite, primWrite_nil buf h, hphase]; rfl

/-- SEND_FRAME at its write point writes (R164). -/
theorem exec_sendFrame_write (hr : s.Running tr) (hp : tr.phase = .write) (ho : tr.op = .sendFrame buf dl)
    (hbuf : buf.length ≤ 255) : exec tr.op s = advanceWrite buf tr s := by
  have hcheck : tr.op.check = none := by simp [ho, Instr.check, checkLen, Config.maxSendLen, hbuf]
  rw [exec_running hr hcheck]
  simp only [ho, advanceSendFrame, hp]

/-- Settles O39: the number is the free draw. -/
theorem freeWriteCountStaysInRange : Obligations.FreeWriteCountStaysInRange := by
  intro buf dl s tr hbuf hr ho hp hs
  refine ⟨s.freeCount buf.length, s.freeCount_le buf.length, ?_⟩
  exact ho ▸ (exec_sendFrame_write hr hp ho hbuf).trans (advanceWrite_nil buf tr hs)

end Sys2Proof.Machine
end

section
/-! RECEIVE_FRAME with a window ahead in its stream (41_transport.md R166), whatever arrives between its steps (20_memory.md
R60 to R62). -/

namespace Sys2Proof.Machine

variable {s s₀ : State} {tr : Transient} {dl : Word} {window tail : List Byte} {n : Nat}

/-! ### RECEIVE_FRAME's own steps -/

/-- RECEIVE_FRAME in progress does what its pseudocode says at the point reached. -/
theorem exec_receiveFrame (hr : s.Running tr) (ho : tr.op = .receiveFrame dl) :
    exec tr.op s = advanceReceiveFrame tr s := by
  have hcheck : tr.op.check = none := by rw [ho]; rfl
  rw [exec_running hr hcheck]
  simp only [ho]

/-- Where RECEIVE_FRAME stands with `window` ahead of `tail` in its stream: `n` more calls, and it holds the window. -/
inductive WindowAhead (window tail : List Byte) (tr : Transient) (rxq : List Byte) : Nat → Prop where
  | seekAvail (junk : List Byte) (at_ : tr.phase = .seekAvail) (noHead : (0xAA : Byte) ∉ junk)
      (stream : rxq = junk ++ window ++ tail) : WindowAhead window tail tr rxq (3 * junk.length + 4)
  | seekPeek (junk : List Byte) (at_ : tr.phase = .seekPeek) (noHead : (0xAA : Byte) ∉ junk)
      (stream : rxq = junk ++ window ++ tail) : WindowAhead window tail tr rxq (3 * junk.length + 3)
  | seekDrop (b : Byte) (junk : List Byte) (at_ : tr.phase = .seekDrop) (noHead : (0xAA : Byte) ∉ junk)
      (stream : rxq = b :: (junk ++ window ++ tail)) : WindowAhead window tail tr rxq (3 * junk.length + 5)
  | countAvail (at_ : tr.phase = .countAvail) (stream : rxq = window ++ tail) : WindowAhead window tail tr rxq 2
  | take (at_ : tr.phase = .take) (stream : rxq = window ++ tail) : WindowAhead window tail tr rxq 1
  | retFrame (at_ : tr.phase = .retFrame) (held : tr.buf = window) (stream : rxq = tail) :
    WindowAhead window tail tr rxq 0

/-- Bytes that arrive come behind what follows the window (R61). -/
theorem WindowAhead.append {rxq : List Byte} (h : WindowAhead window tail tr rxq n) (bytes : List Byte) :
    WindowAhead window (tail ++ bytes) tr (rxq ++ bytes) n := by
  cases h with
  | seekAvail junk at_ noHead stream => exact .seekAvail junk at_ noHead (by simp [stream])
  | seekPeek junk at_ noHead stream => exact .seekPeek junk at_ noHead (by simp [stream])
  | seekDrop b junk at_ noHead stream => exact .seekDrop b junk at_ noHead (by simp [stream])
  | countAvail at_ stream => exact .countAvail at_ (by simp [stream])
  | take at_ stream => exact .take at_ (by simp [stream])
  | retFrame at_ held stream => exact .retFrame at_ held (by simp [stream])

/-- Once the window is held, what followed it is all of the stream. -/
theorem WindowAhead.rxq_of_held {rxq : List Byte} (h : WindowAhead window tail tr rxq 0) : rxq = tail := by
  cases h with
  | retFrame at_ held stream => exact stream

/-- RECEIVE_FRAME, issued in `s₀`, is in progress with a window ahead; so far nothing but RXQ, the history and the listed
deliveries has changed. -/
structure Receiving (s₀ : State) (dl : Word) (window tail : List Byte) (n : Nat) (s : State) : Prop where
  running : ∃ tr, s.Running tr ∧ tr.op = .receiveFrame dl ∧ WindowAhead window tail tr s.rxq n
  untouched : s.ownershipBroken = false
  full : 0 < n → ∀ d ∈ s.deliveries.head?, 10 ≤ d
  txlog : s.txlog = s₀.txlog
  timeoutMs : s.timeoutMs = s₀.timeoutMs
  clock : s.clock = s₀.clock

/-- Whose turn it is, and what result was shown before, is nothing to the operation. -/
theorem Receiving.atTurn (h : Receiving s₀ dl window tail n s) (rest : List Turn) (m : Nat) :
    Receiving s₀ dl window tail n (s.atTurn rest m) :=
  ⟨h.running, h.untouched, h.full, h.txlog, h.timeoutMs, h.clock⟩

/-- The operation has moved to its next point. -/
theorem Receiving.moved {tr' : Transient} {rxq : List Byte} {ds : List Nat} {events : List Event}
    (h : Receiving s₀ dl window tail (n + 1) s) (ho : tr'.op = .receiveFrame dl)
    (hw : WindowAhead window tail tr' rxq n) (hd : 0 < n → ds = s.deliveries) :
    Receiving s₀ dl window tail n
      { s with rxq := rxq, deliveries := ds, history := events, transient := some tr' } := by
  obtain ⟨⟨tr, ⟨hf, hb, -⟩, -, -⟩, untouched, full, txlog, timeoutMs, clock⟩ := h
  exact ⟨⟨tr', ⟨hf, hb, rfl⟩, ho, hw⟩, untouched, fun hn => hd hn ▸ full n.succ_pos, txlog, timeoutMs, clock⟩

/-- A request that is accepted puts RECEIVE_FRAME at its first point. -/
theorem exec_receiveFrame_ready (dl : Word) (hr : s.Ready) :
    exec (.receiveFrame dl) s = .next (s.accept (.receiveFrame dl) (some dl) .seekAvail) :=
  runBlocking_ready (i := .receiveFrame dl) rfl hr

theorem Receiving.accepted {junk : List Byte} (hr : s.Ready) (ho : s.ownershipBroken = false)
    (hd : ∀ d ∈ s.deliveries.head?, 10 ≤ d) (noHead : (0xAA : Byte) ∉ junk) (stream : s.rxq = junk ++ window ++ tail) :
    Receiving s dl window tail (3 * junk.length + 4) (s.accept (.receiveFrame dl) (some dl) .seekAvail) :=
  ⟨⟨_, ⟨hr.1, rfl, rfl⟩, rfl, .seekAvail junk rfl noHead stream⟩, ho, fun _ => hd, rfl, rfl, rfl⟩

/-- The block's next call brings the window one call nearer (R165, R166). -/
theorem WindowAhead.advance (hlen : window.length = 10) (hhead : window.head? = some 0xAA)
    (full : ∀ d ∈ s.deliveries.head?, 10 ≤ d) (h : WindowAhead window tail tr s.rxq (n + 1)) :
    ∃ tr' rxq ds events, tr'.op = tr.op ∧ WindowAhead window tail tr' rxq n ∧ (0 < n → ds = s.deliveries) ∧
      advanceReceiveFrame tr s =
        .next { s with rxq := rxq, deliveries := ds, history := events, transient := some tr' } := by
  obtain ⟨w, rfl⟩ : ∃ w, window = 0xAA :: w := List.head?_eq_some_iff.1 hhead
  cases h with
  | seekAvail junk at_ noHead stream =>
    have hne : s.rxq ≠ [] := by simp [stream]
    refine ⟨{ tr with phase := .seekPeek }, _, _, s.history ++ [.avail s.rxq.length], rfl,
      .seekPeek junk rfl noHead stream, fun _ => rfl, ?_⟩
    simp only [advanceReceiveFrame, at_, advanceSeekAvail_eq, if_neg hne]
  | seekPeek junk at_ noHead stream =>
    cases junk with
    | nil =>
      refine ⟨{ tr with phase := .countAvail }, _, _, s.history ++ [.peek 0xAA], rfl,
        .countAvail rfl stream, fun _ => rfl, ?_⟩
      simp only [advanceReceiveFrame, at_, advanceSeekPeek_cons _ stream]; rfl
    | cons b junk =>
      obtain ⟨hb, noHead⟩ := List.ne_and_not_mem_of_not_mem_cons noHead
      refine ⟨{ tr with phase := .seekDrop }, _, _, s.history ++ [.peek b], rfl,
        .seekDrop b junk rfl noHead stream, fun _ => rfl, ?_⟩
      simp only [advanceReceiveFrame, at_, advanceSeekPeek_cons _ stream, if_neg (Ne.symm hb)]
  | seekDrop b junk at_ noHead stream =>
    refine ⟨{ tr with phase := .seekAvail }, _, _, s.history ++ [.readByte b], rfl,
      .seekAvail junk rfl noHead rfl, fun _ => rfl, ?_⟩
    simp only [advanceReceiveFrame, at_, advanceSeekDrop_cons stream]
  | countAvail at_ stream =>
    have hten : 10 ≤ s.rxq.length := by simp [stream, ← hlen]
    refine ⟨{ tr with phase := .take }, _, _, s.history ++ [.avail s.rxq.length], rfl,
      .take rfl stream, fun _ => rfl, ?_⟩
    simp only [advanceReceiveFrame, at_, advanceCountAvail_eq, if_pos hten]
  | take at_ stream =>
    have hten : 10 ≤ s.rxq.length := by simp [stream, ← hlen]
    have htake : s.rxq.take 10 = 0xAA :: w := by rw [stream, List.take_left' hlen]
    have hdrop : s.rxq.drop 10 = tail := by rw [stream, List.drop_left' hlen]
    refine ⟨{ tr with phase := .retFrame, buf := s.rxq.take 10 }, s.rxq.drop 10, s.deliveries.tail,
      s.history ++ [.readExactly 10 (s.rxq.take 10)], rfl,
      .retFrame rfl htake hdrop, fun hn => absurd hn (Nat.lt_irrefl 0), ?_⟩
    simp only [advanceReceiveFrame, at_, advanceTake_kept tr full hten]

/-! ### Turns -/

/-- The block's turn while RECEIVE_FRAME is in progress. -/
theorem step_receiveFrame {later : List Turn} (hs : s.schedule = .block :: later) (hr : s.Running tr)
    (ho : tr.op = .receiveFrame dl) (hu : s.ownershipBroken = false) :
    step s = advanceReceiveFrame tr (s.atTurn later s.draws) :=
  calc step s = blockTurn (s.atTurn later s.draws) := step_scheduled hs
    _ = exec tr.op (s.atTurn later s.draws) := blockTurn_running hr hu
    _ = advanceReceiveFrame tr (s.atTurn later s.draws) := exec_receiveFrame hr ho

/-- The block's turn before the window is held. -/
theorem Receiving.step_block {later : List Turn} (hlen : window.length = 10) (hhead : window.head? = some 0xAA)
    (h : Receiving s₀ dl window tail (n + 1) s) (hs : s.schedule = .block :: later) :
    ∃ u, step s = .next u ∧ Receiving s₀ dl window tail n u ∧ u.schedule = later := by
  have hu := h.atTurn later s.draws
  obtain ⟨tr, hr, ho, hw⟩ := hu.running
  obtain ⟨tr', rxq, ds, events, ho', hw', hd, he⟩ := hw.advance hlen hhead (hu.full n.succ_pos)
  exact ⟨_, (step_receiveFrame hs hr ho h.untouched).trans he, hu.moved (ho'.trans ho) hw' hd, rfl⟩

/-- The block's turn once the window is held: it is delivered. -/
theorem Receiving.step_return {later : List Turn} (h : Receiving s₀ dl window tail 0 s)
    (hs : s.schedule = .block :: later) :
    step s = .next ((s.atTurn later s.draws).finish ⟨.ok, .received window⟩) := by
  have hu := h.atTurn later s.draws
  obtain ⟨tr, hr, ho, hw⟩ := hu.running
  cases hw with
  | retFrame at_ held stream =>
    rw [step_receiveFrame hs hr ho h.untouched]
    simp only [advanceReceiveFrame, at_, held]

/-- The bytes of an arrival turn come behind what follows the window. -/
theorem Receiving.step_arrive {bytes : List Byte} {later : List Turn} (h : Receiving s₀ dl window tail n s)
    (hs : s.schedule = .arrive bytes :: later) :
    ∃ u, step s = .next u ∧ Receiving s₀ dl window (tail ++ bytes) n u ∧ u.schedule = later := by
  obtain ⟨⟨tr, hr, ho, hw⟩, untouched, full, txlog, timeoutMs, clock⟩ := h
  exact ⟨_, step_scheduled hs, ⟨⟨tr, hr, ho, hw.append bytes⟩, untouched, full, txlog, timeoutMs, clock⟩, rfl⟩

/-- Block turns and arrivals, as many block turns as there are calls to make: the window is held. -/
theorem Receiving.run_turns {turns later : List Turn} {k : Nat} (hlen : window.length = 10)
    (hhead : window.head? = some 0xAA) (hturns : ∀ turn ∈ turns, turn = .block ∨ ∃ bytes, turn = .arrive bytes)
    (h : Receiving s₀ dl window tail (turns.count .block) s) (hs : s.schedule = turns ++ later) :
    ∃ u, Host.Core.run Sys2Proof.core (turns.length + k) s = Host.Core.run Sys2Proof.core k u ∧
      Receiving s₀ dl window (tail ++ arrivedBytes turns) 0 u ∧ u.schedule = later := by
  induction turns generalizing s tail with
  | nil => exact ⟨s, by simp, by simpa [arrivedBytes] using h, hs⟩
  | cons turn turns ih =>
    obtain ⟨hturn, hrest⟩ := List.forall_mem_cons.1 hturns
    simp only [List.length_cons, Nat.add_right_comm _ 1 k]
    obtain rfl | ⟨bytes, rfl⟩ := hturn
    · rw [List.count_cons_self] at h
      obtain ⟨s1, hstep, h1, hs1⟩ := h.step_block hlen hhead hs
      rw [run_next hstep]
      exact ih hrest h1 hs1
    · rw [List.count_cons_of_ne (by simp)] at h
      obtain ⟨s1, hstep, h1, hs1⟩ := h.step_arrive hs
      rw [run_next hstep, arrivedBytes, ← List.append_assoc]
      exact ih hrest h1 hs1

/-- Settles O47: the request is accepted, the turns bring the window into the block, and the last block turn delivers it. -/
theorem receiveAmidArrivals : Obligations.ReceiveAmidArrivals := by
  intro s r dl junk window rest turns later hr ho hd hdec noHead hlen hhead stream hturns hcount hs
  let u := s.atTurn (turns ++ .block :: later) s.draws
  have accepted : step s = .next (u.accept (.receiveFrame dl) (some dl) .seekAvail) :=
    calc step s = offer r u := step_scheduled hs
      _ = exec (.receiveFrame dl) u := offer_ready hdec hr ho
      _ = _ := exec_receiveFrame_ready dl hr
  have start := Receiving.accepted (s := u) (dl := dl) hr ho hd noHead stream
  rw [← hcount] at start
  obtain ⟨v, hrun, hv, hvs⟩ := start.run_turns (k := 1) hlen hhead hturns rfl
  refine ⟨_, (run_next accepted).trans (hrun.trans (run_next (Receiving.step_return hv hvs))), ?_⟩
  obtain ⟨⟨tr, ⟨hf, -, -⟩, -, hw⟩, -, -, txlog, timeoutMs, clock⟩ := hv
  exact ⟨rfl, hw.rxq_of_held, rfl, rfl, hf, txlog, timeoutMs, clock, rfl⟩

end Sys2Proof.Machine
end

section
/-! Reading a request (30_encoding.md R89, R90, R92): which requests read as an operation, and which as a reserved OP. -/

namespace Sys2Proof

variable {r : Request} {i : Instr}

/-! ### Operations -/

/-- The row of an operation reads back each operand that the encoder has put in its field. -/
theorem readOperands_encode (i : Instr) : readOperands (encode i) = some (.ok i) := by
  cases i <;> simp [readOperands, encode, Instr.opcode, opByte, Except.bind, bind, pure, Except.pure]

/-- The converse of `decode_eq_instr`. -/
theorem decode_of_readOperands (h : readOperands r = some (.ok i)) (hi : i.check = none) : decode r = .instr i := by
  simp only [decode, h, hi]

theorem decode_encode (hi : i.check = none) : decode (encode i) = .instr i :=
  decode_of_readOperands (readOperands_encode i) hi

/-- A request written out field by field reads as the operation that the encoder writes in the same way. -/
theorem decode_of_eq_encode (h : r = encode i) (hi : i.check = none) : decode r = .instr i := h ▸ decode_encode hi

/-- Settles O8: the row gives back every operand, and the length check passes. -/
theorem decodeOfEncode : Obligations.DecodeOfEncode := fun _ hi => decode_encode hi

/-- Settles O9: the operation was read by its row and passed its check, so it is also what its own request reads as. -/
theorem decodedIsWellFormed : Obligations.DecodedIsWellFormed := by
  intro r i h
  obtain ⟨hread, hi⟩ := decode_eq_instr h
  exact ⟨hi, Laws.OpcodeRow.op_of_readOperands hread, (decode_encode hi).trans h.symm⟩

/-- Settles O7: each of the twelve requests is the one that the encoder writes for a well-formed operation. -/
theorem writtenRequestsDecode : Obligations.WrittenRequestsDecode := by
  refine ⟨?_, ?_, ?_, ?_, ?_, ?_, ?_, ?_, ?_, ?_, ?_, ?_⟩
  all_goals exact decode_of_eq_encode rfl rfl

/-! ### Reserved OPs -/

/-- The OPs without a row are those of R90's list. -/
theorem readOperands_eq_none_iff : readOperands r = none ↔ Machine.ReservedOp r.op := by
  unfold readOperands Machine.ReservedOp
  split <;> simp only [reduceCtorEq, false_iff, true_iff, imp_false] at * <;> omega

theorem decode_of_reservedOp (h : Machine.ReservedOp r.op) : decode r = .reserved r.op := by
  simp only [decode, readOperands_eq_none_iff.2 h]

theorem reservedOp_of_decode {op : Byte} (h : decode r = .reserved op) : Machine.ReservedOp r.op :=
  readOperands_eq_none_iff.1 (decode_eq_reserved h).2

end Sys2Proof
end

section
/-! Which requests are refused (30_encoding.md R92; 60_exceptions.md R204). -/

namespace Sys2Proof

variable {α : Type} {r : Request} {x : Except RejectReason α}

/-! ### Reading a row -/

/-- The reading of a row ends without a well-formed operation: check (b), (c) or (d) of R92 fails. -/
def Refuses (row : Except RejectReason Instr) : Prop := ∀ i, row = .ok i → i.check ≠ none

theorem refuses_ok {i : Instr} : Refuses (.ok i) ↔ i.check ≠ none := by
  simp [Refuses]

/-- A row fails at the operand it reads first, or behind it. -/
theorem refuses_bind {rest : α → Except RejectReason Instr} :
    Refuses (x >>= rest) ↔ (∃ why, x = .error why) ∨ ∃ a, x = .ok a ∧ Refuses (rest a) := by
  cases x <;> simp [Refuses, bind, Except.bind]

/-- A row fails at the operand it reads last, or at its length check. -/
theorem refuses_map {op : α → Instr} :
    Refuses (op <$> x) ↔ (∃ why, x = .error why) ∨ ∃ a, x = .ok a ∧ (op a).check ≠ none := by
  cases x <;> simp [Refuses]

/-- A request is refused when its OP has a row and the reading of the row fails. -/
theorem decode_rejected_iff : (∃ why, decode r = .rejected why) ↔ ∃ row, readOperands r = some row ∧ Refuses row := by
  unfold decode
  cases readOperands r with
  | none => simp
  | some row =>
    cases row with
    | error why => simp [Refuses]
    | ok i => cases hi : i.check <;> simp [refuses_ok, hi]

/-! ### Operands -/

/-- What follows an operand and does not depend on its value does not wait for it. -/
theorem error_or_ok_and_iff {p : Prop} :
    ((∃ why, x = .error why) ∨ (∃ a, x = .ok a) ∧ p) ↔ (∃ why, x = .error why) ∨ p := by
  cases x <;> simp

/-- Check (b) of R92 fails exactly on a byte list that is absent. -/
theorem needBytes_error_iff {name : OperandName} {l : Option (List Byte)} :
    (∃ why, needBytes name l = .error why) ↔ l = none := by
  cases l <;> simp [needBytes]

theorem needBytes_ok_iff {name : OperandName} {l : Option (List Byte)} {bytes : List Byte} :
    needBytes name l = .ok bytes ↔ l = some bytes := by
  cases l <;> simp [needBytes]

/-- Check (c) of R92. -/
theorem checkLen_eq_none_iff {name : OperandName} {p : Prop} [Decidable p] : checkLen name p = none ↔ p := by
  simp [checkLen]

/-- The row of VALIDATE_CHECKSUM and of CHECK_FRAME: a kind, and a frame of the length of that kind. -/
theorem refuses_frame {op : Kind → List Byte → Instr} {kind : Option Nat} {f : Option (List Byte)}
    (hop : ∀ kind f, (op kind f).check = checkLen .f (f.length = Config.frameLen kind)) :
    Refuses (do return op (← needKind kind) (← needBytes .f f)) ↔
      (kind = none ∨ ∃ v, kind = some v ∧ 2 ^ 1 ≤ v) ∨ f = none ∨
        (kind = some 0 ∧ ∀ l, f = some l → l.length ≠ 19) ∨ (kind = some 1 ∧ ∀ l, f = some l → l.length ≠ 10) := by
  simp only [bind_pure_comp, refuses_bind, refuses_map, hop, checkLen_eq_none_iff, ne_eq, needBytes_error_iff,
    needBytes_ok_iff]
  match kind with
  | none => simp [needKind]
  | some 0 => cases f <;> simp [needKind, Config.frameLen, Config.cmdLen]
  | some 1 => cases f <;> simp [needKind, Config.frameLen, Config.respLen]
  | some (n + 2) => simp [needKind]

/-- The rows of R89 refuse what R92 says of each of them; a reserved OP has no row to fail. -/
theorem decode_rejected_iff_malformed : (∃ why, decode r = .rejected why) ↔ Machine.MalformedRequest r := by
  rw [decode_rejected_iff]
  unfold readOperands Machine.MalformedRequest
  -- The cases are the rows in the order of R89, then the reserved OPs.
  split <;> rename_i hop
  case h_7 | h_8 => simpa [← BitVec.toNat_inj, hop] using refuses_frame fun _ _ => rfl
  case h_13 => simp_all [← BitVec.toNat_inj]
  all_goals
    simp only [bind_pure_comp, Option.some.injEq, exists_eq_left', refuses_ok, refuses_bind, refuses_map, Instr.check,
      checkLen_eq_none_iff, ne_eq, exists_and_right, error_or_ok_and_iff]
    simp [-not_exists, ← BitVec.toNat_inj, hop, Config.maxSendLen, Config.cmdLen, Config.respLen, Config.cmdPayloadLen,
      needInt_error_iff, optInt_error_iff, needBytes_error_iff, needBytes_ok_iff]
  -- What is left are the rows with a byte list: one that is absent has no right length either.
  case h_4 => cases r.span <;> simp
  case h_5 => cases r.payload <;> simp [or_comm]
  case h_6 | h_9 => cases r.f <;> simp
  case h_10 => cases r.buf <;> simp [or_comm]

end Sys2Proof
end

section
/-! What the block does with a request (30_encoding.md R90, R92; 60_exceptions.md R203, R204). -/

namespace Sys2Proof.Machine

variable {s : State} {r : Request} {i : Instr} {why : RejectReason}

/-! ### Operations that fail their length check -/

theorem runAtomic_refused {body : State → ResultRecord × State} (hi : i.check = some why) :
    runAtomic i body s = .refused (.malformed why) := by
  simp only [runAtomic, hi]

theorem runBlocking_refused {dl : Option Word} {p : Phase} {advance : Transient → State → Outcome}
    (hi : i.check = some why) : runBlocking i dl p advance s = .refused (.malformed why) := by
  simp only [runBlocking, hi]

/-- Every operation runs in one of the two brackets (10_state.md R23). -/
theorem exec_bracket (i : Instr) :
    (∃ body, ∀ s, exec i s = runAtomic i body s) ∨ ∃ dl p advance, ∀ s, exec i s = runBlocking i dl p advance s := by
  cases i with
  | sendFrame buf dl => exact .inr ⟨_, _, _, fun _ => rfl⟩
  | seekFrameStart => exact .inr ⟨_, _, _, fun _ => rfl⟩
  | receiveFrame dl => exact .inr ⟨_, _, _, fun _ => rfl⟩
  | setTimeout | getTimeout | mkDeadline | csum | buildCommand | decodeCommand | validateChecksum | checkFrame
  | decodeResponse =>
    simp only [exec, execSetTimeout, execGetTimeout, execMkDeadline, execCsum, execBuildCommand, execDecodeCommand,
      execValidateChecksum, execCheckFrame, execDecodeResponse]
    exact .inl ⟨_, fun _ => rfl⟩

/-- Settles O11: both brackets look at the check before anything else. -/
theorem illFormedOperationIsRefused : Obligations.IllFormedOperationIsRefused := by
  intro i why s hi
  obtain ⟨body, he⟩ | ⟨dl, p, advance, he⟩ := exec_bracket i
  · exact (he s).trans (runAtomic_refused hi)
  · exact (he s).trans (runBlocking_refused hi)

/-! ### Requests -/

/-- Settles O3: a request turn offers the request to the block, which is ready. -/
theorem stepRunsDecodedRequest : Obligations.StepRunsDecodedRequest := by
  intro s r i hr ho hd
  exact (step_withTurn (.issue r) s).trans (offer_ready (s := s.dropResult) hd hr ho)

/-- A well-formed operation on a block that is ready is not refused. -/
theorem exec_ready_answers (hr : s.Ready) (hi : i.check = none) : ∃ s', exec i s = .next s' := by
  obtain ⟨body, he⟩ | ⟨dl, p, advance, he⟩ := exec_bracket i
  · exact ⟨_, (he s).trans (runAtomic_ready hi hr)⟩
  · exact ⟨_, (he s).trans (runBlocking_ready hi hr)⟩

/-- A request that is served has a next state when what it would run has one on a block that is ready. -/
theorem serve_answers {run : State → Outcome} (h : s.Ready → ∃ s', run s = .next s') : ∃ s', s.serve run = .next s' := by
  unfold State.serve
  split
  · exact ⟨_, rfl⟩
  split
  · exact ⟨_, rfl⟩
  split
  · exact ⟨_, rfl⟩
  · exact h ⟨by simpa [State.faulted] using ‹¬ s.faulted = true›, by simpa using ‹¬ s.busy = true›⟩

/-- The interface lets every request pass that the decoder does not reject. -/
theorem offer_answers (hd : ∀ why, decode r ≠ .rejected why) : ∃ s', offer r s = .next s' := by
  unfold offer
  cases hr : decode r with
  | rejected why => exact absurd hr (hd why)
  | reserved op => exact serve_answers fun hs => ⟨_, execReserved_ready hs⟩
  | instr i => exact serve_answers fun hs => exec_ready_answers hs (decode_eq_instr hr).2

/-- The interface refuses what the decoder rejects, for the same reason (R204, R207 (a)). -/
theorem offer_refused_iff : offer r s = .refused (.malformed why) ↔ decode r = .rejected why := by
  by_cases hd : ∀ w, decode r ≠ .rejected w
  · obtain ⟨s', h⟩ := offer_answers (s := s) hd
    simp [h, hd]
  · obtain ⟨w, hd⟩ := not_forall_not.1 hd
    simp [offer, hd]

/-- Settles O10: the step is refused exactly when the decoder rejects the request, which `decode_rejected_iff_malformed` reads
off the rows. -/
theorem refusedExactlyWhenMalformed : Obligations.RefusedExactlyWhenMalformed := by
  intro s r
  simp only [step_withTurn, takeTurn, offer_refused_iff, decode_rejected_iff_malformed]

/-- Settles O12: the OP has no row, so the request reads as reserved, and a ready block returns at once. -/
theorem reservedOpIsIllegalOperation : Obligations.ReservedOpIsIllegalOperation := by
  intro s r hr ho
  refine ⟨fun hop => ?_, fun hop op hd => hop (reservedOp_of_decode hd)⟩
  calc step (s.withTurn (.issue r)) = s.dropResult.serve (execReserved r.op) := by
        simp only [step_withTurn, takeTurn, offer, decode_of_reservedOp hop]
    _ = execReserved r.op s.dropResult := serve_ready hr ho
    _ = .next ((s.dropResult.log (.issueReserved r.op)).finish ⟨.illegalOperation, .none⟩) := execReserved_ready hr
    _ = _ := by simp [State.finish, State.log]

end Sys2Proof.Machine
end

section
/-! Where the status of a result record comes from (30_encoding.md R91, 60_exceptions.md R217). -/

namespace Sys2Proof.Machine

variable {s s' : State} {tr : Transient} {i : Instr} {r : ResultRecord}

/-- What a step from `s` must be doing for a status that it shows. -/
inductive StatusFrom (s : State) : Status → Prop where
  | ok : StatusFrom s .ok
  | writeTimeout (tr buf dl) (running : s.transient = some tr) (op : tr.op = .sendFrame buf dl) :
    StatusFrom s .transportWriteTimeout
  | readTimeout (tr dl) (running : s.transient = some tr) (op : tr.op = .receiveFrame dl) :
    StatusFrom s .transportReadTimeout
  | delimiters (q kind f) (turn : s.nextTurn.1 = .issue q) (reads : decode q = .instr (.checkFrame kind f)) :
    StatusFrom s .delimiterMismatch
  | checksum (q kind f) (turn : s.nextTurn.1 = .issue q) (reads : decode q = .instr (.checkFrame kind f)) :
    StatusFrom s .checksumMismatch
  | illegal (q) (turn : s.nextTurn.1 = .issue q) (reserved : ReservedOp q.op) : StatusFrom s .illegalOperation

/-- CHECK_FRAME has three statuses (40_codec.md R125). -/
theorem StatusFrom.frame {q : Request} {kind : Kind} {f : List Byte} (turn : s.nextTurn.1 = .issue q)
    (reads : decode q = .instr (.checkFrame kind f)) : StatusFrom s (frameStatus kind f) := by
  unfold frameStatus
  split
  · exact .delimiters q kind f turn reads
  split
  · exact .checksum q kind f turn reads
  · exact .ok

/-- A point of a blocking operation that returns: OK, or the timeout of its operation (41_transport.md R164 to R166). -/
theorem BlockStep.statusFrom {u : State} (h : BlockStep tr u s') (hu : u.result = none) (ht : s.transient = some tr)
    (hr : s'.result = some r) : StatusFrom s r.status := by
  cases h
  case sent | found | received => obtain rfl := Option.some.inj hr; exact .ok
  case writeTimeout buf dl op at_ => obtain rfl := Option.some.inj hr; exact .writeTimeout tr buf dl ht op
  case readTimeout dl op at_ => obtain rfl := Option.some.inj hr; exact .readTimeout tr dl ht op
  all_goals exact absurd hr (by simp [hu])

/-- An operation that a ready block returns from at once: OK, or the status of CHECK_FRAME. -/
theorem exec_ready_status (hs : s.Ready) (hn : s.result = none) (h : exec i s = .next s') (hr : s'.result = some r) :
    r.status = .ok ∨ ∃ kind f, i = .checkFrame kind f ∧ r.status = frameStatus kind f := by
  obtain ⟨hc, -⟩ | ⟨-, hc, -⟩ | ⟨_, ⟨-, hc, -⟩, -⟩ | ⟨-, -, -, p, rfl, -⟩ | ⟨-, -, -, s1, r', rfl, -, hstatus, -⟩ :=
    exec_next h
  · exact absurd hs.1 hc
  · exact absurd hc (by simp [hs.2])
  · exact absurd hc (by simp [hs.2])
  · exact absurd hr (by simp [hn])
  · obtain rfl := Option.some.inj hr
    exact hstatus

/-- Every status that a step shows, in a run that no foreign agent has touched. -/
theorem step_statusFrom (h : step s = .next s') (ho : s.ownershipBroken = false) (hr : s'.result = some r) :
    StatusFrom s r.status := by
  obtain ⟨rest, m, h⟩ := step_next_untouched h ho
  obtain ⟨-, rfl⟩ | ⟨-, -, rfl⟩ | ⟨-, tr, hrun, he⟩ | ⟨_, -, -, -, rfl⟩ | ⟨q, i, hturn, hready, hd, he⟩ |
    ⟨q, op, hturn, -, hd, rfl⟩ | ⟨_, -, rfl⟩ | ⟨-, rfl⟩ | ⟨_, -, rfl⟩ | ⟨_, -, rfl⟩ := h
  · cases hr
  · cases hr
  · obtain rfl | hs := exec_of_running (s := s.atTurn rest m) hrun he
    · cases hr
    · exact hs.statusFrom rfl hrun.2.2 hr
  · cases hr
  · obtain hok | ⟨kind, f, rfl, hframe⟩ := exec_ready_status (s := s.atTurn rest m) hready rfl he hr
    · exact hok ▸ .ok
    · exact hframe ▸ .frame hturn hd
  · obtain rfl := Option.some.inj hr
    exact .illegal q hturn (reservedOp_of_decode hd)
  all_goals cases hr

/-- The table of R91 ends at 0x07. -/
theorem Status.code_lt (status : Status) : status.code.toNat < 8 := by cases status <;> decide

/-- Settles O56: the table of R91, and the producers listed by `StatusFrom`. -/
theorem statusProducers : Obligations.StatusProducers := by
  refine ⟨by decide, fun s s' r ho h hr => ⟨r.status.code_lt, ?_⟩⟩
  have hfrom := step_statusFrom h ho hr
  generalize r.status = status at hfrom
  cases hfrom with
  | ok => simp
  | writeTimeout tr buf dl running op => simpa using ⟨tr, running, buf, dl, op⟩
  | readTimeout tr dl running op => simpa using ⟨tr, running, dl, op⟩
  | delimiters q kind f turn reads => simpa using ⟨q, turn, kind, f, reads⟩
  | checksum q kind f turn reads => simpa using ⟨q, turn, kind, f, reads⟩
  | illegal q turn reserved => simpa using ⟨q, turn, reserved⟩

end Sys2Proof.Machine
end

section
/-! The checksum (40_codec.md R120) as a sum of bytes, in numbers and as an element of the bytes. -/

namespace Sys2Proof.Machine

variable {span : List Byte}

/-- The 16-bit accumulator holds the sum of its bytes modulo 2^16. -/
theorem foldl_add_setWidth_toNat (span : List Byte) (acc : Half) :
    (span.foldl (fun (acc : Half) b => acc + b.setWidth 16) acc).toNat =
      (acc.toNat + (span.map (·.toNat)).sum) % 2 ^ 16 := by
  induction span generalizing acc with
  | nil => simp [Nat.mod_eq_of_lt acc.isLt]
  | cons b span ih =>
    have hb : b.toNat < 2 ^ 8 := b.isLt
    simp only [List.foldl_cons, ih, BitVec.toNat_add, BitVec.toNat_setWidth, List.map_cons, List.sum_cons]
    omega

/-- Truncation to 8 bits forgets the width of the accumulator, because 2^8 divides 2^16. -/
theorem csum_toNat (span : List Byte) : (csum span).toNat = (span.map (·.toNat)).sum % 256 := by
  simp only [csum, BitVec.extractLsb'_toNat, foldl_add_setWidth_toNat, BitVec.ofNat_eq_ofNat, BitVec.toNat_ofNat]
  omega

theorem csum_eq_ofNat (span : List Byte) : csum span = BitVec.ofNat 8 (span.map (·.toNat)).sum :=
  BitVec.eq_of_toNat_eq (csum_toNat span)

theorem csum_eq_iff {cs : Byte} : csum span = cs ↔ (span.map (·.toNat)).sum % 256 = cs.toNat := by
  rw [BitVec.toNat_eq, csum_toNat]

/-- In the ring of bytes the checksum is the sum. -/
theorem csum_eq_sum (span : List Byte) : csum span = span.sum := by
  induction span with
  | nil => rfl
  | cons b span ih => rw [List.sum_cons, ← ih]; apply BitVec.eq_of_toNat_eq; simp [csum_toNat]

theorem csum_perm {other : List Byte} (h : span.Perm other) : csum other = csum span := by
  rw [csum_eq_sum, csum_eq_sum, h.sum_eq]

/-- A byte of the span that changes alone changes the checksum. -/
theorem csum_set_eq_iff {k : Nat} (hk : k < span.length) (x : Byte) : csum (span.set k x) = csum span ↔ x = span[k] := by
  rw [csum_eq_sum, csum_eq_sum, List.sum_set', dif_pos hk, add_eq_left, neg_add_eq_zero, eq_comm]

theorem sum_toNat_le (span : List Byte) : (span.map (·.toNat)).sum ≤ span.length * 255 := by
  simpa using List.sum_le_card_nsmul (span.map (·.toNat)) 255
    (List.forall_mem_map.2 fun b _ => Nat.le_of_lt_succ b.isLt)

/-- Settles O28: 257 bytes of at most 255 sum up to at most 2^16 - 1. -/
theorem checksumIsSumModulo256 : Obligations.ChecksumIsSumModulo256 := by
  intro span
  refine ⟨csum_toNat span, fun _ h => csum_perm h, fun hlen => ?_⟩
  have hsum := sum_toNat_le span
  rw [foldl_add_setWidth_toNat, BitVec.ofNat_eq_ofNat, BitVec.toNat_zero]
  omega

end Sys2Proof.Machine
end

section
/-! What each codec operation returns on a ready block (40_codec.md R121 to R126, R129). -/

namespace Sys2Proof.Machine

variable {i : Instr} {r r' : ResultRecord} {span payload f : List Byte} {cid : Option Byte} {dev : Option Half} {kind : Kind}

/-- An operation of one step whose body hands on the state it was given. -/
theorem returns_of_pure_body (he : ∀ s, exec i s = runAtomic i (fun s1 => (r, s1)) s) (hi : i.WellFormed) : Returns i r := by
  intro s hs
  rw [he, runAtomic_ready hi hs]
  simp [State.finish, State.start, State.returned]

/-- An operation returns at most one record: the record is shown in the state after reset and one step. -/
theorem Returns.unique (h : Returns i r) (h' : Returns i r') : r = r' := by
  have hs : State.reset.returned i [] r = State.reset.returned i [] r' :=
    Host.Outcome.next.inj ((h _ ⟨rfl, rfl⟩).symm.trans (h' _ ⟨rfl, rfl⟩))
  exact Option.some.inj (congrArg State.result hs)

theorem returns_csum (hi : (Instr.csum span).WellFormed) : Returns (.csum span) ⟨.ok, .checksum (csum span)⟩ :=
  returns_of_pure_body (fun _ => rfl) hi

theorem returns_buildCommand (hi : (Instr.buildCommand cid payload dev).WellFormed) :
    Returns (.buildCommand cid payload dev)
      ⟨.ok, .command (commandFrame (cidOrDefault cid) payload (devOrDefault dev))⟩ :=
  returns_of_pure_body (fun _ => rfl) hi

theorem returns_decodeCommand (hi : (Instr.decodeCommand f).WellFormed) :
    Returns (.decodeCommand f)
      ⟨.ok, .commandFields (byteAt f 1) (framePayload Config.cmdLen f) (deviceId Config.cmdLen f) (byteAt f 17)⟩ :=
  returns_of_pure_body (fun _ => rfl) hi

theorem returns_validateChecksum (hi : (Instr.validateChecksum kind f).WellFormed) :
    Returns (.validateChecksum kind f) ⟨.ok, .verdict (checksumMatches kind f)⟩ :=
  returns_of_pure_body (fun _ => rfl) hi

theorem returns_checkFrame (hi : (Instr.checkFrame kind f).WellFormed) :
    Returns (.checkFrame kind f) ⟨frameStatus kind f, .none⟩ :=
  returns_of_pure_body (fun _ => rfl) hi

theorem returns_decodeResponse (hi : (Instr.decodeResponse f).WellFormed) :
    Returns (.decodeResponse f)
      ⟨.ok, .responseFields (byteAt f 1) (framePayload Config.respLen f) (deviceId Config.respLen f)
        (le16 (byteAt f 2) (byteAt f 3)) (le16 (byteAt f 4) (byteAt f 5)) (byteAt f 8)⟩ :=
  returns_of_pure_body (fun _ => rfl) hi

/-- Settles O35: the record of each operation of family 1 stands in the lemma of that operation. -/
theorem codecOperationsArePure : Obligations.CodecOperationsArePure := by
  intro i hcodec hi
  cases i with
  | csum span => exact ⟨_, returns_csum hi⟩
  | buildCommand cid payload dev => exact ⟨_, returns_buildCommand hi⟩
  | decodeCommand f => exact ⟨_, returns_decodeCommand hi⟩
  | validateChecksum kind f => exact ⟨_, returns_validateChecksum hi⟩
  | checkFrame kind f => exact ⟨_, returns_checkFrame hi⟩
  | decodeResponse f => exact ⟨_, returns_decodeResponse hi⟩
  | setTimeout | getTimeout | mkDeadline | sendFrame | seekFrameStart | receiveFrame =>
    simp [IsCodec, Instr.opcode, opByte] at hcodec

/-- Settles O29: the record of CSUM, with the sum of R120 in it. -/
theorem csumReturnsSum : Obligations.CsumReturnsSum := by
  intro span hlen
  rw [← csum_eq_ofNat]
  exact returns_csum (checkLen_eq_none_iff.2 hlen)

end Sys2Proof.Machine
end

section
/-! The bytes of a 16-bit value (00_scope.md R8) and the fields of a frame by offset (30_encoding.md R80 to R83). -/

namespace Sys2Proof.Machine

theorem lo8_eq_ofNat (v : Half) : lo8 v = BitVec.ofNat 8 (v.toNat % 256) := by
  apply BitVec.eq_of_toNat_eq; simp [lo8]

theorem hi8_eq_ofNat (v : Half) : hi8 v = BitVec.ofNat 8 (v.toNat / 256) := by
  apply BitVec.eq_of_toNat_eq; simp [hi8, Nat.shiftRight_eq_div_pow]

theorem le16_eq_ofNat (lo hi : Byte) : le16 lo hi = BitVec.ofNat 16 (lo.toNat + 256 * hi.toNat) := by
  apply BitVec.eq_of_toNat_eq; simp [le16]

/-- The two bytes fill the 16 bits without a carry. -/
theorem le16_toNat (lo hi : Byte) : (le16 lo hi).toNat = lo.toNat + 256 * hi.toNat := by
  have hlo : lo.toNat < 256 := lo.isLt
  have hhi : hi.toNat < 256 := hi.isLt
  rw [le16_eq_ofNat, BitVec.toNat_ofNat]
  omega

@[simp] theorem lo8_le16 (lo hi : Byte) : lo8 (le16 lo hi) = lo := by
  apply BitVec.eq_of_toNat_eq
  rw [lo8_eq_ofNat, le16_toNat, BitVec.toNat_ofNat]
  omega

@[simp] theorem hi8_le16 (lo hi : Byte) : hi8 (le16 lo hi) = hi := by
  have hlo : lo.toNat < 256 := lo.isLt
  apply BitVec.eq_of_toNat_eq
  rw [hi8_eq_ofNat, le16_toNat, BitVec.toNat_ofNat]
  omega

@[simp] theorem le16_lo8_hi8 (v : Half) : le16 (lo8 v) (hi8 v) = v := by
  apply BitVec.eq_of_toNat_eq
  rw [le16_toNat, lo8_eq_ofNat, hi8_eq_ofNat, BitVec.toNat_ofNat, BitVec.toNat_ofNat]
  omega

/-! ### A frame cut into its fields -/

variable {kind : Kind} {L : Nat} {span payload f : List Byte} {h c cs t lo hi : Byte}

theorem four_le_frameLen (kind : Kind) : 4 ≤ Config.frameLen kind := by cases kind <;> decide

theorem frameLen_of_span (hs : span.length = Config.frameLen kind - 4) : Config.frameLen kind = span.length + 4 := by
  have hL := four_le_frameLen kind
  omega

/-- Every frame has a head, an identifier, a checksum span, a checksum byte and a tail (30_encoding.md R82). -/
theorem exists_frame_of_length (hf : f.length = Config.frameLen kind) :
    ∃ h c span cs t, Config.frameLen kind = span.length + 4 ∧ f = [h, c] ++ span ++ [cs, t] := by
  have hL := four_le_frameLen kind
  match f, hf with
  | [], hf | [_], hf => simp only [List.length_nil, List.length_singleton] at hf; omega
  | h :: c :: rest, hf =>
    have hrest : rest.length + 2 = Config.frameLen kind := hf
    obtain ⟨cs, t, hend⟩ := List.length_eq_two.1
      (show (rest.drop (rest.length - 2)).length = 2 by rw [List.length_drop]; omega)
    refine ⟨h, c, rest.take (rest.length - 2), cs, t, by rw [List.length_take]; omega, ?_⟩
    simp [← hend]

/-- A command frame has the payload and the device id in its checksum span (30_encoding.md R80). -/
theorem exists_command_of_length (hf : f.length = 19) :
    ∃ h cid payload lo hi cs t, payload.length = 13 ∧ f = [h, cid] ++ (payload ++ [lo, hi]) ++ [cs, t] := by
  obtain ⟨h, cid, span, cs, t, hL, rfl⟩ := exists_frame_of_length (kind := .cmd) hf
  have hspan : span.length = 15 := (Nat.add_right_cancel (m := 4) hL).symm
  obtain ⟨lo, hi, hdev⟩ := List.length_eq_two.1 (show (span.drop 13).length = 2 by rw [List.length_drop, hspan])
  exact ⟨h, cid, span.take 13, lo, hi, cs, t, by rw [List.length_take, hspan]; rfl,
    by rw [← hdev, List.take_append_drop]⟩

theorem checksumSpan_frame (hL : L = span.length + 4) : checksumSpan L ([h, c] ++ span ++ [cs, t]) = span := by
  simp [checksumSpan, slice, hL]

theorem byteAt_checksum (hL : L = span.length + 4) : byteAt ([h, c] ++ span ++ [cs, t]) (L - 2) = cs := by
  simp [byteAt, hL]

theorem byteAt_tail (hL : L = span.length + 4) : byteAt ([h, c] ++ span ++ [cs, t]) (L - 1) = t := by
  simp [byteAt, hL]

theorem checksumMatches_frame (hL : Config.frameLen kind = span.length + 4) :
    checksumMatches kind ([h, c] ++ span ++ [cs, t]) = decide (csum span = cs) := by
  rw [checksumMatches, checksumSpan_frame hL, byteAt_checksum hL]
  rfl

theorem delimitersMatch_frame (hL : Config.frameLen kind = span.length + 4) :
    delimitersMatch kind ([h, c] ++ span ++ [cs, t]) = decide (h = 0xAA ∧ t = 0xAB) := by
  rw [delimitersMatch, byteAt_tail hL]
  simp [byteAt, Config.head, Config.tail, beq_eq_decide]

theorem frameStatus_frame (hL : Config.frameLen kind = span.length + 4) :
    frameStatus kind ([h, c] ++ span ++ [cs, t]) =
      if ¬ (h = 0xAA ∧ t = 0xAB) then .delimiterMismatch else if csum span ≠ cs then .checksumMismatch else .ok := by
  rw [frameStatus, delimitersMatch_frame hL, checksumMatches_frame hL]
  simp only [Bool.not_eq_true', decide_eq_false_iff_not, ne_eq]

theorem framePayload_command (hp : payload.length = 13) :
    framePayload Config.cmdLen ([h, c] ++ payload ++ [lo, hi, cs, t]) = payload := by
  simp [framePayload, slice, Config.cmdLen, hp]

theorem deviceId_command (hp : payload.length = 13) :
    deviceId Config.cmdLen ([h, c] ++ payload ++ [lo, hi, cs, t]) = le16 lo hi := by
  simp [deviceId, byteAt, Config.cmdLen, hp]

theorem byteAt_17_command (hp : payload.length = 13) : byteAt ([h, c] ++ payload ++ [lo, hi, cs, t]) 17 = cs := by
  simp [byteAt, hp]

end Sys2Proof.Machine
end

section
/-! The codec operations on a frame cut into its fields (40_codec.md R122 to R128). -/

namespace Sys2Proof.Machine

variable {kind : Kind} {span payload : List Byte} {h c cs t lo hi : Byte}

/-- Settles O34: every field of ten known bytes computes. -/
theorem decodeResponseReadsFields : Obligations.DecodeResponseReadsFields := by
  intro h rid p0 p1 p2 p3 lo hi cs t
  simp only [← le16_eq_ofNat]
  exact returns_decodeResponse rfl

theorem frame_wellFormed (hL : Config.frameLen kind = span.length + 4) :
    checkLen .f (([h, c] ++ span ++ [cs, t]).length = Config.frameLen kind) = none :=
  checkLen_eq_none_iff.2 (by simp [hL])

theorem returns_validateChecksum_frame (hL : Config.frameLen kind = span.length + 4) :
    Returns (.validateChecksum kind ([h, c] ++ span ++ [cs, t])) ⟨.ok, .verdict (decide (csum span = cs))⟩ :=
  checksumMatches_frame hL ▸ returns_validateChecksum (frame_wellFormed hL)

theorem returns_checkFrame_frame (hL : Config.frameLen kind = span.length + 4) :
    Returns (.checkFrame kind ([h, c] ++ span ++ [cs, t]))
      ⟨if ¬ (h = 0xAA ∧ t = 0xAB) then .delimiterMismatch else if csum span ≠ cs then .checksumMismatch else .ok, .none⟩ :=
  frameStatus_frame hL ▸ returns_checkFrame (frame_wellFormed hL)

/-- CHECK_FRAME returns OK for exactly the frames with both delimiters and the checksum of their span. -/
theorem returns_checkFrame_ok_iff (hL : Config.frameLen kind = span.length + 4) :
    Returns (.checkFrame kind ([h, c] ++ span ++ [cs, t])) ⟨.ok, .none⟩ ↔ h = 0xAA ∧ t = 0xAB ∧ csum span = cs := by
  constructor
  · intro hok
    have hstatus := congrArg ResultRecord.status ((returns_checkFrame_frame hL).unique hok)
    simp only at hstatus
    split_ifs at hstatus with hd hc
    exact ⟨hd.1, hd.2, not_not.1 hc⟩
  · rintro ⟨rfl, rfl, rfl⟩
    simpa using returns_checkFrame_frame (h := 0xAA) (c := c) (cs := csum span) (t := 0xAB) hL

/-- Settles O32: the verdict on a frame cut into its fields. -/
theorem validateChecksumComparesSum : Obligations.ValidateChecksumComparesSum := by
  intro kind h c cs t span hs
  simp only [← csum_eq_iff]
  exact returns_validateChecksum_frame (frameLen_of_span hs)

/-- Settles O33: the status of a frame cut into its fields. -/
theorem checkFrameTestsDelimitersFirst : Obligations.CheckFrameTestsDelimitersFirst := by
  intro kind h c cs t span hs
  simp only [ne_eq, ← csum_eq_iff]
  exact returns_checkFrame_frame (frameLen_of_span hs)

theorem returns_decodeCommand_frame (hp : payload.length = 13) :
    Returns (.decodeCommand ([h, c] ++ payload ++ [lo, hi, cs, t])) ⟨.ok, .commandFields c payload (le16 lo hi) cs⟩ := by
  have hret := returns_decodeCommand (f := [h, c] ++ payload ++ [lo, hi, cs, t])
    (checkLen_eq_none_iff.2 (by simp [hp, Config.cmdLen]))
  rwa [framePayload_command hp, deviceId_command hp, byteAt_17_command hp] at hret

/-- Settles O31: the fields of a command cut at the offsets of R80. -/
theorem decodeCommandReadsFields : Obligations.DecodeCommandReadsFields := by
  intro h cid lo hi cs t payload hp
  rw [← le16_eq_ofNat]
  exact returns_decodeCommand_frame hp

theorem commandFrame_eq (cid : Byte) (payload : List Byte) (dev : Half) :
    commandFrame cid payload dev =
      [0xAA, cid] ++ (payload ++ [lo8 dev, hi8 dev]) ++ [csum (payload ++ [lo8 dev, hi8 dev]), 0xAB] := by
  simp [commandFrame, Config.head, Config.tail]

/-- Settles O30: the frame is `commandFrame` of the operands or their defaults. -/
theorem buildCommandLaysOutFrame : Obligations.BuildCommandLaysOutFrame := by
  intro cid payload dev hp
  refine ⟨_, returns_buildCommand (checkLen_eq_none_iff.2 hp), ?_⟩
  simp only [commandFrame_eq, ← lo8_eq_ofNat, ← hi8_eq_ofNat, ← csum_eq_ofNat]
  simp [hp, cidOrDefault, devOrDefault, Config.hostCmdId, Config.broadcastId, List.take_append, List.take_of_length_le]

theorem frameLen_command (hp : payload.length = 13) : Config.frameLen .cmd = (payload ++ [lo, hi]).length + 4 := by
  simp [hp, Config.frameLen, Config.cmdLen]

/-- BUILD_COMMAND with both operands present, as a frame cut into its fields. -/
theorem returns_buildCommand_some (cid : Byte) (dev : Half) (hp : payload.length = 13) :
    Returns (.buildCommand (some cid) payload (some dev))
      ⟨.ok, .command ([0xAA, cid] ++ (payload ++ [lo8 dev, hi8 dev]) ++ [csum (payload ++ [lo8 dev, hi8 dev]), 0xAB])⟩ :=
  commandFrame_eq cid payload dev ▸ returns_buildCommand (cid := some cid) (dev := some dev) (checkLen_eq_none_iff.2 hp)

/-- Settles O36: a built frame is valid, and a valid frame is the one that its fields fix. -/
theorem commandRoundTrip : Obligations.CommandRoundTrip := by
  constructor
  · intro cid payload dev hp
    have hL := frameLen_command (lo := lo8 dev) (hi := hi8 dev) hp
    refine ⟨_, csum (payload ++ [lo8 dev, hi8 dev]), returns_buildCommand_some cid dev hp, by simp [hp], ?_,
      (returns_checkFrame_ok_iff hL).2 ⟨rfl, rfl, rfl⟩, ?_⟩
    · simpa using returns_decodeCommand_frame (lo := lo8 dev) (hi := hi8 dev) hp
    · simpa using returns_validateChecksum_frame (cs := csum (payload ++ [lo8 dev, hi8 dev])) hL
  · intro f hf hok
    obtain ⟨h, cid, payload, lo, hi, cs, t, hp, rfl⟩ := exists_command_of_length hf
    obtain ⟨rfl, rfl, rfl⟩ := (returns_checkFrame_ok_iff (frameLen_command hp)).1 hok
    refine ⟨cid, payload, le16 lo hi, csum (payload ++ [lo, hi]), by simpa using returns_decodeCommand_frame hp, ?_⟩
    simpa using returns_buildCommand_some cid (le16 lo hi) hp

end Sys2Proof.Machine
end

section
/-! One flipped bit in a valid frame (40_codec.md R128). -/

namespace Sys2Proof.Machine

variable {kind : Kind} {span : List Byte} {h c cs t : Byte}

theorem xor_bit_ne {j : Nat} (b : Byte) (hj : j < 8) : b ^^^ (1#8 <<< j) ≠ b := by
  intro h
  simpa [hj] using congrArg (·.getLsbD j) h

/-- Both checks of a frame, from whether its delimiters and its checksum are sound. -/
theorem returns_checks {delimiter identifier : Prop} [Decidable delimiter] [Decidable identifier]
    (hL : Config.frameLen kind = span.length + 4) (hd : h = 0xAA ∧ t = 0xAB ↔ ¬ delimiter)
    (hc : csum span = cs ↔ delimiter ∨ identifier) :
    Returns (.validateChecksum kind ([h, c] ++ span ++ [cs, t])) ⟨.ok, .verdict (decide (delimiter ∨ identifier))⟩ ∧
    Returns (.checkFrame kind ([h, c] ++ span ++ [cs, t]))
      ⟨if delimiter then .delimiterMismatch else if identifier then .ok else .checksumMismatch, .none⟩ := by
  have hvalidate := returns_validateChecksum_frame (h := h) (c := c) (cs := cs) (t := t) hL
  have hcheck := returns_checkFrame_frame (h := h) (c := c) (cs := cs) (t := t) hL
  simp only [hd, hc, not_not, ne_eq] at hvalidate hcheck
  refine ⟨hvalidate, ?_⟩
  by_cases hdel : delimiter
  · simpa only [hdel, if_true] using hcheck
  · simpa only [hdel, if_false, false_or, ite_not] using hcheck

/-- Settles O37: the flipped byte is the head, the identifier, a byte of the span, the checksum or the tail. -/
theorem singleBitFlipDetection : Obligations.SingleBitFlipDetection := by
  intro kind f i j b hf hj hb hok
  obtain ⟨h, c, span, cs, t, hL, rfl⟩ := exists_frame_of_length hf
  obtain ⟨rfl, rfl, rfl⟩ := (returns_checkFrame_ok_iff hL).1 hok
  have hflip := xor_bit_ne b hj
  generalize b ^^^ (1#8 <<< j) = x at hflip
  obtain rfl | rfl | ⟨k, rfl⟩ : i = 0 ∨ i = 1 ∨ ∃ k, i = k + 2 := by
    obtain _ | _ | k := i <;> simp
  · obtain rfl : 0xAA = b := by simpa using hb
    exact returns_checks (h := x) (c := c) (t := 0xAB) hL
      (iff_of_false (fun e => hflip e.1) (not_not.2 (.inl rfl))) (iff_of_true rfl (.inl (.inl rfl)))
  · exact returns_checks (h := 0xAA) (c := x) (t := 0xAB) hL (iff_of_true ⟨rfl, rfl⟩ (by omega)) (iff_of_true rfl (.inr rfl))
  obtain hk | rfl | rfl | hk : k < span.length ∨ k = span.length ∨ k = span.length + 1 ∨ span.length + 2 ≤ k := by omega
  · obtain rfl : span[k] = b := by simpa [List.getElem?_append_left hk, hk] using hb
    have hset : ([0xAA, c] ++ span ++ [csum span, 0xAB]).set (k + 2) x = [0xAA, c] ++ span.set k x ++ [csum span, 0xAB] := by
      simp [List.set_append_left _ _ hk]
    have hsum : csum (span.set k x) ≠ csum span := mt (csum_set_eq_iff hk x).1 hflip
    rw [hset]
    exact returns_checks (by simpa using hL) (iff_of_true ⟨rfl, rfl⟩ (by omega)) (iff_of_false hsum (by omega))
  · obtain rfl : csum span = b := by simpa using hb
    have hset : ([0xAA, c] ++ span ++ [csum span, 0xAB]).set (span.length + 2) x = [0xAA, c] ++ span ++ [x, 0xAB] := by
      simp
    rw [hset]
    exact returns_checks hL (iff_of_true ⟨rfl, rfl⟩ (by omega)) (iff_of_false hflip.symm (by omega))
  · obtain rfl : 0xAB = b := by simpa using hb
    have hset : ([0xAA, c] ++ span ++ [csum span, 0xAB]).set (span.length + 1 + 2) x =
        [0xAA, c] ++ span ++ [csum span, x] := by
      simp
    rw [hset]
    exact returns_checks hL (iff_of_false (fun e => hflip e.2) (not_not.2 (by omega))) (iff_of_true rfl (.inl (by omega)))
  · have hlt := (List.getElem?_eq_some_iff.1 hb).1
    omega

end Sys2Proof.Machine
end

section
/-! The timeout register and the deadline (41_transport.md R160 to R162): three operations of one step. -/

namespace Sys2Proof.Machine

variable {s : State} {i : Instr}

/-- The companion of `runAtomic_ready`: a request while BUSY is 1 sets the fault mark and nothing else (log 7). -/
theorem runAtomic_busy {body : State → ResultRecord × State} (hi : i.check = none) (hf : s.faultMark = none)
    (hb : s.busy = true) : runAtomic i body s = .next { s with faultMark := some .reentrantIssue } := by
  simp [runAtomic, hi, State.faulted, hf, hb, State.raise]

/-- Settles O21: the body of SET_TIMEOUT writes the register and nothing else. -/
theorem setTimeoutWritesRegister : Obligations.SetTimeoutWritesRegister := by
  intro t
  simp only [exec, execSetTimeout]
  refine ⟨rfl, fun s hr => ?_, fun s hf hb => runAtomic_busy rfl hf hb⟩
  rw [runAtomic_ready rfl hr]
  simp [State.finish, State.start, State.returned]

theorem exec_getTimeout_ready (hr : s.Ready) :
    exec .getTimeout s = .next (s.returned .getTimeout [] ⟨.ok, .timeout s.timeoutMs⟩) := by
  rw [exec, execGetTimeout, runAtomic_ready rfl hr]
  simp [State.finish, State.start, State.returned]

/-- Settles O22: a block reset leaves a ready block whose register holds 1000. -/
theorem getTimeoutReadsRegister : Obligations.GetTimeoutReadsRegister := by
  refine ⟨rfl, fun s hr => exec_getTimeout_ready hr, fun s => exec_getTimeout_ready ⟨rfl, rfl⟩, fun s hf hb => ?_⟩
  rw [exec, execGetTimeout, runAtomic_busy rfl hf hb]

/-- Settles O23: the one clock read is that of `primNow_cases`, made after the issue is recorded. -/
theorem mkDeadlineAddsTimeout : Obligations.MkDeadlineAddsTimeout := by
  intro t s hr
  obtain ⟨delta, ds, m, listed, hnow⟩ := primNow_cases (s.start (.mkDeadline t))
  refine ⟨delta, ds, m, listed, ?_⟩
  rw [exec, execMkDeadline, runAtomic_ready rfl hr]
  simp only [hnow]
  simp [State.log, State.finish, State.start, State.returned, timeoutOrRegister, BitVec.add_def]

end Sys2Proof.Machine
end

section
/-! Every point of the three blocking operations (41_transport.md R163 to R166), as the exact next state. -/

namespace Sys2Proof.Machine

variable {s : State} {tr : Transient} {buf : List Byte} {dl : Word}

/-! ### Points whose draw is listed -/

/-- The companion of `primWrite_nil` for a listed count within the contract. -/
theorem primWrite_cons {k : Nat} {ks : List Nat} (h : s.writeCounts = k :: ks) (hk : k ≤ buf.length) :
    s.primWrite buf =
      (k, .kept k { s.log (.write buf buf.length k) with writeCounts := ks, txlog := s.txlog ++ buf.take k }) := by
  simp only [State.primWrite, State.drawWriteCount, h, if_pos hk]; rfl

/-- The write point of SEND_FRAME that draws a listed count: 0 is a failed attempt, anything else is success (R164). -/
theorem advanceWrite_cons {k : Nat} {ks : List Nat} (h : s.writeCounts = k :: ks) (hk : k ≤ buf.length) :
    advanceWrite buf tr s =
      .next { s with
        writeCounts := ks, history := s.history ++ [.write buf buf.length k], txlog := s.txlog ++ buf.take k,
        transient := some { tr with k := k, phase := if k = 0 then .yield else .retSent } } := by
  have hphase : (if 0 < k then Phase.retSent else .yield) = if k = 0 then .yield else .retSent := by
    simp only [Nat.pos_iff_ne_zero, ite_not]
  simp only [advanceWrite, primWrite_cons h hk, hphase]; rfl

/-- The clock point that draws a listed advance (R163). -/
theorem advanceClock_cons (retry expired : Phase) {d : Nat} {ds : List Nat} (hd : tr.dl = some dl)
    (h : s.clockSteps = d :: ds) :
    advanceClock retry expired tr s =
      .next { s with
        clockSteps := ds, clock := clockAfter s.clockWrap s.clock d,
        history := s.history ++ [.now (clockAfter s.clockWrap s.clock d)],
        transient := some { tr with
          phase := if (clockAfter s.clockWrap s.clock d).toNat < dl.toNat then retry else expired } } := by
  simp [advanceClock, hd, primNow_cons h, State.goto, State.log, beforeDeadline, BitVec.ult]

/-! ### The operations -/

theorem check_sendFrame (short : buf.length ≤ 255) : (Instr.sendFrame buf dl).check = none :=
  checkLen_eq_none_iff.2 short

/-- SEND_FRAME in progress does what its pseudocode says at the point reached. -/
theorem exec_sendFrame (hr : s.Running tr) (ho : tr.op = .sendFrame buf dl) (hbuf : buf.length ≤ 255) :
    exec (.sendFrame buf dl) s = advanceSendFrame buf tr s :=
  runBlocking_running (check_sendFrame hbuf) hr ho

/-- SEEK_FRAME_START in progress does what its pseudocode says at the point reached. -/
theorem exec_seekFrameStart (hr : s.Running tr) (ho : tr.op = .seekFrameStart) :
    exec .seekFrameStart s = advanceSeekFrameStart tr s :=
  runBlocking_running rfl hr ho

/-- Settles O38: the write and the clock read draw what is listed; the other points draw nothing. -/
theorem sendFramePoints : Obligations.SendFramePoints := by
  intro buf dl hbuf
  refine ⟨fun s hr => runBlocking_ready (check_sendFrame hbuf) hr, fun s tr hr ho hd => ?_⟩
  rw [exec_sendFrame hr ho hbuf]
  unfold advanceSendFrame
  refine ⟨fun k ks hp hw hk => ?_, fun hp => ?_, fun d ds hp hc => ?_, fun hp => ?_, fun hp => ?_⟩ <;> rw [hp]
  · exact advanceWrite_cons hw hk
  · rfl
  · exact advanceClock_cons _ _ hd hc
  · rfl
  · rfl

/-- Settles O43: the three points of `seek_body` with `retFound` behind them, and the return. -/
theorem seekFrameStartPoints : Obligations.SeekFrameStartPoints := by
  refine ⟨fun s hr => runBlocking_ready (i := .seekFrameStart) rfl hr, fun s tr hr ho => ?_⟩
  rw [exec_seekFrameStart hr ho]
  unfold advanceSeekFrameStart
  refine ⟨fun hp => ?_, fun b rest hp hx => ?_, fun b rest hp hx => ?_, fun found hp => ?_⟩ <;> rw [hp]
  · exact advanceSeekAvail_eq _
  · exact advanceSeekPeek_cons _ hx
  · exact advanceSeekDrop_cons hx
  · rfl

/-- Settles O45: the three points of `seek_body`, the count and the read behind a head, and what follows an attempt. -/
theorem receiveFramePoints : Obligations.ReceiveFramePoints := by
  intro dl
  refine ⟨fun s hr => exec_receiveFrame_ready dl hr, fun s tr hr ho hd => ?_⟩
  rw [← ho, exec_receiveFrame hr ho]
  unfold advanceReceiveFrame
  refine ⟨fun hp => ?_, fun b rest hp hx => ?_, fun b rest hp hx => ?_, fun hp => ?_, fun hp hfull hten => ?_,
    fun hp => ?_, fun d ds hp hc => ?_, fun hp => ?_, fun hp => ?_⟩ <;> rw [hp]
  · exact advanceSeekAvail_eq _
  · exact advanceSeekPeek_cons _ hx
  · exact advanceSeekDrop_cons hx
  · exact advanceCountAvail_eq tr s
  · exact advanceTake_kept tr hfull hten
  · rfl
  · exact advanceClock_cons _ _ hd hc
  · rfl
  · rfl

end Sys2Proof.Machine
end

section
/-! A blocking operation that runs alone: its points as states, `seek_body`, and the attempts that fail (41_transport.md R163 to
R167). -/

namespace Sys2Proof.Machine

variable {s u : State} {i : Instr} {p : Phase}

/-! ### Points as states -/

/-- Operation `i` is in progress at point `p`, with no bytes held and no count answered unless they are given; all else is as
in `s`. -/
def State.atPoint (i : Instr) (p : Phase) (s : State) (buf : List Byte := []) (k : Nat := 0) : State :=
  { s with busy := true, transient := some ⟨i, deadlineOf i, p, buf, k⟩ }

theorem State.running_atPoint {buf : List Byte} {k : Nat} (hf : s.faultMark = none) :
    (s.atPoint i p buf k).Running ⟨i, deadlineOf i, p, buf, k⟩ :=
  ⟨hf, rfl, rfl⟩

theorem execTimes_one (h : exec i s = .next u) : execTimes i 1 s = .next u := execTimes_next (n := 0) h

/-! ### `seek_body` -/

/-- An operation that contains `seek_body`, and the point where it goes on with or without a head (R165, R166). -/
inductive SeekBody : Instr → (Bool → Phase) → Prop where
  | seekFrameStart : SeekBody .seekFrameStart .retFound
  | receiveFrame (dl : Word) : SeekBody (.receiveFrame dl) afterSeek

variable {atEnd : Bool → Phase} {b : Byte} {junk rest tail : List Byte}

theorem SeekBody.exec_seekAvail (op : SeekBody i atEnd) (hf : s.faultMark = none) :
    exec i (s.atPoint i .seekAvail) =
      .next ((s.log (.avail s.rxq.length)).atPoint i (if s.rxq = [] then atEnd false else .seekPeek)) := by
  cases op with
  | seekFrameStart => exact (exec_seekFrameStart (s.running_atPoint hf) rfl).trans (advanceSeekAvail_eq _)
  | receiveFrame dl => exact (exec_receiveFrame (s.running_atPoint hf) rfl).trans (advanceSeekAvail_eq _)

theorem SeekBody.exec_seekPeek (op : SeekBody i atEnd) (hf : s.faultMark = none) (hx : s.rxq = b :: rest) :
    exec i (s.atPoint i .seekPeek) =
      .next ((s.log (.peek b)).atPoint i (if b = 0xAA then atEnd true else .seekDrop)) := by
  cases op with
  | seekFrameStart => exact (exec_seekFrameStart (s.running_atPoint hf) rfl).trans (advanceSeekPeek_cons _ hx)
  | receiveFrame dl => exact (exec_receiveFrame (s.running_atPoint hf) rfl).trans (advanceSeekPeek_cons _ hx)

theorem SeekBody.exec_seekDrop (op : SeekBody i atEnd) (hf : s.faultMark = none) (hx : s.rxq = b :: rest) :
    exec i (s.atPoint i .seekDrop) =
      .next (({ s.log (.readByte b) with rxq := rest } : State).atPoint i .seekAvail) := by
  cases op with
  | seekFrameStart => exact (exec_seekFrameStart (s.running_atPoint hf) rfl).trans (advanceSeekDrop_cons hx)
  | receiveFrame dl => exact (exec_receiveFrame (s.running_atPoint hf) rfl).trans (advanceSeekDrop_cons hx)

/-- A seek on an empty stream ends without a head. -/
theorem SeekBody.exec_empty (op : SeekBody i atEnd) (hf : s.faultMark = none) (hx : s.rxq = []) :
    exec i (s.atPoint i .seekAvail) = .next ((s.log (.avail 0)).atPoint i (atEnd false)) := by
  rw [op.exec_seekAvail hf, if_pos hx, hx]; rfl

/-- A seek on a stream that begins with a head finds it and leaves it there. -/
theorem SeekBody.execTimes_head (op : SeekBody i atEnd) (hf : s.faultMark = none) (hx : s.rxq = 0xAA :: rest) :
    execTimes i 2 (s.atPoint i .seekAvail) =
      .next (({ s with history := s.history ++ [.avail (rest.length + 1), .peek 0xAA] } : State).atPoint i
        (atEnd true)) := by
  have avail := op.exec_seekAvail hf
  rw [if_neg (by simp [hx])] at avail
  rw [execTimes_next avail, execTimes_next (op.exec_seekPeek (by exact hf) (by exact hx)), if_pos rfl]
  simp [execTimes, State.atPoint, State.log, hx]

/-- One round of the loop of `seek_body`: the byte in front is no head and is discarded. -/
theorem SeekBody.execTimes_drop (op : SeekBody i atEnd) (hf : s.faultMark = none) (hx : s.rxq = b :: rest)
    (hb : b ≠ 0xAA) :
    execTimes i 3 (s.atPoint i .seekAvail) =
      .next (({ s with
        rxq := rest, history := s.history ++ [.avail (rest.length + 1), .peek b, .readByte b] } : State).atPoint i
          .seekAvail) := by
  have avail := op.exec_seekAvail hf
  have peek := op.exec_seekPeek (s := s.log (.avail s.rxq.length)) hf hx
  rw [if_neg (by simp [hx])] at avail
  rw [if_neg hb] at peek
  rw [execTimes_next avail, execTimes_next peek, execTimes_next (op.exec_seekDrop (by exact hf) (by exact hx))]
  simp [execTimes, State.atPoint, State.log, hx]

/-- `seek_body` discards the bytes before the first head, three calls a byte. -/
theorem SeekBody.execTimes_discard (op : SeekBody i atEnd) (hf : s.faultMark = none) (noHead : (0xAA : Byte) ∉ junk)
    (hx : s.rxq = junk ++ tail) :
    execTimes i (3 * junk.length) (s.atPoint i .seekAvail) =
      .next (({ s with rxq := tail, history := s.history ++ discardCalls tail.length junk } : State).atPoint i
        .seekAvail) := by
  induction junk generalizing s with
  | nil =>
    obtain rfl : s.rxq = tail := hx
    simp [execTimes, discardCalls]
  | cons b junk ih =>
    obtain ⟨hb, noHead⟩ := List.ne_and_not_mem_of_not_mem_cons noHead
    have first := op.execTimes_drop hf hx hb.symm
    have hcount : 3 * (b :: junk).length = 3 + 3 * junk.length := by rw [List.length_cons]; omega
    rw [hcount, execTimes_add first, ih (by exact hf) noHead rfl]
    simp [discardCalls, Nat.add_right_comm]

/-! ### Attempts that fail -/

/-- The successive values of clock reads are read one after the other. -/
theorem clockReads_append (wrap : ClockWrap) (prev : Word) (steps later : List Nat) :
    clockReads wrap prev (steps ++ later) =
      clockReads wrap prev steps ++ clockReads wrap ((clockReads wrap prev steps).getLastD prev) later := by
  induction steps generalizing prev with
  | nil => rfl
  | cons d steps ih => simp only [List.cons_append, clockReads, ih, List.getLastD_cons]

/-- An operation that makes attempts until its deadline, and where it goes on from the clock read (R163). -/
inductive Retries : Instr → Word → Phase → Phase → Prop where
  | sendFrame (buf : List Byte) (dl : Word) (short : buf.length ≤ 255) :
    Retries (.sendFrame buf dl) dl .write .retWriteTimeout
  | receiveFrame (dl : Word) : Retries (.receiveFrame dl) dl .seekAvail .retReadTimeout

variable {dl : Word} {retry expired : Phase} {d : Nat} {ds ws steps zeros : List Nat} {calls : List Event} {rxq : List Byte}

theorem Retries.exec_yield (op : Retries i dl retry expired) (hf : s.faultMark = none) :
    exec i (s.atPoint i .yield) = .next ((s.log .yield).atPoint i .clock) := by
  cases op with
  | sendFrame buf _ short => exact exec_sendFrame (s.running_atPoint hf) rfl short
  | receiveFrame => exact exec_receiveFrame (s.running_atPoint hf) rfl

theorem Retries.exec_clock (op : Retries i dl retry expired) (hf : s.faultMark = none) (hc : s.clockSteps = d :: ds) :
    exec i (s.atPoint i .clock) =
      .next (({ s.log (.now (clockAfter s.clockWrap s.clock d)) with
        clockSteps := ds, clock := clockAfter s.clockWrap s.clock d } : State).atPoint i
          (if (clockAfter s.clockWrap s.clock d).toNat < dl.toNat then retry else expired)) := by
  cases op with
  | sendFrame buf _ short =>
    rw [exec_sendFrame (s.running_atPoint hf) rfl short, advanceSendFrame]
    exact advanceClock_cons _ _ rfl hc
  | receiveFrame =>
    rw [(exec_receiveFrame (s.running_atPoint hf) rfl : exec (.receiveFrame dl) _ = _), advanceReceiveFrame]
    exact advanceClock_cons _ _ rfl hc

/-- Over the stream `rxq`, with the write counts `zeros` listed next, an attempt of operation `i` makes these calls and fails. -/
def FailsAttempt (i : Instr) (retry : Phase) (rxq : List Byte) (zeros : List Nat) (calls : List Event) : Prop :=
  ∀ (s : State) (ws : List Nat), s.faultMark = none → s.rxq = rxq → s.writeCounts = zeros ++ ws →
    execTimes i calls.length (s.atPoint i retry) =
      .next (({ s with writeCounts := ws, history := s.history ++ calls } : State).atPoint i .yield)

/-- The state after failed attempts of these calls each, with their yields and clock reads: `ds` and `ws` are the draws left. -/
def State.afterAttempts (calls : List Event) (reads : List Word) (ds ws : List Nat) (s : State) : State :=
  { s with
    clock := reads.getLastD s.clock, clockSteps := ds, writeCounts := ws,
    history := s.history ++ reads.flatMap fun t => calls ++ [.yield, .now t] }

theorem State.afterAttempts_append (first later : List Word) (ds₁ ws₁ : List Nat) :
    (s.afterAttempts calls first ds₁ ws₁).afterAttempts calls later ds ws =
      s.afterAttempts calls (first ++ later) ds ws := by
  simp [State.afterAttempts]

/-- One failed attempt, with its yield and its clock read. -/
theorem FailsAttempt.once (fails : FailsAttempt i retry rxq zeros calls) (op : Retries i dl retry expired)
    (hf : s.faultMark = none) (hx : s.rxq = rxq) (hw : s.writeCounts = zeros ++ ws) (hc : s.clockSteps = d :: ds) :
    execTimes i (calls.length + 2) (s.atPoint i retry) =
      .next ((s.afterAttempts calls [clockAfter s.clockWrap s.clock d] ds ws).atPoint i
        (if (clockAfter s.clockWrap s.clock d).toNat < dl.toNat then retry else expired)) := by
  rw [execTimes_add (fails s ws hf hx hw), execTimes_next (op.exec_yield (by exact hf)),
    execTimes_next (op.exec_clock (by exact hf) (by exact hc))]
  simp [execTimes, State.afterAttempts, State.atPoint, State.log]

/-- Failed attempts whose clock reads are all below the deadline lead back to another attempt. -/
theorem FailsAttempt.repeated (fails : FailsAttempt i retry rxq zeros calls) (op : Retries i dl retry expired)
    (hf : s.faultMark = none) (hx : s.rxq = rxq) (hw : s.writeCounts = (List.replicate steps.length zeros).flatten ++ ws)
    (hc : s.clockSteps = steps ++ ds) (below : ∀ t ∈ clockReads s.clockWrap s.clock steps, t.toNat < dl.toNat) :
    execTimes i ((calls.length + 2) * steps.length) (s.atPoint i retry) =
      .next ((s.afterAttempts calls (clockReads s.clockWrap s.clock steps) ds ws).atPoint i retry) := by
  induction steps generalizing s with
  | nil =>
    obtain rfl : s.writeCounts = ws := hw
    obtain rfl : s.clockSteps = ds := hc
    simp [execTimes, State.afterAttempts, clockReads]
  | cons d steps ih =>
    obtain ⟨hd, below⟩ := List.forall_mem_cons.1 below
    have hw : s.writeCounts = zeros ++ ((List.replicate steps.length zeros).flatten ++ ws) := by
      simpa [List.replicate_succ] using hw
    have first := fails.once op (ds := steps ++ ds) hf hx hw hc
    rw [if_pos hd] at first
    have later := ih (s := s.afterAttempts calls [clockAfter s.clockWrap s.clock d] (steps ++ ds) _) hf hx rfl rfl below
    rw [List.length_cons, Nat.mul_succ, Nat.add_comm, execTimes_add first, later, State.afterAttempts_append]
    rfl

/-- Failed attempts until the first clock read that is not below the deadline lead to the timeout (R163, R167). -/
theorem FailsAttempt.timesOut (fails : FailsAttempt i retry rxq zeros calls) (op : Retries i dl retry expired)
    (hf : s.faultMark = none) (hx : s.rxq = rxq)
    (hw : s.writeCounts = (List.replicate (steps.length + 1) zeros).flatten ++ ws) {last : Nat}
    (hc : s.clockSteps = steps ++ last :: ds) (below : ∀ t ∈ clockReads s.clockWrap s.clock steps, t.toNat < dl.toNat)
    (late : dl.toNat ≤ ((clockReads s.clockWrap s.clock (steps ++ [last])).getLastD 0).toNat) :
    execTimes i ((calls.length + 2) * (steps.length + 1)) (s.atPoint i retry) =
      .next ((s.afterAttempts calls (clockReads s.clockWrap s.clock (steps ++ [last])) ds ws).atPoint i expired) := by
  have hw : s.writeCounts = (List.replicate steps.length zeros).flatten ++ (zeros ++ ws) := by
    simpa [List.replicate_succ'] using hw
  rw [clockReads_append] at late ⊢
  have final := fails.once op (s := s.afterAttempts calls (clockReads s.clockWrap s.clock steps) (last :: ds) (zeros ++ ws))
    hf hx rfl rfl
  rw [if_neg (by simpa [clockReads, State.afterAttempts] using late), State.afterAttempts_append] at final
  rw [Nat.mul_succ, execTimes_add (fails.repeated op hf hx hw hc below)]
  exact final

end Sys2Proof.Machine
end

section
/-! What the blocking operations do when they run alone (41_transport.md R164 to R168). -/

namespace Sys2Proof.Machine

variable {s : State} {buf junk rest rxq window : List Byte} {dl : Word}

/-- The last of some clock reads does not depend on the value they started from, once there is one. -/
theorem clockReads_getLastD (wrap : ClockWrap) (prev other : Word) (steps : List Nat) (last : Nat) :
    (clockReads wrap prev (steps ++ [last])).getLastD other = (clockReads wrap prev (steps ++ [last])).getLastD prev := by
  simp [clockReads_append, clockReads]

/-! ### SEND_FRAME -/

theorem exec_sendFrame_ready (short : buf.length ≤ 255) (hr : s.Ready) :
    exec (.sendFrame buf dl) s = .next ((s.log (.issue (.sendFrame buf dl))).atPoint (.sendFrame buf dl) .write) :=
  runBlocking_ready (i := .sendFrame buf dl) (check_sendFrame short) hr

theorem exec_sendFrame_write_cons {k : Nat} {ks : List Nat} (short : buf.length ≤ 255) (hf : s.faultMark = none)
    (hw : s.writeCounts = k :: ks) (hle : k ≤ buf.length) :
    exec (.sendFrame buf dl) (s.atPoint (.sendFrame buf dl) .write) =
      .next (({ s with
        writeCounts := ks, txlog := s.txlog ++ buf.take k,
        history := s.history ++ [.write buf buf.length k] } : State).atPoint (.sendFrame buf dl)
          (if k = 0 then .yield else .retSent) (k := k)) :=
  (exec_sendFrame (s.running_atPoint hf) rfl short).trans (advanceWrite_cons hw hle)

theorem exec_sendFrame_retSent {k : Nat} (short : buf.length ≤ 255) (hf : s.faultMark = none) :
    exec (.sendFrame buf dl) (s.atPoint (.sendFrame buf dl) .retSent (k := k)) =
      .next (s.finish ⟨.ok, .sent (BitVec.ofNat 8 k)⟩) :=
  exec_sendFrame (s.running_atPoint hf) rfl short

theorem exec_sendFrame_retWriteTimeout (short : buf.length ≤ 255) (hf : s.faultMark = none) :
    exec (.sendFrame buf dl) (s.atPoint (.sendFrame buf dl) .retWriteTimeout) =
      .next (s.finish ⟨.transportWriteTimeout, .sent 0⟩) :=
  exec_sendFrame (s.running_atPoint hf) rfl short

/-- A `Write` that accepts nothing is a failed attempt, whatever the stream. -/
theorem sendFrame_failsAttempt (short : buf.length ≤ 255) :
    FailsAttempt (.sendFrame buf dl) .write rxq [0] [.write buf buf.length 0] := by
  intro s ws hf _ hw
  have write := exec_sendFrame_write_cons (dl := dl) short hf hw (Nat.zero_le _)
  simpa using execTimes_one write

/-- Settles O40: failed attempts, then the write that accepts bytes and the return. -/
theorem sendFrameSucceedsOnLaterAttempt : Obligations.SendFrameSucceedsOnLaterAttempt := by
  intro s buf dl k ks steps ds hr short hk hle hw hc below
  have hw : s.writeCounts = (List.replicate steps.length [0]).flatten ++ k :: ks := by simpa using hw
  have attempts : execTimes (.sendFrame buf dl) (3 * steps.length) _ = _ :=
    (sendFrame_failsAttempt short).repeated (.sendFrame buf dl short) (s := s.log (.issue (.sendFrame buf dl)))
      hr.1 rfl hw hc below
  rw [execTimes_next (n := 3 * steps.length + 2) (exec_sendFrame_ready short hr), execTimes_add (m := 2) attempts,
    execTimes_next (exec_sendFrame_write_cons short (by exact hr.1) rfl hle), if_neg hk.ne',
    execTimes_one (exec_sendFrame_retSent short (by exact hr.1))]
  simp [State.finish, State.returned, State.afterAttempts]

/-- Settles O41: the attempts fail until the deadline, and the timeout is returned. -/
theorem sendFrameTimesOut : Obligations.SendFrameTimesOut := by
  intro s buf dl steps ks ds last hr short hw hc below reads late
  have hw : s.writeCounts = (List.replicate (steps.length + 1) [0]).flatten ++ ks := by simpa using hw
  have hlast : reads.getLastD 0 = reads.getLastD s.clock := clockReads_getLastD _ _ _ _ _
  have attempts : execTimes (.sendFrame buf dl) (3 * steps.length + 3) _ = _ :=
    (sendFrame_failsAttempt short).timesOut (.sendFrame buf dl short) (s := s.log (.issue (.sendFrame buf dl)))
      hr.1 rfl hw hc below late
  rw [hlast, execTimes_next (n := 3 * steps.length + 4) (exec_sendFrame_ready short hr), execTimes_add (m := 1) attempts,
    execTimes_one (exec_sendFrame_retWriteTimeout short (by exact hr.1))]
  simp [State.finish, State.returned, State.afterAttempts, reads]

/-! ### SEEK_FRAME_START -/

/-- The state after operation `i` was issued in `s` and its `seek_body` has discarded `junk`, which stood before `tail`. -/
def State.afterDiscard (i : Instr) (junk tail : List Byte) (s : State) : State :=
  { s with rxq := tail, history := s.history ++ .issue i :: discardCalls tail.length junk }

/-- An operation that begins with `seek_body` is accepted and discards the bytes before the first head. -/
theorem SeekBody.execTimes_accept_discard {i : Instr} {atEnd : Bool → Phase} {tail : List Byte} (op : SeekBody i atEnd)
    (hr : s.Ready) (noHead : (0xAA : Byte) ∉ junk) (hx : s.rxq = junk ++ tail) :
    execTimes i (3 * junk.length + 1) s = .next ((s.afterDiscard i junk tail).atPoint i .seekAvail) := by
  have accepted : exec i s = .next ((s.log (.issue i)).atPoint i .seekAvail) := by
    cases op with
    | seekFrameStart => exact runBlocking_ready (i := .seekFrameStart) rfl hr
    | receiveFrame dl => exact exec_receiveFrame_ready dl hr
  rw [execTimes_next accepted, op.execTimes_discard (s := s.log (.issue i)) hr.1 noHead hx]
  simp [State.afterDiscard, State.atPoint]

theorem exec_seekFrameStart_found {found : Bool} (hf : s.faultMark = none) :
    exec .seekFrameStart (s.atPoint .seekFrameStart (.retFound found)) = .next (s.finish ⟨.ok, .found found⟩) :=
  exec_seekFrameStart (s.running_atPoint hf) rfl

/-- Settles O44: the junk is discarded; then the head is found, or the stream is empty; and the outcome is returned. -/
theorem seekDiscardsUpToHead : Obligations.SeekDiscardsUpToHead := by
  intro s junk hr noHead
  have op := SeekBody.seekFrameStart
  refine ⟨fun rest hx => ?_, fun hx => ?_⟩
  · rw [execTimes_add (m := 3) (op.execTimes_accept_discard hr noHead hx),
      execTimes_add (m := 1) (op.execTimes_head (by exact hr.1) rfl),
      execTimes_one (exec_seekFrameStart_found (by exact hr.1))]
    simp [State.finish, State.returned, State.afterDiscard]
  · have hx : s.rxq = junk ++ [] := by simpa using hx
    rw [execTimes_add (m := 2) (op.execTimes_accept_discard hr noHead hx),
      execTimes_next (op.exec_empty (by exact hr.1) rfl), execTimes_one (exec_seekFrameStart_found (by exact hr.1))]
    simp [State.finish, State.returned, State.afterDiscard]

/-! ### RECEIVE_FRAME -/

theorem exec_receiveFrame_countAvail (hf : s.faultMark = none) :
    exec (.receiveFrame dl) (s.atPoint (.receiveFrame dl) .countAvail) =
      .next ((s.log (.avail s.rxq.length)).atPoint (.receiveFrame dl) (if 10 ≤ s.rxq.length then .take else .yield)) :=
  (exec_receiveFrame (s.running_atPoint hf) rfl).trans (advanceCountAvail_eq _ _)

theorem exec_receiveFrame_take (hf : s.faultMark = none) (full : ∀ d ∈ s.deliveries.head?, 10 ≤ d)
    (hlen : window.length = 10) (hx : s.rxq = window ++ rest) :
    exec (.receiveFrame dl) (s.atPoint (.receiveFrame dl) .take) =
      .next (({ s with
        rxq := rest, deliveries := s.deliveries.tail,
        history := s.history ++ [.readExactly 10 window] } : State).atPoint (.receiveFrame dl) .retFrame (buf := window)) := by
  have hten : 10 ≤ s.rxq.length := by simp [hx, hlen]
  have htake : s.rxq.take 10 = window := by rw [hx, List.take_left' hlen]
  have hdrop : s.rxq.drop 10 = rest := by rw [hx, List.drop_left' hlen]
  refine (exec_receiveFrame (s.running_atPoint hf) rfl).trans ?_
  rw [← htake, ← hdrop]
  exact advanceTake_kept (s := s.atPoint _ _) _ full hten

theorem exec_receiveFrame_retFrame (hf : s.faultMark = none) :
    exec (.receiveFrame dl) (s.atPoint (.receiveFrame dl) .retFrame (buf := window)) =
      .next (s.finish ⟨.ok, .received window⟩) :=
  exec_receiveFrame (s.running_atPoint hf) rfl

theorem exec_receiveFrame_retReadTimeout (hf : s.faultMark = none) :
    exec (.receiveFrame dl) (s.atPoint (.receiveFrame dl) .retReadTimeout) =
      .next (s.finish ⟨.transportReadTimeout, .none⟩) :=
  exec_receiveFrame (s.running_atPoint hf) rfl

/-- An empty stream is a failed attempt. -/
theorem receiveFrame_failsAttempt_empty : FailsAttempt (.receiveFrame dl) .seekAvail [] [] [.avail 0] := by
  intro s ws hf hx hw
  obtain rfl : s.writeCounts = ws := hw
  exact execTimes_one ((SeekBody.receiveFrame dl).exec_empty hf hx)

/-- A head with fewer than ten bytes is a failed attempt. -/
theorem receiveFrame_failsAttempt_head (few : rest.length + 1 < 10) :
    FailsAttempt (.receiveFrame dl) .seekAvail (0xAA :: rest) []
      [.avail (rest.length + 1), .peek 0xAA, .avail (rest.length + 1)] := by
  intro s ws hf hx hw
  obtain rfl : s.writeCounts = ws := hw
  have hten : ¬ 10 ≤ s.rxq.length := by rw [hx, List.length_cons]; omega
  refine (execTimes_add (n := 2) (m := 1) ((SeekBody.receiveFrame dl).execTimes_head hf hx)).trans ?_
  rw [afterSeek, if_pos rfl, execTimes_one (exec_receiveFrame_countAvail (by exact hf)), if_neg (by exact hten)]
  simp [hx, State.log]

/-- Settles O46: the junk is discarded, the head found, the window counted, taken and returned. -/
theorem receiveReturnsFirstWindow : Obligations.ReceiveReturnsFirstWindow := by
  intro s dl junk window rest hr full noHead hlen hhead hx
  have op := SeekBody.receiveFrame dl
  obtain ⟨w, rfl⟩ := List.head?_eq_some_iff.1 hhead
  have htotal : w.length + rest.length + 1 = 10 + rest.length := by rw [List.length_cons] at hlen; omega
  rw [execTimes_add (m := 5) (op.execTimes_accept_discard hr noHead (hx.trans (List.append_assoc ..))),
    execTimes_add (m := 3) (op.execTimes_head (by exact hr.1) rfl), afterSeek, if_pos rfl,
    execTimes_next (exec_receiveFrame_countAvail (by exact hr.1)), if_pos (by simp [State.afterDiscard, htotal]),
    execTimes_next (exec_receiveFrame_take (by exact hr.1) (by exact full) hlen rfl),
    execTimes_one (exec_receiveFrame_retFrame (by exact hr.1))]
  simp [State.finish, State.returned, State.afterDiscard, htotal]

/-- Settles O48: the junk is discarded, and the attempts on what is kept fail until the deadline. -/
theorem receiveFrameTimesOut : Obligations.ReceiveFrameTimesOut := by
  intro s dl junk kept steps ds last hr noHead hkept hx hc below reads attempt late
  have hlast : reads.getLastD 0 = reads.getLastD s.clock := clockReads_getLastD _ _ _ _ _
  have fails : FailsAttempt (.receiveFrame dl) .seekAvail kept [] attempt := by
    obtain rfl | ⟨hhead, few⟩ := hkept
    · exact receiveFrame_failsAttempt_empty
    · obtain ⟨rest, rfl⟩ := List.head?_eq_some_iff.1 hhead
      exact receiveFrame_failsAttempt_head few
  have attempts := fails.timesOut (.receiveFrame dl) (s := s.afterDiscard (.receiveFrame dl) junk kept)
      (ws := s.writeCounts) hr.1 rfl (by simp [State.afterDiscard]) hc below late
  have hcount : 3 * junk.length + (attempt.length + 2) * (steps.length + 1) + 2 =
    3 * junk.length + 1 + ((attempt.length + 2) * (steps.length + 1) + 1) := by omega
  rw [hlast, hcount, execTimes_add ((SeekBody.receiveFrame dl).execTimes_accept_discard hr noHead hx),
    execTimes_add attempts, execTimes_one (exec_receiveFrame_retReadTimeout (by exact hr.1))]
  simp [State.finish, State.returned, State.afterAttempts, State.afterDiscard, reads]

end Sys2Proof.Machine
end

section
/-! Deadlines that have passed (41_transport.md R163, R167). -/

namespace Sys2Proof.Machine

variable {s s' : State} {tr : Transient} {i : Instr} {dl : Word}

/-- Only a blocking operation has points. -/
theorem isBlocking_of_pointOf {p : Phase} (h : pointOf i p = true) : IsBlocking i := by
  cases i with
  | sendFrame | seekFrameStart | receiveFrame => simp [IsBlocking, Instr.opcode, opByte]
  | setTimeout | getTimeout | mkDeadline | csum | buildCommand | decodeCommand | validateChecksum | checkFrame
  | decodeResponse => cases h

/-- A sound operation in progress makes the step of its point. -/
theorem Transient.Sound.blockStep (hs : tr.Sound) (hr : s.Running tr) (h : exec tr.op s = .next s') :
    BlockStep tr s s' :=
  exec_blockStep hr (isBlocking_of_pointOf hs.point) hs.wellFormed h

/-- No clock read is below the deadline 0, nor, under `forbidden`, below a value that the clock has reached. -/
theorem not_clockAfter_lt (hdl : dl = 0 ∨ (s.clockWrap = .forbidden ∧ dl.toNat ≤ s.clock.toNat)) (delta : Nat) :
    ¬ (clockAfter s.clockWrap s.clock delta).toNat < dl.toNat := by
  obtain rfl | ⟨hw, hle⟩ := hdl
  · simp
  · rw [hw]
    exact Nat.not_lt.2 (hle.trans (clockAfter_forbidden_le _ _))

/-- Settles O49: whatever the read draws, it is not below the deadline. -/
theorem expiredDeadlineGivesOneAttempt : Obligations.ExpiredDeadlineGivesOneAttempt := by
  intro s s' tr dl hr hs hp hd hdl h
  have hstep := hs.blockStep hr h
  cases hstep
  case clocked dl' delta ds m retry expired at_ deadline op =>
    obtain rfl : dl = dl' := Option.some.inj (hd.symm.trans deadline)
    refine ⟨{ tr with phase := expired }, by simp [not_clockAfter_lt hdl], ?_⟩
    obtain ⟨_, _, -, -, rfl⟩ | ⟨_, -, -, rfl⟩ := op
    · exact .inl rfl
    · exact .inr rfl
  -- every other step is that of another point
  all_goals simp [hp] at *

/-- RECEIVE_FRAME on an empty stream whose first clock read is not below the deadline makes one attempt. -/
theorem receiveFrame_once {d : Nat} {ds : List Nat} (hr : s.Ready) (hx : s.rxq = []) (hc : s.clockSteps = d :: ds)
    (late : dl.toNat ≤ (clockAfter s.clockWrap s.clock d).toNat) :
    ∃ t, execTimes (.receiveFrame dl) 5 s = .next t ∧ t.result = some ⟨.transportReadTimeout, .none⟩ ∧ t.rxq = [] ∧
      t.history = s.history ++ [.issue (.receiveFrame dl), .avail 0, .yield,
        .now (clockAfter s.clockWrap s.clock d), .result ⟨.transportReadTimeout, .none⟩] :=
  ⟨_, receiveFrameTimesOut s dl [] [] [] ds d hr (by simp) (.inl rfl) hx hc (by simp [clockReads]) late, rfl, rfl,
    by simp [State.returned, discardCalls, clockReads]⟩

/-- Settles O50: MK_DEADLINE 0 gives the value of its own clock read, and the next read is not below it. -/
theorem timeoutZeroReceivesOnce : Obligations.TimeoutZeroReceivesOnce := by
  intro s a b ds hr hw hx hc
  obtain ⟨delta, rest, n, listed, made⟩ := mkDeadlineAddsTimeout (some 0) s hr
  obtain ⟨rfl, rfl, rfl⟩ := listed a (b :: ds) hc
  have late : (BitVec.ofNat 32 ((clockAfter s.clockWrap s.clock delta).toNat + (0 : Word).toNat)).toNat ≤
      (clockAfter s.clockWrap (clockAfter s.clockWrap s.clock delta) b).toNat := by
    simpa [hw] using clockAfter_forbidden_le (clockAfter .forbidden s.clock delta) b
  obtain ⟨t, received⟩ := receiveFrame_once (s := { s.returned _ _ _ with clock := _, clockSteps := _, draws := _ })
    ⟨hr.1, rfl⟩ hx rfl late
  exact ⟨_, _, t, _, made, rfl, received⟩

end Sys2Proof.Machine
end

section
/-! What holds of every step of a blocking operation. -/

namespace Sys2Proof.Machine

variable {s s' u : State} {tr tr' : Transient} {i : Instr} {r : ResultRecord} {dl : Word} {buf : List Byte}

/-! ### Frames -/

theorem BlockStep.clockWrap_eq (h : BlockStep tr s s') : s'.clockWrap = s.clockWrap := by cases h <;> rfl

theorem BlockStep.schedule_eq (h : BlockStep tr s s') : s'.schedule = s.schedule := by cases h <;> rfl

/-- SEND_FRAME reads nothing from the transport (R164). -/
theorem BlockStep.sendFrame_frame (h : BlockStep tr s s') (ho : tr.op = .sendFrame buf dl) :
    s'.rxq = s.rxq ∧ s'.deliveries = s.deliveries := by
  cases h
  case dropped | took | tookShort => simp [ho] at *
  all_goals exact ⟨rfl, rfl⟩

/-- SEEK_FRAME_START reads bytes one by one, and neither writes nor reads the clock (R165). -/
theorem BlockStep.seekFrameStart_frame (h : BlockStep tr s s') (ho : tr.op = .seekFrameStart) :
    s'.txlog = s.txlog ∧ s'.clock = s.clock ∧ s'.clockSteps = s.clockSteps ∧ s'.writeCounts = s.writeCounts ∧
      s'.deliveries = s.deliveries := by
  cases h
  case wrote | overwrote | clocked | took | tookShort => simp [ho] at *
  all_goals exact ⟨rfl, rfl, rfl, rfl, rfl⟩

/-- RECEIVE_FRAME writes nothing (R166). -/
theorem BlockStep.receiveFrame_frame (h : BlockStep tr s s') (ho : tr.op = .receiveFrame dl) :
    s'.txlog = s.txlog ∧ s'.writeCounts = s.writeCounts := by
  cases h
  case wrote | overwrote => simp [ho] at *
  all_goals exact ⟨rfl, rfl⟩

/-- Settles O57: a step that makes no point of the pseudocode raises a fault, accepts the operation, or does nothing. -/
theorem blockingOperationFrames : Obligations.BlockingOperationFrames := by
  intro i s s' hi h
  obtain ⟨-, rfl⟩ | ⟨-, -, rfl⟩ | ⟨tr, hr, rfl, -, hcheck, he⟩ | ⟨-, -, -, p, rfl, -⟩ | ⟨-, -, hc, -⟩ := exec_next h
  case inr.inr.inl =>
    have hs := exec_blockStep hr hi hcheck he
    exact ⟨hs.timeoutMs_eq, hs.clockWrap_eq, hs.schedule_eq, hs.ownershipBroken_eq, fun _ _ => hs.sendFrame_frame,
      hs.seekFrameStart_frame, fun _ => hs.receiveFrame_frame⟩
  case inr.inr.inr.inr => exact absurd hi hc
  all_goals
    exact ⟨rfl, rfl, rfl, rfl, fun _ _ _ => ⟨rfl, rfl⟩, fun _ => ⟨rfl, rfl, rfl, rfl, rfl⟩, fun _ _ => ⟨rfl, rfl⟩⟩

/-! ### The operation and its deadline -/

/-- A point of a blocking operation keeps the operation and its deadline, or ends it. -/
theorem BlockStep.op_eq (h : BlockStep tr s s') (ht : s.transient = some tr) (ht' : s'.transient = some tr') :
    tr'.op = tr.op ∧ tr'.dl = tr.dl := by
  cases h
  case sent | writeTimeout | found | received | readTimeout => cases ht'
  case peekedNothing | droppedNothing | tookShort =>
    obtain rfl := Option.some.inj (ht.symm.trans ht')
    exact ⟨rfl, rfl⟩
  all_goals
    obtain rfl := Option.some.inj ht'
    exact ⟨rfl, rfl⟩

/-- Settles O53: an operation in progress is sound and kept by every step; a new one latches its operand. -/
theorem deadlineIsImmutable : Obligations.DeadlineIsImmutable := by
  intro s s' tr' hi ho h ht'
  obtain ⟨rest, m, hs⟩ := step_untouched h ho
  have unchanged (ht : s.transient = some tr') (htime : s'.timeoutMs = s.timeoutMs) : tr'.dl = deadlineOf tr'.op ∧
      ∀ tr, s.transient = some tr → tr'.op = tr.op ∧ tr'.dl = tr.dl ∧ s'.timeoutMs = s.timeoutMs := by
    refine ⟨(hi.sound ho tr' ht).deadline, fun tr htr => ?_⟩
    obtain rfl := Option.some.inj (ht.symm.trans htr)
    exact ⟨rfl, rfl, htime⟩
  cases hs with
  | advanced tr _ turn running step =>
    obtain ⟨-, -, ht⟩ := running
    obtain ⟨hop, hdl⟩ := step.op_eq ht ht'
    refine ⟨by rw [hop, hdl, (hi.sound ho tr ht).deadline], fun tr0 ht0 => ?_⟩
    obtain rfl := Option.some.inj (ht.symm.trans ht0)
    exact ⟨hop, hdl, step.timeoutMs_eq⟩
  | accepted i p ready wellFormed point first =>
    obtain rfl := Option.some.inj ht'
    exact ⟨rfl, fun tr ht => by simp [hi.transient_eq_none ho ready.2] at ht⟩
  | returned | returnedReserved | wasReset => cases ht'
  | unmoved | reentrant | arrived | foreignTook | foreignWrote => exact unchanged ht' rfl

/-! ### Results -/

/-- Settles O42: of the two returns of SEND_FRAME, the one of success needs a positive count within the buffer. -/
theorem emptyBufferNeverSucceeds : Obligations.EmptyBufferNeverSucceeds := by
  intro s s' tr dl hi ho hr hop h hturn hb'
  obtain ⟨rest, m, hs⟩ := step_untouched h ho
  obtain ⟨hf, hb, ht⟩ := hr
  cases hs with
  | advanced tr' _ turn running step =>
    obtain rfl := Option.some.inj (ht.symm.trans running.2.2)
    cases step
    case writeTimeout => rfl
    case sent buf dl' op at_ =>
      obtain ⟨_, _, op', hpos, hle⟩ := (hi.sound ho tr ht).sent at_
      obtain ⟨rfl, -⟩ := Instr.sendFrame.inj (hop.symm.trans op')
      exact absurd hpos (Nat.not_lt.2 hle)
    case found | received | readTimeout => simp [hop] at *
    all_goals exact absurd hb' (by simp [hb])
  | accepted i p ready => exact absurd ready.2 (by simp [hb])
  | returned r i s1 record turn reads ready => exact absurd ready.2 (by simp [hb])
  | returnedReserved op record ready => exact absurd ready.2 (by simp [hb])
  | wasReset turn => exact absurd turn hturn
  | unmoved | reentrant | arrived | foreignTook | foreignWrote => exact absurd hb' (by simp [hb])

/-- What a result record promises about heads, given the stream it leaves (R165, R166). -/
structure HeadDelivered (r : ResultRecord) (rxq : List Byte) : Prop where
  frame : ∀ f, r.outputs = .received f → r.status = .ok ∧ f.length = 10 ∧ f.head? = some 0xAA
  found : r.outputs = .found true → rxq.head? = some 0xAA

/-- A point of a sound operation that returns keeps what it promises about heads. -/
theorem BlockStep.headDelivered (h : BlockStep tr u s') (hu : u.result = none) (hs : tr.Sound)
    (hx : StreamAt tr.phase u.rxq) (hr : s'.result = some r) : HeadDelivered r s'.rxq := by
  cases h
  case sent | writeTimeout | readTimeout => obtain rfl := Option.some.inj hr; exact ⟨by simp, by simp⟩
  case found b op at_ =>
    obtain rfl := Option.some.inj hr
    refine ⟨by simp, fun hb => ?_⟩
    obtain rfl : b = true := by simpa using hb
    exact (at_ ▸ hx : StreamAt (.retFound true) u.rxq)
  case received dl op at_ =>
    obtain rfl := Option.some.inj hr
    refine ⟨fun f hf => ?_, by simp⟩
    obtain rfl : tr.buf = f := by simpa using hf
    exact ⟨rfl, hs.frame at_⟩
  all_goals exact absurd hr (by simp [hu])

/-- An operation that a ready block returns from at once delivers neither a frame nor a head. -/
theorem exec_ready_headDelivered (hs : s.Ready) (hn : s.result = none) (h : exec i s = .next s')
    (hr : s'.result = some r) : HeadDelivered r s'.rxq := by
  obtain ⟨hc, -⟩ | ⟨-, hc, -⟩ | ⟨_, ⟨-, hc, -⟩, -⟩ | ⟨-, -, -, p, rfl, -⟩ | ⟨-, -, -, s1, r', rfl, -, -, hframe, hfound⟩ :=
    exec_next h
  · exact absurd hs.1 hc
  · exact absurd hc (by simp [hs.2])
  · exact absurd hc (by simp [hs.2])
  · exact absurd hr (by simp [hn])
  · obtain rfl := Option.some.inj hr
    exact ⟨fun f hf => absurd hf (hframe f), fun hb => absurd hb (hfound true)⟩

/-- Every result that a step shows, in a run that no foreign agent has touched. -/
theorem step_headDelivered (hi : s.Inv) (h : step s = .next s') (ho : s.ownershipBroken = false)
    (hr : s'.result = some r) : HeadDelivered r s'.rxq := by
  obtain ⟨rest, m, h⟩ := step_next_untouched h ho
  obtain ⟨-, rfl⟩ | ⟨-, -, rfl⟩ | ⟨-, tr, hrun, he⟩ | ⟨_, -, -, -, rfl⟩ | ⟨q, i, -, hready, -, he⟩ |
    ⟨q, op, -, -, -, rfl⟩ | ⟨_, -, rfl⟩ | ⟨-, rfl⟩ | ⟨_, -, rfl⟩ | ⟨_, -, rfl⟩ := h
  case inr.inr.inl =>
    obtain ⟨hf, hb, ht⟩ := hrun
    have hs := hi.sound ho tr ht
    exact (hs.blockStep (s := s.atTurn rest m) ⟨hf, hb, ht⟩ he).headDelivered rfl hs (hi.stream ho tr ht hf) hr
  case inr.inr.inr.inr.inl => exact exec_ready_headDelivered (s := s.atTurn rest m) hready rfl he hr
  case inr.inr.inr.inr.inr.inl => obtain rfl := Option.some.inj hr; exact ⟨by simp, by simp⟩
  all_goals cases hr

/-- Settles O51: a step that shows a frame or a found head is the return of a sound operation over the stream of that point. -/
theorem deliveredHeads : Obligations.DeliveredHeads := by
  intro s s' hi ho h
  exact ⟨fun status f hr => (step_headDelivered hi h ho hr).frame f rfl,
    fun hr => (step_headDelivered hi h ho hr).found rfl⟩

end Sys2Proof.Machine
end

section
/-! A request while BUSY is 1 (60_exceptions.md R202, R207 (b)). -/

namespace Sys2Proof.Machine

variable {s : State} {r : Request}

/-- Whatever a request would run, a busy block raises ReentrantIssue and changes nothing else. -/
theorem serve_busy {run : State → Outcome} (hf : s.faultMark = none) (hb : s.busy = true) :
    s.serve run = .next { s with faultMark := some .reentrantIssue } := by
  simp [State.serve, State.faulted, State.raise, hf, hb]

/-- A busy block raises ReentrantIssue at every request that the interface lets pass. -/
theorem offer_busy (hf : s.faultMark = none) (hb : s.busy = true) (hd : ∀ why, decode r ≠ .rejected why) :
    offer r s = .next { s with faultMark := some .reentrantIssue } := by
  unfold offer
  cases hr : decode r with
  | rejected why => exact absurd hr (hd why)
  | reserved op => exact serve_busy hf hb
  | instr i => exact serve_busy hf hb

/-- Settles O13: BUSY is looked at before anything of a request that is not refused. -/
theorem reentrantRequestFaults : Obligations.ReentrantRequestFaults := by
  intro s r hf hb hd
  exact (step_withTurn (.issue r) s).trans (offer_busy (s := s.dropResult) hf hb hd)

end Sys2Proof.Machine
end

section
/-! Every point of a sound operation, and so every turn, has a next state (20_memory.md R60, 60_exceptions.md R200). -/

namespace Sys2Proof.Machine

variable {s : State} {tr : Transient} {i : Instr} {buf : List Byte} {dl : Word}

/-! ### Points of the pseudocode -/

theorem advanceWrite_answers (buf : List Byte) (tr : Transient) (s : State) : ∃ s', advanceWrite buf tr s = .next s' := by
  obtain ⟨k, ks, m, -, h⟩ | ⟨k, ks, m, bytes, -, -, h⟩ := advanceWrite_cases buf tr s
  · exact ⟨_, h⟩
  · exact ⟨_, h⟩

theorem advanceClock_answers (retry expired : Phase) (hd : tr.dl = some dl) :
    ∃ s', advanceClock retry expired tr s = .next s' :=
  ⟨_, by simp only [advanceClock, hd]; rfl⟩

theorem advanceSeekPeek_answers (atEnd : Bool → Phase) (tr : Transient) (s : State) :
    ∃ s', advanceSeekPeek atEnd tr s = .next s' := by
  cases hx : s.rxq with
  | nil => exact (advanceSeekPeek_nil atEnd hx).elim fun _ h => ⟨_, h⟩
  | cons b rest => exact ⟨_, advanceSeekPeek_cons atEnd hx⟩

theorem advanceSeekDrop_answers (tr : Transient) (s : State) : ∃ s', advanceSeekDrop tr s = .next s' := by
  cases hx : s.rxq with
  | nil => exact (advanceSeekDrop_nil hx).elim fun _ h => ⟨_, h⟩
  | cons b rest => exact ⟨_, advanceSeekDrop_cons hx⟩

theorem advanceTake_answers (tr : Transient) (s : State) : ∃ s', advanceTake tr s = .next s' := by
  obtain ⟨hfull, hten⟩ | hshort := primReadExactly_condition 10 s
  · exact ⟨_, advanceTake_kept tr hfull hten⟩
  · obtain ⟨bytes, rxq, m, h⟩ := advanceTake_broken tr hshort
    exact ⟨_, h⟩

/-! ### The operations -/

theorem advanceSendFrame_answers (hs : tr.Sound) (ho : tr.op = .sendFrame buf dl) :
    ∃ s', advanceSendFrame buf tr s = .next s' := by
  have hpoint := hs.point
  unfold advanceSendFrame
  cases hp : tr.phase with
  | write => exact advanceWrite_answers buf tr s
  | clock => exact advanceClock_answers _ _ (hs.deadline.trans (congrArg deadlineOf ho))
  | yield | retSent | retWriteTimeout => exact ⟨_, rfl⟩
  | seekAvail | seekPeek | seekDrop | countAvail | take | retFound | retFrame | retReadTimeout =>
    rw [ho, hp] at hpoint; cases hpoint

theorem advanceSeekFrameStart_answers (hs : tr.Sound) (ho : tr.op = .seekFrameStart) :
    ∃ s', advanceSeekFrameStart tr s = .next s' := by
  have hpoint := hs.point
  unfold advanceSeekFrameStart
  cases hp : tr.phase with
  | seekPeek => exact advanceSeekPeek_answers _ tr s
  | seekDrop => exact advanceSeekDrop_answers tr s
  | seekAvail | retFound => exact ⟨_, rfl⟩
  | write | yield | clock | countAvail | take | retSent | retWriteTimeout | retFrame | retReadTimeout =>
    rw [ho, hp] at hpoint; cases hpoint

theorem advanceReceiveFrame_answers (hs : tr.Sound) (ho : tr.op = .receiveFrame dl) :
    ∃ s', advanceReceiveFrame tr s = .next s' := by
  have hpoint := hs.point
  unfold advanceReceiveFrame
  cases hp : tr.phase with
  | seekPeek => exact advanceSeekPeek_answers _ tr s
  | seekDrop => exact advanceSeekDrop_answers tr s
  | take => exact advanceTake_answers tr s
  | clock => exact advanceClock_answers _ _ (hs.deadline.trans (congrArg deadlineOf ho))
  | seekAvail | countAvail | yield | retFrame | retReadTimeout => exact ⟨_, rfl⟩
  | write | retSent | retWriteTimeout | retFound => rw [ho, hp] at hpoint; cases hpoint

/-- A sound operation in progress does not stop: its point is one of its own pseudocode, with the deadline it needs. -/
theorem Transient.Sound.exec_answers (hs : tr.Sound) (hr : s.Running tr) : ∃ s', exec tr.op s = .next s' := by
  rw [exec_running hr hs.wellFormed]
  cases ho : tr.op with
  | sendFrame buf dl => exact advanceSendFrame_answers hs ho
  | seekFrameStart => exact advanceSeekFrameStart_answers hs ho
  | receiveFrame dl => exact advanceReceiveFrame_answers hs ho
  | setTimeout | getTimeout | mkDeadline | csum | buildCommand | decodeCommand | validateChecksum | checkFrame
  | decodeResponse => exact ⟨_, rfl⟩

/-! ### Turns -/

/-- The invariant reads neither the schedule, nor the draw counter, nor the result record. -/
theorem State.Inv.atTurn (hi : s.Inv) (rest : List Turn) (m : Nat) : (s.atTurn rest m).Inv :=
  ⟨hi.bracket, hi.sound, hi.stream⟩

/-- A block turn that has something to do finds a sound operation in progress, or a run that a foreign agent has touched. -/
theorem blockTurn_answers (hi : s.Inv) : ∃ s', blockTurn s = .next s' := by
  by_cases hidle : s.faultMark ≠ none ∨ s.busy = false
  · exact ⟨s, blockTurn_without_operation hidle⟩
  · obtain ⟨hf, hb⟩ : s.faultMark = none ∧ s.busy = true := by simpa using hidle
    cases ho : s.ownershipBroken with
    | true => exact ⟨_, by simp only [blockTurn, State.faulted, hf, hb, ho]; rfl⟩
    | false =>
      obtain ⟨tr, ht⟩ := Option.isSome_iff_exists.1 ((hi.bracket ho).symm.trans hb)
      have hr : s.Running tr := ⟨hf, hb, ht⟩
      exact (blockTurn_running hr ho).symm ▸ (hi.sound ho tr ht).exec_answers hr

/-- Settles O17: of all turns only a request can be refused, and only the malformed ones are. -/
theorem everyTurnProceeds : Obligations.EveryTurnProceeds := by
  intro s hi
  obtain ⟨rest, m, hstep⟩ := step_eq s
  rw [hstep]
  cases hturn : s.nextTurn.1 with
  | block => exact .inl (blockTurn_answers (hi.atTurn rest m))
  | issue r =>
    by_cases hd : ∃ why, decode r = .rejected why
    · exact .inr ⟨r, rfl, decode_rejected_iff_malformed.1 hd⟩
    · exact .inl (offer_answers (not_exists.1 hd))
  | arrive | reset | foreignRead | foreignWrite => exact .inl ⟨_, rfl⟩

end Sys2Proof.Machine
end

section
/-! Calls that break a contract of the transport (20_memory.md R56 to R59; 60_exceptions.md R205). -/

namespace Sys2Proof.Machine

variable {s : State} {tr : Transient} {i : Instr} {buf : List Byte} {dl : Word}

/-! ### Primitives -/

/-- The companion of `primWrite_cons` for a listed count above the buffer's length. -/
theorem primWrite_overrun {k : Nat} {ks : List Nat} (h : s.writeCounts = k :: ks) (hk : buf.length < k) :
    s.primWrite buf =
      (k, .broken { s.log (.write buf buf.length k) with
        writeCounts := ks, txlog := s.txlog ++ Config.breachAccepted s.draws, draws := s.draws + 1 }) := by
  simp only [State.primWrite, State.drawWriteCount, h, if_neg (Nat.not_le.2 hk)]; rfl

/-- The companion of `primReadExactly_broken` for a short delivery: the history holds as many bytes as are delivered. -/
theorem primReadExactly_short {n d : Nat} {ds : List Nat} (h : s.deliveries = d :: ds) (hd : d < n) :
    ∃ bytes, bytes.length = d ∧ s.primReadExactly n =
      .broken { s.log (.readExactly n bytes) with
        rxq := Config.breachRxq s.draws, deliveries := ds, draws := s.draws + 1 } := by
  have hn : ¬ (n ≤ d ∧ n ≤ s.rxq.length) := fun hc => Nat.not_le.2 hd hc.1
  refine ⟨(List.range d).map (Config.breachByte s.draws), by simp, ?_⟩
  simp only [State.primReadExactly, State.drawDelivery, h, if_neg hn, if_pos hd]; rfl

/-! ### Points of the pseudocode -/

/-- The write point of SEND_FRAME at a listed count above the buffer's length. -/
theorem advanceWrite_overrun {k : Nat} {ks : List Nat} (h : s.writeCounts = k :: ks) (hk : buf.length < k) :
    ∃ txlog, advanceWrite buf tr s =
      .next (({ s with
        writeCounts := ks, draws := s.draws + 1, txlog := txlog, history := s.history ++ [.write buf buf.length k],
        transient := some { tr with k := k, phase := .write } } : State).raise .transportContract) :=
  ⟨_, by simp only [advanceWrite, primWrite_overrun h hk]; rfl⟩

/-- The `ReadExactly` point of RECEIVE_FRAME at a listed delivery below ten bytes. -/
theorem advanceTake_short {d : Nat} {ds : List Nat} (h : s.deliveries = d :: ds) (hd : d < 10) :
    ∃ bytes rxq, bytes.length = d ∧ advanceTake tr s =
      .next (({ s with
        rxq := rxq, deliveries := ds, draws := s.draws + 1,
        history := s.history ++ [.readExactly 10 bytes] } : State).raise .transportContract) := by
  obtain ⟨bytes, hlen, hb⟩ := primReadExactly_short (n := Config.respLen) h hd
  exact ⟨bytes, _, hlen, by simp only [advanceTake, hb]; rfl⟩

theorem exec_receiveFrame_at_take (hr : s.Running tr) (ho : tr.op = .receiveFrame dl) (hp : tr.phase = .take) :
    exec tr.op s = advanceTake tr s := by
  rw [exec_receiveFrame hr ho, advanceReceiveFrame, hp]

/-- The second point of `seek_body`, in either operation that contains it. -/
theorem exec_at_seekPeek (hr : s.Running tr) (ho : tr.op = .receiveFrame dl ∨ tr.op = .seekFrameStart)
    (hp : tr.phase = .seekPeek) : ∃ atEnd, exec tr.op s = advanceSeekPeek atEnd tr s := by
  obtain ho | ho := ho
  · exact ⟨afterSeek, by rw [exec_receiveFrame hr ho, advanceReceiveFrame, hp]⟩
  · exact ⟨.retFound, by rw [ho, exec_seekFrameStart hr ho, advanceSeekFrameStart, hp]⟩

/-- The third point of `seek_body`, in either operation that contains it. -/
theorem exec_at_seekDrop (hr : s.Running tr) (ho : tr.op = .receiveFrame dl ∨ tr.op = .seekFrameStart)
    (hp : tr.phase = .seekDrop) : exec tr.op s = advanceSeekDrop tr s := by
  obtain ho | ho := ho
  · rw [exec_receiveFrame hr ho, advanceReceiveFrame, hp]
  · rw [ho, exec_seekFrameStart hr ho, advanceSeekFrameStart, hp]

/-- The first fault of a run is the one that its mark shows (10_state.md R30). -/
theorem State.raise_faultMark_of_safe (hf : s.faultMark = none) (reason : FaultReason) :
    (s.raise reason).faultMark = some reason := by
  rw [State.raise_faultMark, hf, Option.none_or]

/-- Settles O18: each breach is the broken answer of the call at that point. -/
theorem contractBreachesFault : Obligations.ContractBreachesFault := by
  intro s tr hr hwf
  refine ⟨fun buf dl k ks ho hp hw hk => ?_, fun dl d ds ho hp hd hlt => ?_, fun dl ho hp hx => ?_,
    fun dl ho hp hx => ?_, fun dl ho hp hx => ?_⟩
  · have hbuf : buf.length ≤ 255 := checkLen_eq_none_iff.1 (ho ▸ hwf : (Instr.sendFrame buf dl).check = none)
    obtain ⟨txlog, he⟩ := advanceWrite_overrun (tr := tr) hw hk
    exact ⟨_, (exec_sendFrame_write hr hp ho hbuf).trans he, State.raise_faultMark_of_safe hr.1 _, rfl, rfl⟩
  · obtain ⟨bytes, rxq, hlen, he⟩ := advanceTake_short (tr := tr) hd hlt
    exact ⟨_, bytes, (exec_receiveFrame_at_take hr ho hp).trans he, State.raise_faultMark_of_safe hr.1 _, rfl, rfl, hlen⟩
  · obtain ⟨bytes, rxq, m, he⟩ := advanceTake_broken tr (.inl hx)
    exact ⟨_, (exec_receiveFrame_at_take hr ho hp).trans he, State.raise_faultMark_of_safe hr.1 _, rfl⟩
  · obtain ⟨atEnd, hexec⟩ := exec_at_seekPeek hr ho hp
    obtain ⟨b, he⟩ := advanceSeekPeek_nil atEnd hx
    exact ⟨_, b, hexec.trans he, State.raise_faultMark_of_safe hr.1 _, rfl⟩
  · obtain ⟨b, he⟩ := advanceSeekDrop_nil hx
    exact ⟨_, b, (exec_at_seekDrop hr ho hp).trans he, State.raise_faultMark_of_safe hr.1 _, rfl⟩

end Sys2Proof.Machine
end

section
/-! What can raise a fault in a run that no foreign agent has touched (60_exceptions.md R202, R205). -/

namespace Sys2Proof.Machine

variable {s s' : State} {tr : Transient} {i : Instr}

/-! ### The breaches, by point -/

theorem breachAt_write_iff (hp : tr.phase = .write) :
    BreachAt tr s ↔ ∃ buf dl k ks, tr.op = .sendFrame buf dl ∧ s.writeCounts = k :: ks ∧ buf.length < k := by
  rw [BreachAt, hp]

theorem breachAt_seek_iff (hp : tr.phase = .seekPeek ∨ tr.phase = .seekDrop) : BreachAt tr s ↔ s.rxq = [] := by
  obtain hp | hp := hp <;> rw [BreachAt, hp]

theorem breachAt_take_iff (hp : tr.phase = .take) :
    BreachAt tr s ↔ s.rxq.length < 10 ∨ ∃ d ds, s.deliveries = d :: ds ∧ d < 10 := by
  rw [BreachAt, hp]

/-- A block step raises no fault but TransportContract, and that only where its call breaks a contract. -/
theorem BlockStep.faultMark (h : BlockStep tr s s') (hf : s.faultMark = none) :
    s'.faultMark = none ∨ (s'.faultMark = some .transportContract ∧ BreachAt tr s) := by
  cases h
  case overwrote buf dl k ks m bytes op at_ gt listed =>
    exact .inr ⟨by simp [hf], (breachAt_write_iff at_).2 ⟨buf, dl, k, ks, op, listed, gt⟩⟩
  case peekedNothing b at_ empty op => exact .inr ⟨by simp [hf], (breachAt_seek_iff (.inl at_)).2 empty⟩
  case droppedNothing b at_ empty op => exact .inr ⟨by simp [hf], (breachAt_seek_iff (.inr at_)).2 empty⟩
  case tookShort dl bytes rxq m op at_ breach => exact .inr ⟨by simp [hf], (breachAt_take_iff at_).2 breach⟩
  all_goals exact .inl hf

/-- A block that is ready for an operation takes it up without a fault. -/
theorem exec_ready_safe (hr : s.Ready) (h : exec i s = .next s') : s'.faultMark = none := by
  obtain ⟨-, p, rfl, -⟩ | ⟨s1, r, hbody, rfl⟩ := exec_of_ready hr h
  · exact hr.1
  · cases hbody <;> exact hr.1

/-- Settles O16: of all turns only a request to a busy block and the call of an operation in progress can set the mark. -/
theorem faultCauses : Obligations.FaultCauses := by
  intro s s' reason hi hf ho h hr
  have unraised {p : Prop} (hs : s'.faultMark = none) : p := by simp [hr] at hs
  obtain ⟨rest, m, h⟩ := step_next_untouched h ho
  obtain ⟨-, rfl⟩ | ⟨-, -, rfl⟩ | ⟨hturn, tr, hrun, he⟩ | ⟨r, hturn, -, hb, rfl⟩ | ⟨_, i, -, hready, -, he⟩ |
    ⟨_, _, -, -, -, rfl⟩ | ⟨_, -, rfl⟩ | ⟨-, rfl⟩ | ⟨_, -, rfl⟩ | ⟨_, -, rfl⟩ := h
  case inr.inr.inl =>
    obtain ⟨-, hb, ht⟩ := hrun
    have hstep := (hi.sound ho tr ht).blockStep (s := s.atTurn rest m) ⟨hf, hb, ht⟩ he
    obtain hs | ⟨hs, hbreach⟩ := hstep.faultMark hf
    · exact unraised hs
    · exact .inr ⟨Option.some.inj (hr.symm.trans hs), hb, hturn, tr, ht, hbreach⟩
  case inr.inr.inr.inl =>
    have hs := State.raise_faultMark_of_safe (s := s.atTurn rest m) hf .reentrantIssue
    exact .inl ⟨Option.some.inj (hr.symm.trans hs), hb, r, hturn⟩
  case inr.inr.inr.inr.inl => exact unraised (exec_ready_safe (s := s.atTurn rest m) hready he)
  case inr.inr.inr.inr.inr.inr.inr.inl => exact unraised rfl
  all_goals exact unraised hf

/-- The stream that the invariant promises, a full delivery and a count within the buffer leave no breach (20_memory.md R56 to
R59). -/
theorem not_breachAt (hx : StreamAt tr.phase s.rxq) (hd : ∀ d ∈ s.deliveries.head?, 10 ≤ d)
    (hw : ∀ k ks buf dl, s.writeCounts = k :: ks → tr.op = .sendFrame buf dl → k ≤ buf.length) : ¬ BreachAt tr s := by
  intro h
  cases hp : tr.phase with
  | write =>
    obtain ⟨buf, dl, k, ks, op, listed, gt⟩ := (breachAt_write_iff hp).1 h
    exact Nat.not_lt.2 (hw k ks buf dl listed op) gt
  | seekPeek => rw [hp] at hx; exact hx ((breachAt_seek_iff (.inl hp)).1 h)
  | seekDrop =>
    rw [hp] at hx
    obtain ⟨b, rest, front, -⟩ := hx
    simp [(breachAt_seek_iff (.inr hp)).1 h] at front
  | take =>
    rw [hp] at hx
    obtain short | ⟨d, ds, listed, lt⟩ := (breachAt_take_iff hp).1 h
    · exact Nat.not_lt.2 hx.2 short
    · exact Nat.not_lt.2 (hd d (by simp [listed])) lt
  | yield | clock | seekAvail | countAvail | retSent | retWriteTimeout | retFound | retFrame | retReadTimeout =>
    rw [BreachAt, hp] at h; exact h

/-- Settles O19: TransportContract needs a breach, and the premises leave none. -/
theorem conformingEnvironmentNeverBreaksContract : Obligations.ConformingEnvironmentNeverBreaksContract := by
  intro s s' hi hf ho hd hw h hr
  obtain ⟨hc, -⟩ | ⟨-, -, -, tr, ht, hbreach⟩ := faultCauses s s' .transportContract hi hf ho h hr
  · cases hc
  · exact not_breachAt (hi.stream ho tr ht hf) hd (fun k ks buf dl listed => hw k ks tr buf dl listed ht) hbreach

end Sys2Proof.Machine
end

section
/-! The clock (60_exceptions.md R211). -/

namespace Sys2Proof.Machine

variable {s s' : State} {tr : Transient} {i : Instr}

/-! ### What a step does to the clock -/

/-- CLOCK_WRAP is kept, and the clock stands or has been read once. -/
structure ClockStep (s s' : State) : Prop where
  wrap : s'.clockWrap = s.clockWrap
  clock : s'.clock = s.clock ∨ ∃ delta, s'.clock = clockAfter s.clockWrap s.clock delta

theorem ClockStep.clock_le (h : ClockStep s s') (hw : s.clockWrap = .forbidden) : s.clock.toNat ≤ s'.clock.toNat := by
  obtain hc | ⟨delta, hc⟩ := h.clock
  · rw [hc]
  · rw [hc, hw]; exact clockAfter_forbidden_le _ _

/-- Of the points of a blocking operation only the clock point reads the clock (R163). -/
theorem BlockStep.clockStep (h : BlockStep tr s s') : ClockStep s s' := by
  refine ⟨h.clockWrap_eq, ?_⟩
  cases h
  case clocked dl delta ds m retry expired at_ deadline op => exact .inr ⟨delta, rfl⟩
  all_goals exact .inl rfl

/-- Of the operations of one step only MK_DEADLINE reads the clock (R162). -/
theorem BodyStep.clockStep (h : BodyStep i s s') : ClockStep s s' := by
  cases h with
  | readClock t delta ds m op => exact ⟨rfl, .inr ⟨delta, rfl⟩⟩
  | pure | wroteRegister => exact ⟨rfl, .inl rfl⟩

/-- Every step of a run that no foreign agent has touched reads the clock at most once. -/
theorem UntouchedStep.clockStep {rest : List Turn} {m : Nat} (h : UntouchedStep s (s.atTurn rest m) s') :
    ClockStep s s' := by
  cases h with
  | advanced tr _ turn running step => exact ⟨step.clockStep.wrap, step.clockStep.clock⟩
  | returned r i s1 record turn reads ready body => exact ⟨body.clockStep.wrap, body.clockStep.clock⟩
  | unmoved | reentrant | accepted | returnedReserved | arrived | wasReset | foreignTook | foreignWrote =>
    exact ⟨rfl, .inl rfl⟩

/-- CLOCK_WRAP is a parameter of the run, also after a foreign access (log 11, log 16). -/
theorem step_touched_clockWrap (h : step s = .next s') (ho : s.ownershipBroken = true) : s'.clockWrap = s.clockWrap := by
  obtain ⟨rest, m, h⟩ := step_next h
  obtain ⟨-, rfl⟩ | ⟨-, -, rfl⟩ | ⟨-, _, -, hc, -⟩ | ⟨_, -, -, -, rfl⟩ | ⟨_, _, -, -, -, hc, -⟩ | ⟨_, _, -, -, -, hc, -⟩ |
    ⟨_, -, rfl⟩ | ⟨-, rfl⟩ | ⟨_, -, rfl⟩ | ⟨_, -, rfl⟩ | ⟨-, -, rfl | ⟨tr, -, hr, he, -⟩⟩ := h
  case inr.inr.inl | inr.inr.inr.inr.inl | inr.inr.inr.inr.inr.inl => simp [ho] at hc
  case inr.inr.inr.inr.inr.inr.inr.inr.inr.inr.inr =>
    obtain rfl | hs := exec_of_running (s := s.atTurn rest m) hr he
    · rfl
    · exact hs.clockWrap_eq
  all_goals rfl

/-- Settles O25: without a foreign agent the clock stands or is read, and a read under `forbidden` does not go back. -/
theorem clockNeverGoesBackward : Obligations.ClockNeverGoesBackward := by
  intro s s' h
  cases ho : s.ownershipBroken with
  | true => exact ⟨step_touched_clockWrap h ho, Bool.noConfusion⟩
  | false =>
    obtain ⟨rest, m, hs⟩ := step_untouched h ho
    exact ⟨hs.clockStep.wrap, fun _ => hs.clockStep.clock_le⟩

/-! ### The value of a read -/

theorem clockValue_clockAfter (wrap : ClockWrap) (prev : Word) (d : Nat) :
    ClockValue wrap prev d (clockAfter wrap prev d) := by
  refine ⟨?_, ?_, ?_⟩ <;> rintro rfl
  · simp [clockAfter]
  · intro hlt
    simp only [clockAfter, BitVec.toNat_ofNat]
    omega
  · intro hge
    simp only [clockAfter, BitVec.toNat_ofNat]
    omega

/-- Only SEND_FRAME and RECEIVE_FRAME have a clock point (R163). -/
theorem op_of_clock (h : pointOf i .clock = true) : (∃ buf dl, i = .sendFrame buf dl) ∨ ∃ dl, i = .receiveFrame dl := by
  cases i with
  | sendFrame buf dl => exact .inl ⟨buf, dl, rfl⟩
  | receiveFrame dl => exact .inr ⟨dl, rfl⟩
  | seekFrameStart | setTimeout | getTimeout | mkDeadline | csum | buildCommand | decodeCommand | validateChecksum
  | checkFrame | decodeResponse => cases h

/-- The clock point of a sound operation that draws a listed advance. -/
theorem Transient.Sound.exec_clock_cons {d : Nat} {ds : List Nat} (hs : tr.Sound) (hr : s.Running tr)
    (hp : tr.phase = .clock) (hc : s.clockSteps = d :: ds) :
    ∃ p, exec tr.op s =
      .next { s with
        clockSteps := ds, clock := clockAfter s.clockWrap s.clock d,
        history := s.history ++ [.now (clockAfter s.clockWrap s.clock d)],
        transient := some { tr with phase := p } } := by
  obtain ⟨buf, dl, ho⟩ | ⟨dl, ho⟩ := op_of_clock (hp ▸ hs.point)
  all_goals have hd : tr.dl = some dl := hs.deadline.trans (congrArg deadlineOf ho)
  · have hbuf : buf.length ≤ 255 := checkLen_eq_none_iff.1 (ho ▸ hs.wellFormed : (Instr.sendFrame buf dl).check = none)
    exact ⟨_, (exec_sendFrame_clock hr hp ho hbuf).trans (advanceClock_cons _ _ hd hc)⟩
  · exact ⟨_, (exec_receiveFrame_clock hr hp ho).trans (advanceClock_cons _ _ hd hc)⟩

/-- Settles O26: each of the three reads is `clockAfter` of the listed draw. -/
theorem clockReadAddsDraw : Obligations.ClockReadAddsDraw := by
  refine ⟨clockValue_clockAfter, fun s t d ds hr hc => ?_, fun s tr d ds hr hs hp hc => ?_⟩
  · obtain ⟨delta, rest, n, listed, he⟩ := mkDeadlineAddsTimeout t s hr
    obtain ⟨rfl, rfl, rfl⟩ := listed d ds hc
    exact ⟨_, _, he, clockValue_clockAfter _ _ _, rfl, List.append_assoc _ _ _⟩
  · obtain ⟨p, he⟩ := hs.exec_clock_cons hr hp hc
    exact ⟨_, he, clockValue_clockAfter _ _ _, rfl, rfl⟩

end Sys2Proof.Machine
end

section
/-! Block reset (70_reset_and_hazards.md R240, R241). -/

namespace Sys2Proof.Machine

variable {s : State} {r : Request}

/-- R240: "After reset it is idle and accepts any request". -/
theorem blockReset_ready (s : State) : s.blockReset.Ready := ⟨rfl, rfl⟩

/-- A request with a reserved OP runs as `execReserved` on a block that is ready. -/
theorem offer_ready_reserved {op : Byte} (hd : decode r = .reserved op) (h : s.Ready) (ho : s.ownershipBroken = false) :
    offer r s = execReserved op s := by
  simp only [offer, hd, serve_ready h ho]

/-- Settles O1: the state after the turn is `State.blockReset`, which is ready and shows no result, so that a request finds it
as it is. -/
theorem blockResetValues : Obligations.BlockResetValues := by
  intro s
  have ready := blockReset_ready s.dropResult
  refine ⟨s.dropResult.blockReset, step_withTurn .reset s, rfl, rfl, rfl, rfl, rfl, rfl, rfl, rfl, rfl, fun r i hd => ?_,
    fun r op hd => ?_⟩
  · exact stepRunsDecodedRequest _ r i ready rfl hd
  · exact (step_withTurn (.issue r) _).trans (offer_ready_reserved hd ready rfl)

/-- Settles O2: the reset state is idle, with no operation in progress. -/
theorem resetMeetsInvariant : Obligations.ResetMeetsInvariant :=
  ⟨.of_idle rfl rfl, ⟨rfl, rfl⟩, rfl, rfl, rfl, rfl⟩

end Sys2Proof.Machine
end

section
/-! The run after a foreign agent touched the transport (70_reset_and_hazards.md R244; 93_implementation_defined.md I5). -/

namespace Sys2Proof.Machine

variable {s : State} {tr : Transient} {i : Instr} {r : Request}

/-! ### Accesses -/

theorem markForeign_of_busy (hb : s.busy = true) : s.markForeign = { s with ownershipBroken := true } := by
  simp [State.markForeign, hb]

/-! ### Block turns -/

/-- The operations that contain `seek_body` (41_transport.md R165, R166). -/
theorem op_of_seek {p : Phase} (hp : p = .seekPeek ∨ p = .seekDrop) (h : pointOf i p = true) :
    ∃ dl, i = .receiveFrame dl ∨ i = .seekFrameStart := by
  cases i with
  | receiveFrame dl => exact ⟨dl, .inl rfl⟩
  | seekFrameStart => exact ⟨0, .inr rfl⟩
  | sendFrame | setTimeout | getTimeout | mkDeadline | csum | buildCommand | decodeCommand | validateChecksum
  | checkFrame | decodeResponse => obtain rfl | rfl := hp <;> cases h

/-- Only RECEIVE_FRAME takes ten bytes at once (R166). -/
theorem op_of_take (h : pointOf i .take = true) : ∃ dl, i = .receiveFrame dl := by
  cases i with
  | receiveFrame dl => exact ⟨dl, rfl⟩
  | seekFrameStart | sendFrame | setTimeout | getTimeout | mkDeadline | csum | buildCommand | decodeCommand
  | validateChecksum | checkFrame | decodeResponse => cases h

/-- The call of a sound operation raises TransportContract wherever it breaks a contract (60_exceptions.md R205). -/
theorem Transient.Sound.exec_breach (hs : tr.Sound) (hr : s.Running tr) (h : BreachAt tr s) :
    ∃ t, exec tr.op s = .next t ∧ t.faultMark = some .transportContract := by
  obtain ⟨write, short, few, peek, drop⟩ := contractBreachesFault s tr hr hs.wellFormed
  have hpoint := hs.point
  cases hp : tr.phase with
  | write =>
    obtain ⟨buf, dl, k, ks, op, listed, gt⟩ := (breachAt_write_iff hp).1 h
    obtain ⟨t, he, hf, -⟩ := write buf dl k ks op hp listed gt
    exact ⟨t, he, hf⟩
  | seekPeek =>
    obtain ⟨dl, op⟩ := op_of_seek (.inl hp) hpoint
    obtain ⟨t, -, he, hf, -⟩ := peek dl op hp ((breachAt_seek_iff (.inl hp)).1 h)
    exact ⟨t, he, hf⟩
  | seekDrop =>
    obtain ⟨dl, op⟩ := op_of_seek (.inr hp) hpoint
    obtain ⟨t, -, he, hf, -⟩ := drop dl op hp ((breachAt_seek_iff (.inr hp)).1 h)
    exact ⟨t, he, hf⟩
  | take =>
    obtain ⟨dl, op⟩ := op_of_take (hp ▸ hpoint)
    obtain hx | ⟨d, ds, listed, lt⟩ := (breachAt_take_iff hp).1 h
    · obtain ⟨t, he, hf, -⟩ := few dl op hp hx
      exact ⟨t, he, hf⟩
    · obtain ⟨t, -, he, hf, -⟩ := short dl d ds op hp listed lt
      exact ⟨t, he, hf⟩
  | yield | clock | seekAvail | countAvail | retSent | retWriteTimeout | retFound | retFrame | retReadTimeout =>
    rw [BreachAt, hp] at h; exact h.elim

/-- Where the next call keeps its contract the block observes no breach. -/
theorem Transient.Sound.observeBreach_eq_none (hs : tr.Sound) (hr : s.Running tr) (h : ¬ BreachAt tr s) :
    observeBreach tr s = none := by
  refine Option.eq_none_iff_forall_ne_some.2 fun t hobs => ?_
  obtain ⟨he, hmark⟩ := observeBreach_eq_some.1 hobs
  obtain hsafe | ⟨-, hbreach⟩ := (hs.blockStep hr he).faultMark hr.1
  · simp [hmark] at hsafe
  · exact h hbreach

/-! ### Requests -/

/-- A request that is not refused leaves the free state on a block that is ready (I5; log 16). -/
theorem offer_touched (hr : s.Ready) (ho : s.ownershipBroken = true) (hd : ∀ why, decode r ≠ .rejected why) :
    offer r s = .next s.unconstrained := by
  have serve (run : State → Outcome) : s.serve run = .next s.unconstrained := by
    simp [State.serve, State.faulted, hr.1, hr.2, ho]
  unfold offer
  cases hc : decode r with
  | rejected why => exact absurd hc (hd why)
  | reserved op => exact serve _
  | instr i => exact serve _

/-- Settles O20: the block observes the breach of its next call, and there is one exactly where `BreachAt` says so. -/
theorem foreignAccessFaultsOrIsUnconstrained : Obligations.ForeignAccessFaultsOrIsUnconstrained := by
  refine ⟨fun s n hb => ?_, fun s bytes hb => ?_, fun s tr hr hs ho => ?_, fun s r hr ho hd => ?_⟩
  · rw [step_withTurn, takeTurn, markForeign_of_busy (s := s.dropResult) hb]; rfl
  · rw [step_withTurn, takeTurn, markForeign_of_busy (s := s.dropResult) hb]; rfl
  · have running : s.dropResult.Running tr := hr
    have turn := (step_withTurn .block s).trans (blockTurn_broken running ho)
    refine ⟨fun hbreach => ?_, fun hkept => ?_⟩
    · obtain ⟨t, he, hmark⟩ := hs.exec_breach running hbreach
      rw [observeBreach_eq_some.2 ⟨he, hmark⟩] at turn
      exact ⟨turn.trans he.symm, t, he, hmark⟩
    · rwa [hs.observeBreach_eq_none running hkept] at turn
  · exact (step_withTurn (.issue r) s).trans (offer_touched (s := s.dropResult) hr ho hd)

end Sys2Proof.Machine
end

section
/-! How a blocking operation moves between two clock reads, measured (41_transport.md R163 to R166). -/

namespace Sys2Proof.Machine

variable {s s' : State} {tr : Transient}

/-! ### Points -/

/-- How far a point is from the next clock read or return: each call outside `seek_body` comes nearer, and a return is at 0. -/
def Phase.rank : Phase → Nat
  | .seekAvail | .seekPeek | .seekDrop => 5
  | .countAvail => 4
  | .write | .take => 3
  | .yield => 2
  | .clock => 1
  | .retSent | .retWriteTimeout | .retFound _ | .retFrame | .retReadTimeout => 0

theorem Phase.rank_le (p : Phase) : p.rank ≤ 5 := by cases p <;> simp [Phase.rank]

theorem Phase.rank_eq_five_iff {p : Phase} : p.rank = 5 ↔ p = .seekAvail ∨ p = .seekPeek ∨ p = .seekDrop := by
  cases p <;> simp [Phase.rank]

/-- A bound on the calls that `seek_body` still makes on a stream of `n` bytes to which nothing arrives (R165). -/
def Phase.seekCalls (n : Nat) : Phase → Nat
  | .seekAvail => 3 * n + 2
  | .seekPeek => 3 * n + 1
  | .seekDrop => 3 * n
  | .write | .yield | .clock | .countAvail | .take | .retSent | .retWriteTimeout | .retFound _ | .retFrame
  | .retReadTimeout => 0

/-- The point of the operation in progress; of an idle block a return, which is at rank 0 as well. -/
def State.point (s : State) : Phase := s.transient.elim .retFrame (·.phase)

/-- The bound on the calls of `seek_body`, at the point and on the stream of this state. -/
def State.seekCalls (s : State) : Nat := s.point.seekCalls s.rxq.length

theorem State.point_of_transient (h : s.transient = some tr) : s.point = tr.phase := by simp [State.point, h]

theorem State.seeking_of_rank (h : s.point.rank = 5) : s.Seeking := by
  cases ht : s.transient with
  | none => simp [State.point, ht, Phase.rank] at h
  | some tr => exact ⟨tr, ht, Phase.rank_eq_five_iff.1 (s.point_of_transient ht ▸ h)⟩

theorem State.Seeking.rank (h : s.Seeking) : s.point.rank = 5 := by
  obtain ⟨tr, ht, hp⟩ := h
  exact s.point_of_transient ht ▸ Phase.rank_eq_five_iff.2 hp

/-! ### Block steps -/

/-- A block step from point `p` to point `q` as far as the end of an operation depends on it, with its event and the lengths
of the stream: a clock read, which expires every deadline if it is below none, a call of `seek_body`, or any other call. -/
inductive Moves (p : Phase) (n : Nat) (e : Event) (q : Phase) (n' : Nat) : Prop where
  | read (t) (event : e = .now t) (at_ : p = .clock) (expires : (∀ d : Word, d.toNat ≤ t.toNat) → q.rank = 0)
  | sought (event : ∀ t, e ≠ .now t) (at_ : p.rank = 5) (less : q.seekCalls n' < p.seekCalls n)
  | nearer (event : ∀ t, e ≠ .now t) (less : q.rank < p.rank)

/-- An operation has ended: it has returned its result record, or the fault mark is set (70_reset_and_hazards.md R253). -/
def State.Ended (s : State) : Prop := (s.busy = false ∧ ∃ r, s.result = some r) ∨ s.faultMark ≠ none

theorem State.ended_finish (s : State) (r : ResultRecord) : (s.finish r).Ended := .inl ⟨rfl, r, rfl⟩

theorem State.ended_raise (s : State) (reason : FaultReason) : (s.raise reason).Ended := .inr (by simp)

/-- A block step ends the operation, or makes one call and moves to another point. -/
theorem BlockStep.ends_or_moves (h : BlockStep tr s s') (hb : s.busy = true) :
    s'.Ended ∨ (s'.busy = true ∧ ∃ e, s'.history = s.history ++ [e] ∧
      Moves tr.phase s.rxq.length e s'.point s'.rxq.length) := by
  cases h
  case sent | writeTimeout | found | received | readTimeout => exact .inl (s.ended_finish _)
  case overwrote | peekedNothing | droppedNothing | tookShort => exact .inl (State.ended_raise _ _)
  case clocked dl delta ds m retry expired at_ deadline op =>
    refine .inr ⟨hb, _, rfl, .read _ rfl at_ fun late => ?_⟩
    obtain ⟨_, _, -, -, rfl⟩ | ⟨_, -, -, rfl⟩ := op <;>
      simp [State.point, Nat.not_lt.2 (late dl), Phase.rank]
  case wrote buf dl k ks m op at_ le =>
    refine .inr ⟨hb, _, rfl, .nearer (by simp) ?_⟩
    by_cases hk : 0 < k <;> simp [State.point, at_, hk, Phase.rank]
  case counted dl op at_ =>
    refine .inr ⟨hb, _, rfl, .nearer (by simp) ?_⟩
    by_cases hn : 10 ≤ s.rxq.length <;> simp [State.point, at_, hn, Phase.rank]
  case yielded at_ seek | took dl op at_ enough full =>
    exact .inr ⟨hb, _, rfl, .nearer (by simp) (by simp [State.point, at_, Phase.rank])⟩
  case dropped b rest at_ front op =>
    refine .inr ⟨hb, _, rfl, .sought (by simp) (by rw [at_]; rfl) ?_⟩
    simpa [State.point, at_, front, Phase.seekCalls] using (by omega : 3 * rest.length + 2 < 3 * (rest.length + 1))
  case soughtEmpty p at_ empty op | peekedHead rest p at_ front op =>
    refine .inr ⟨hb, _, rfl, .sought (by simp) (by rw [at_]; rfl) ?_⟩
    obtain ⟨-, rfl⟩ | ⟨_, -, rfl⟩ := op <;> simp [State.point, at_, Phase.seekCalls]
  case sought at_ some_ op | peekedOther b rest at_ front other op =>
    exact .inr ⟨hb, _, rfl, .sought (by simp) (by rw [at_]; rfl) (by simp [State.point, at_, Phase.seekCalls])⟩

end Sys2Proof.Machine
end

section
/-! One step of a run in which an operation goes on (70_reset_and_hazards.md R253). -/

namespace Sys2Proof.Machine

variable {s s' t : State}

/-- The operation in progress goes on through a step: bytes arrive, or the block makes a call. -/
inductive Continues (s s' : State) : Prop where
  | arrived (bytes) (turn : s.nextTurn.1 = .arrive bytes) (busy : s'.busy = true) (history : s'.history = s.history)
      (point : s'.point = s.point) (rxq : s'.rxq = s.rxq ++ bytes)
  | moved (e) (turn : s.nextTurn.1 = .block) (busy : s'.busy = true) (history : s'.history = s.history ++ [e])
      (moves : Moves s.point s.rxq.length e s'.point s'.rxq.length)

theorem Continues.busy (h : Continues s s') : s'.busy = true := by cases h <;> assumption

/-- Every step of a busy unfaulted block ends the operation or continues it, in a run without foreign agent and reset. -/
theorem step_ends_or_continues (h : step s = .next s') (ho : s.ownershipBroken = false) (hx : s.Exclusive)
    (hturn : s.nextTurn.1 ≠ .reset) (hf : s.faultMark = none) (hb : s.busy = true) : s'.Ended ∨ Continues s s' := by
  obtain ⟨rest, m, h⟩ := step_next_untouched h ho
  obtain ⟨hc, -⟩ | ⟨-, hc, -⟩ | ⟨turn, tr, hr, he⟩ | ⟨_, -, -, -, rfl⟩ | ⟨_, _, -, hr, -⟩ | ⟨_, _, -, hr, -⟩ |
    ⟨bytes, turn, rfl⟩ | ⟨hc, -⟩ | ⟨n, hc, -⟩ | ⟨bytes, hc, -⟩ := h
  · exact absurd hf hc
  · simp [hb] at hc
  · obtain rfl | hstep := exec_of_running (s := s.atTurn rest m) hr he
    · exact .inl (State.ended_raise _ _)
    · obtain ended | ⟨busy, e, history, moves⟩ := hstep.ends_or_moves hb
      · exact .inl ended
      · exact .inr (.moved e turn busy history (s.point_of_transient hr.2.2 ▸ moves))
  · exact .inl (State.ended_raise _ _)
  · exact absurd hr.2 (by simp [hb])
  · exact absurd hr.2 (by simp [hb])
  · exact .inr (.arrived bytes turn hb rfl rfl rfl)
  · exact absurd hc hturn
  · exact absurd hc (hx.1 n)
  · exact absurd hc (hx.2 bytes)

/-- A request that is presented and not refused ends in its step, or is in progress after it. -/
theorem step_issue_ends_or_busy {r : Request} (h : step s = .next s') (ho : s.ownershipBroken = false)
    (hturn : s.nextTurn.1 = .issue r) : s'.Ended ∨ s'.busy = true := by
  obtain ⟨rest, m, h⟩ := step_next_untouched h ho
  simp only [hturn, reduceCtorEq, false_and, exists_false, or_false, false_or] at h
  obtain ⟨hf, rfl⟩ | ⟨_, -, -, -, rfl⟩ | ⟨_, i, -, hr, -, he⟩ | ⟨_, _, -, -, -, rfl⟩ := h
  · exact .inl (.inr hf)
  · exact .inl (State.ended_raise _ _)
  · obtain ⟨-, p, rfl, -⟩ | ⟨s1, record, -, rfl⟩ := exec_of_ready (s := s.atTurn rest m) hr he
    · exact .inr rfl
    · exact .inl (s1.ended_finish record)
  · exact .inl (State.ended_finish _ _)

/-- Without a foreign access a run stays untouched. -/
theorem step_untouched_of_exclusive (h : step s = .next s') (ho : s.ownershipBroken = false) (hx : s.Exclusive) :
    s'.ownershipBroken = false := by
  obtain ⟨rest, m, hs⟩ := step_untouched h ho
  cases hs with
  | advanced tr _ turn running step => exact step.ownershipBroken_eq.trans ho
  | returned r i s1 record turn reads ready body => cases body <;> exact ho
  | wasReset => rfl
  | foreignTook n turn => exact absurd turn (hx.1 n)
  | foreignWrote bytes turn => exact absurd turn (hx.2 bytes)
  | unmoved | reentrant | accepted | returnedReserved | arrived => exact ho

/-! ### Inputs supplied after the step -/

/-- States that differ in the inputs of the run only agree on everything that does not read these. -/
theorem eq_of_withoutInputs_eq {α : Type} (f : State → α) (e : s'.withoutInputs = t.withoutInputs)
    (hf : ∀ s, f (State.withoutInputs s) = f s := by intro; rfl) : f s' = f t := by
  rw [← hf s', e, hf t]

theorem State.Ended.congr (h : t.Ended) (e : s'.withoutInputs = t.withoutInputs) : s'.Ended := by
  have hbusy : s'.busy = t.busy := eq_of_withoutInputs_eq State.busy e
  have hresult : s'.result = t.result := eq_of_withoutInputs_eq State.result e
  have hmark : s'.faultMark = t.faultMark := eq_of_withoutInputs_eq State.faultMark e
  rwa [State.Ended, hbusy, hresult, hmark]

theorem Continues.congr (h : Continues s t) (e : s'.withoutInputs = t.withoutInputs) : Continues s s' := by
  have hbusy : s'.busy = t.busy := eq_of_withoutInputs_eq State.busy e
  have hhistory : s'.history = t.history := eq_of_withoutInputs_eq State.history e
  have hpoint : s'.point = t.point := eq_of_withoutInputs_eq State.point e
  have hrxq : s'.rxq = t.rxq := eq_of_withoutInputs_eq State.rxq e
  cases h with
  | arrived bytes turn busy history point rxq =>
    exact .arrived bytes turn (hbusy.trans busy) (hhistory.trans history) (hpoint.trans point) (hrxq.trans rxq)
  | moved ev turn busy history moves =>
    exact .moved ev turn (hbusy.trans busy) (hhistory.trans history) (hpoint ▸ hrxq ▸ moves)

end Sys2Proof.Machine
end

section
/-! An operation does not go on for ever (70_reset_and_hazards.md R251, 41_transport.md R169). -/

namespace Sys2Proof.Machine

variable {σ : Nat → State} {N n : Nat}

/-- A number that no step makes larger stops changing. -/
theorem eventually_constant {f : Nat → Nat} (h : ∀ j, N ≤ j → f (j + 1) ≤ f j) :
    ∃ K, N ≤ K ∧ ∀ j, K ≤ j → f j = f K := by
  have antitone : Antitone fun i => f (N + i) := antitone_nat_of_succ_le fun i => h (N + i) (Nat.le_add_right N i)
  obtain ⟨k, hk⟩ := WellFoundedGT.monotone_chain_condition (α := Natᵒᵈ) ⟨fun i => OrderDual.toDual (f (N + i)), antitone⟩
  refine ⟨N + k, Nat.le_add_right N k, fun j hj => ?_⟩
  obtain ⟨i, rfl⟩ := Nat.exists_eq_add_of_le hj
  simpa [Nat.add_assoc] using (OrderDual.toDual.injective (hk (k + i) (Nat.le_add_right k i))).symm

/-- From turn `N` on the operation in progress goes on. -/
def Endless (σ : Nat → State) (N : Nat) : Prop := ∀ j, N ≤ j → Continues (σ j) (σ (j + 1))

/-- A number that no step from `N` on makes larger is left as it is by some block turn, and by every step after it (P3). -/
theorem exists_block_turn_constant {f : Nat → Nat} (yields : YieldsReturn σ) (h : ∀ j, N ≤ j → f (j + 1) ≤ f j) :
    ∃ j, N ≤ j ∧ (σ j).nextTurn.1 = .block ∧ f (j + 1) = f j ∧ ∀ i, j ≤ i → f i = f j := by
  obtain ⟨K, hNK, hK⟩ := eventually_constant h
  obtain ⟨j, hKj, turn⟩ := yields K
  exact ⟨j, by omega, turn, (hK _ (by omega)).trans (hK j hKj).symm, fun i hi => (hK i (by omega)).trans (hK j hKj).symm⟩

/-- A block turn of an operation that goes on is a call. -/
theorem Continues.moves {s s' : State} (h : Continues s s') (turn : s.nextTurn.1 = .block) :
    ∃ e, s'.history = s.history ++ [e] ∧ Moves s.point s.rxq.length e s'.point s'.rxq.length := by
  cases h with
  | arrived bytes turn' => simp [turn] at turn'
  | moved e turn busy history moves => exact ⟨e, history, moves⟩

/-- A call inside `seek_body` leaves fewer calls for it. -/
theorem Moves.seekCalls_lt {s s' : State} {e : Event}
    (h : Moves s.point s.rxq.length e s'.point s'.rxq.length) (before : s.Seeking) (after : s'.Seeking) :
    s'.seekCalls < s.seekCalls := by
  cases h with
  | read t event at_ => exact absurd before.rank (by simp [at_, Phase.rank])
  | sought event at_ less => exact less
  | nearer event less => exact absurd less (by simp [before.rank, after.rank])

/-- P2: `seek_body` ends, for with no byte arriving it makes finitely many calls. -/
theorem Endless.not_always_seeking (h : Endless σ N) (bursts : FiniteBursts σ) (yields : YieldsReturn σ) (hn : N ≤ n) :
    ¬ ∀ m, n ≤ m → (σ m).Seeking := by
  intro seeking
  obtain ⟨last, quiet⟩ := bursts n seeking
  have noMore (j : Nat) (hj : max n last ≤ j) : (σ (j + 1)).seekCalls ≤ (σ j).seekCalls := by
    cases h j (by omega) with
    | arrived bytes turn busy history point rxq =>
      obtain rfl := quiet j bytes (by omega) turn
      simp [State.seekCalls, point, rxq]
    | moved e turn busy history moves => exact (moves.seekCalls_lt (seeking j (by omega)) (seeking (j + 1) (by omega))).le
  obtain ⟨j, hj, turn, same, -⟩ := exists_block_turn_constant (f := fun j => (σ j).seekCalls) yields noMore
  obtain ⟨e, -, moves⟩ := (h j (by omega)).moves turn
  exact (moves.seekCalls_lt (seeking j (by omega)) (seeking (j + 1) (by omega))).ne same

/-- Outside `seek_body` every call comes nearer to a clock read or a return, so the clock is read again and again. -/
theorem Endless.reads_clock (h : Endless σ N) (bursts : FiniteBursts σ) (yields : YieldsReturn σ) (hn : N ≤ n) :
    ∃ m t, n ≤ m ∧ ReadsClock σ m t := by
  by_contra noRead
  have unread (j : Nat) (hj : n ≤ j) (t : Word) : ¬ ReadsClock σ j t := fun hr => noRead ⟨j, t, hj, hr⟩
  have notFarther (j : Nat) (hj : n ≤ j) : (σ (j + 1)).point.rank ≤ (σ j).point.rank := by
    cases h j (by omega) with
    | arrived bytes turn busy history point rxq => rw [point]
    | moved e turn busy history moves =>
      cases moves with
      | read t event at_ => exact absurd ⟨_, history, by simp [event]⟩ (unread j hj t)
      | sought event at_ less => exact at_ ▸ Phase.rank_le _
      | nearer event less => exact less.le
  obtain ⟨j, hj, turn, same, constant⟩ := exists_block_turn_constant (f := fun j => (σ j).point.rank) yields notFarther
  obtain ⟨e, history, moves⟩ := (h j (by omega)).moves turn
  cases moves with
  | read t event at_ => exact unread j hj t ⟨_, history, by simp [event]⟩
  | nearer event less => exact less.ne same
  | sought event at_ less =>
    exact h.not_always_seeking bursts yields (hn.trans hj) fun i hi => State.seeking_of_rank ((constant i hi).trans at_)

/-- After a clock read that is below no deadline the operation is at a return. -/
theorem Continues.rank_of_read {t : Word} (h : Continues (σ n) (σ (n + 1))) (hr : ReadsClock σ n t)
    (late : ∀ d : Word, d.toNat ≤ t.toNat) : (σ (n + 1)).point.rank = 0 := by
  obtain ⟨events, he, ht⟩ := hr
  cases h with
  | arrived bytes turn busy history =>
    obtain rfl : events = [] := by simpa [history] using he
    simp at ht
  | moved e turn busy history moves =>
    obtain rfl : events = [e] := List.append_cancel_left (he.symm.trans history)
    obtain rfl : .now t = e := List.mem_singleton.1 ht
    cases moves with
    | read t' event at_ expires =>
      obtain rfl := Event.now.inj event
      exact expires late
    | sought event => exact absurd rfl (event t)
    | nearer event => exact absurd rfl (event t)

/-- An operation at a return stays there until the block moves, and then it does not go on. -/
theorem Continues.stays_at_return {s s' : State} (h : Continues s s') (hp : s.point.rank = 0) :
    s'.point.rank = 0 ∧ s.nextTurn.1 ≠ .block := by
  cases h with
  | arrived bytes turn busy history point => exact ⟨point ▸ hp, by simp [turn]⟩
  | moved e turn busy history moves =>
    cases moves with
    | read t event at_ => simp [at_, Phase.rank] at hp
    | sought event at_ => simp [at_] at hp
    | nearer event less => omega

/-- P1 to P3 leave no endless operation: a read that is below no deadline brings the return, which the next block turn makes. -/
theorem not_endless (clock : ClockProgress σ) (bursts : FiniteBursts σ) (yields : YieldsReturn σ) : ¬ Endless σ N := by
  intro h
  have reads (n : Nat) : ∃ m t, n ≤ m ∧ ReadsClock σ m t := by
    obtain ⟨m, t, hm, hr⟩ := h.reads_clock bursts yields (le_max_left N n)
    exact ⟨m, t, by omega, hr⟩
  obtain ⟨m, t, hm, hr, late⟩ := clock reads (BitVec.allOnes 32) N
  have late (d : Word) : d.toNat ≤ t.toNat := by
    have := d.isLt
    simp only [BitVec.toNat_allOnes] at late
    omega
  have atReturn (j : Nat) (hj : m + 1 ≤ j) : (σ j).point.rank = 0 := by
    induction j, hj using Nat.le_induction with
    | base => exact (h m hm).rank_of_read hr late
    | succ j hj ih => exact ((h j (by omega)).stays_at_return ih).1
  obtain ⟨j, hj, turn⟩ := yields (m + 1)
  exact ((h j (by omega)).stays_at_return (atReturn j hj)).2 turn

end Sys2Proof.Machine
end

section
/-! Every operation ends, and so does the run of a host program (70_reset_and_hazards.md R251, R253). -/

namespace Sys2Proof.Machine

variable {σ : Nat → State} {n : Nat}

/-- An observation without foreign agent and without block reset. -/
structure UndisturbedRun (σ : Nat → State) : Prop where
  run : IsRun σ
  untouched : (σ 0).ownershipBroken = false
  exclusive : ∀ n, (σ n).Exclusive
  noReset : ∀ n, (σ n).nextTurn.1 ≠ .reset

theorem UndisturbedRun.ownershipBroken_eq (h : UndisturbedRun σ) : ∀ n, (σ n).ownershipBroken = false
  | 0 => h.untouched
  | n + 1 => by
    obtain ⟨t, hstep, inputs⟩ := h.run n
    exact (eq_of_withoutInputs_eq State.ownershipBroken inputs).trans
      (step_untouched_of_exclusive hstep (h.ownershipBroken_eq n) (h.exclusive n))

theorem UndisturbedRun.ends_or_continues (h : UndisturbedRun σ) (hf : (σ n).faultMark = none)
    (hb : (σ n).busy = true) : (σ (n + 1)).Ended ∨ Continues (σ n) (σ (n + 1)) := by
  obtain ⟨t, hstep, inputs⟩ := h.run n
  exact (step_ends_or_continues hstep (h.ownershipBroken_eq n) (h.exclusive n) (h.noReset n) hf hb).imp
    (·.congr inputs) (·.congr inputs)

/-- A fault ends every operation, and its mark stays (10_state.md R30). -/
theorem UndisturbedRun.ended_of_faulted (h : UndisturbedRun σ) {reason : FaultReason}
    (hf : (σ n).faultMark = some reason) : (σ (n + 1)).Ended := by
  obtain ⟨t, hstep, inputs⟩ := h.run n
  have mark := (faultMarkIsSticky (σ n) t reason hf hstep (h.noReset n)).1
  exact State.Ended.congr (.inr (by simp [mark])) inputs

/-- One step after an operation is issued or in progress, it has ended or is in progress. -/
theorem UndisturbedRun.ends_or_busy (h : UndisturbedRun σ)
    (hs : (σ n).busy = true ∨ ∃ r, (σ n).nextTurn.1 = .issue r) : (σ (n + 1)).Ended ∨ (σ (n + 1)).busy = true := by
  cases hf : (σ n).faultMark with
  | some reason => exact .inl (h.ended_of_faulted hf)
  | none =>
    obtain hb | ⟨r, hturn⟩ := hs
    · exact (h.ends_or_continues hf hb).imp_right Continues.busy
    · obtain ⟨t, hstep, inputs⟩ := h.run n
      exact (step_issue_ends_or_busy hstep (h.ownershipBroken_eq n) hturn).imp (·.congr inputs)
        (eq_of_withoutInputs_eq State.busy inputs).trans

/-- An operation that never ends is endless: it stays in progress and the fault mark stays clear. -/
theorem UndisturbedRun.endless_of_not_ended (h : UndisturbedRun σ)
    (hs : (σ n).busy = true ∨ ∃ r, (σ n).nextTurn.1 = .issue r) (hnone : ¬ ∃ m, OperationEnded σ n m) :
    Endless σ (n + 1) := by
  have notEnded (k : Nat) (hk : n < k) (hb : ∀ j, n < j → j < k → (σ j).busy = true) : ¬ (σ k).Ended :=
    fun ended => hnone ⟨k, k, hk, le_rfl, hb, ended⟩
  have busy (k : Nat) (hk : n < k) : (σ k).busy = true := by
    induction k using Nat.strong_induction_on with
    | _ k ih =>
      obtain ⟨k, rfl⟩ := Nat.exists_eq_succ_of_ne_zero (Nat.ne_zero_of_lt hk)
      have hk' : (σ k).busy = true ∨ ∃ r, (σ k).nextTurn.1 = .issue r := by
        obtain rfl | hlt := (Nat.le_of_lt_succ hk).eq_or_lt
        · exact hs
        · exact .inl (ih k k.lt_succ_self hlt)
      exact (h.ends_or_busy hk').resolve_left (notEnded _ hk fun j hj hlt => ih j hlt hj)
  intro j hj
  have going (k : Nat) (hk : n < k) : ¬ (σ k).Ended := notEnded k hk fun i hi _ => busy i hi
  have safe : (σ j).faultMark = none := by
    by_contra hf
    exact going j hj (.inr hf)
  exact (h.ends_or_continues safe (busy j hj)).resolve_left (going (j + 1) (by omega))

/-- Settles O59: an operation that did not end would be endless, which `not_endless` rules out. -/
theorem operationsEndUnderLivenessPremises : Obligations.OperationsEndUnderLivenessPremises := by
  intro σ run _ untouched exclusive noReset clock bursts yields
  have undisturbed : UndisturbedRun σ := ⟨run, untouched, exclusive, noReset⟩
  have ends (n : Nat) (hs : (σ n).busy = true ∨ ∃ r, (σ n).nextTurn.1 = .issue r) : ∃ m, OperationEnded σ n m := by
    by_contra hnone
    exact not_endless clock bursts yields (undisturbed.endless_of_not_ended hs hnone)
  refine ⟨ends, fun n hissue hlast => ?_⟩
  obtain ⟨m, hm⟩ := ends n (.inr hissue)
  exact ⟨m, hissue, hlast, hm⟩

end Sys2Proof.Machine
end
